-- ==== Sys2Proof/Word.lean ====
section
/-! DEFINITION. The word of the block (a byte) and its three closed sets of names. -/

namespace Sys2Proof

/-- A byte: 8 bits, unsigned (R7). It is the only word of the block: buffers, counters, lengths, the data
register and every operand byte are bytes (R10, R16, R29, R47, R64). -/
abbrev Byte := BitVec 8

/-- The values of the 3-bit register `step` (R11, R12): the five steps, and the three codes that are no step
and make a context ill-formed (R12, R22). Their numeric codes are `Step.code` in `Decode.lean`. -/
inductive Step where
  | error | ready | headerSent | dataTransmission | dataSent
  | code5 | code6 | code7
  deriving DecidableEq, Repr, Inhabited

/-- The register `direction` (R14). -/
inductive Direction where
  | read | write
  deriving DecidableEq, Repr, Inhabited

/-- The three agents that take steps (R6). -/
inductive Agent where
  | host | seq | bus
  deriving DecidableEq, Repr, Inhabited

end Sys2Proof
end

