-- ==== Sys2Proof/Config.lean ====
section
/-! DEFINITION. The configuration arguments of the block (R5) and the free values of its environment. -/

namespace Sys2Proof

/-- The two parameters a model takes as configuration arguments (R5): the buffer capacity `CAP`, legal range
1 to 255, and the bound `SPIN_LIMIT` on the busy-wait (none: unbounded). A state carries its configuration in
a field no step writes, so a statement about every state is a statement about every capacity. -/
structure Config where
  cap       : Nat
  spinLimit : Option Nat
  deriving DecidableEq, Repr

/-- The values R5 takes: `CAP` 16 (the source's "e.g. 16 bytes", D3), `SPIN_LIMIT` none (D29). -/
def Config.standard : Config := { cap := 16, spinLimit := none }

/-- FREE VALUE (log entry 5): the slave's acknowledge bit at the `n`-th free draw (R129). -/
opaque Config.freeNack : Nat → Bool

/-- FREE VALUE (log entry 5): whether arbitration is lost at the `n`-th free draw (R129, R130, R136). -/
opaque Config.freeArbl : Nat → Bool

/-- FREE VALUE (log entry 5): the slave's data byte at the `n`-th free draw (R130). -/
opaque Config.freeByte : Nat → Byte

/-- FREE VALUE (log entry 6): which agent the environment lets move at the `n`-th free turn. No order and no
fairness is given by the spec (R51, R135, R146). -/
opaque Config.freeTurn : Nat → Agent

end Sys2Proof
end

