-- ==== Sys2Proof/Syntax.lean ====
section
/-! DEFINITION. The instruction set: one constructor for each of the 44 rows of `spec/opcode_table.json`, in
the table's order and by its four formats (R60): C the host commands, EV the sequencer's cases, P the port
operations, W the wire symbols. -/

namespace Sys2Proof

/-- One constructor per row of the opcode table. An operand is a bit or field the row's mask leaves free, or an
operand byte of the packet. -/
inductive Instr where
  -- Format C, the host commands (R66)
  /-- INIT, byte 0 = 0x00 (R101). -/
  | init
  /-- WRITE, byte 0 = 0x01 with `NS` in bit 3 and `RS` in bit 4, then ADDR, LEN and the LEN data bytes (R102). -/
  | write (ns rs : Bool) (addr : Byte) (data : List Byte)
  /-- READ, byte 0 = 0x02 with `RS` in bit 4, then ADDR and LEN (R103). -/
  | read (rs : Bool) (addr len : Byte)
  /-- MEMREAD, byte 0 = 0x03, then ADDR, MADDR and LEN (R104). -/
  | memread (addr maddr len : Byte)
  /-- MEMWRITE, byte 0 = 0x04, then ADDR, MADDR, LEN and the LEN data bytes (R105). -/
  | memwrite (addr maddr : Byte) (data : List Byte)
  -- Format C, the reserved patterns (R67); `ops` are the packet's bytes after byte 0
  /-- WRITE_THEN_READ, `op` = 5 (R111). -/
  | writeThenRead (ns rs : Bool) (ops : List Byte)
  /-- RESERVED_OP6_7, `op` = 6 (`low` = 0) or 7 (`low` = 1). -/
  | reservedOp67 (low ns rs : Bool) (ops : List Byte)
  /-- RESERVED_ZERO_FIELD, bit 7 set; `low` is bits 6:0. -/
  | reservedZero7 (low : BitVec 7) (ops : List Byte)
  /-- RESERVED_ZERO_FIELD, bits 7:6 = 01; `low` is bits 5:0. -/
  | reservedZero6 (low : BitVec 6) (ops : List Byte)
  /-- RESERVED_ZERO_FIELD, bits 7:5 = 001; `low` is bits 4:0. -/
  | reservedZero5 (low : BitVec 5) (ops : List Byte)
  /-- RESERVED_INIT_FLAG, INIT with `NS` armed. -/
  | reservedInitNs (rs : Bool) (ops : List Byte)
  /-- RESERVED_INIT_FLAG, INIT with `RS` alone armed. -/
  | reservedInitRs (ops : List Byte)
  /-- RESERVED_READ_NS, READ with `NS` armed. -/
  | reservedReadNs (rs : Bool) (ops : List Byte)
  /-- RESERVED_MEMREAD_FLAG, MEMREAD with `NS` armed. -/
  | reservedMemreadNs (rs : Bool) (ops : List Byte)
  /-- RESERVED_MEMREAD_FLAG, MEMREAD with `RS` alone armed. -/
  | reservedMemreadRs (ops : List Byte)
  /-- RESERVED_MEMWRITE_FLAG, MEMWRITE with `NS` armed. -/
  | reservedMemwriteNs (rs : Bool) (ops : List Byte)
  /-- RESERVED_MEMWRITE_FLAG, MEMWRITE with `RS` alone armed. -/
  | reservedMemwriteRs (ops : List Byte)
  -- Format EV, the sequencer's cases, selected by the dispatch key {arbl, nack, step, direction} (R69, R70)
  /-- EV.ARBL, key `1 x xxx x` (R81). -/
  | evArbl (nack : Bool) (step : Step) (dir : Direction)
  /-- EV.NACK, key `0 1 010 x`: the address byte was not acknowledged (R82). -/
  | evNackHeader (dir : Direction)
  /-- EV.NACK, key `0 1 011 1`: a data byte of a WRITE was not acknowledged (R82). -/
  | evNackData
  /-- EV.NACK, key `0 1 100 1`: the last data byte of a WRITE was not acknowledged (R82). -/
  | evNackSent
  /-- EV.HDR_W, key `0 0 010 1` (R83). -/
  | evHdrW
  /-- EV.HDR_R, key `0 0 010 0` (R84). -/
  | evHdrR
  /-- EV.TX, key `0 0 011 1` (R85). -/
  | evTx
  /-- EV.RX_MORE, key `0 x 011 0` with two or more bytes still to store (R86). -/
  | evRxMore (nack : Bool)
  /-- EV.RX_LAST, key `0 x 011 0` with one byte still to store (R87). -/
  | evRxLast (nack : Bool)
  /-- EV.SENT, key `0 0 100 1` (R88). -/
  | evSent
  /-- EV.IDLE, key `0 x 00x x`; `ready` is the free step bit: READY (1) or ERROR (0) (R89). -/
  | evIdle (nack ready : Bool) (dir : Direction)
  /-- EV.ILLEGAL, key `0 x 100 0`: DATA_SENT with direction READ (R71, R92). -/
  | evIllegalSentRead (nack : Bool)
  /-- EV.ILLEGAL, key `0 x 101 x`: step code 5 (R71, R92). -/
  | evIllegalCode5 (nack : Bool) (dir : Direction)
  /-- EV.ILLEGAL, key `0 x 11x x`: step code 6 (`low` = 0) or 7 (`low` = 1) (R71, R92). -/
  | evIllegalCode67 (nack low : Bool) (dir : Direction)
  -- Format P, the port operations (R72)
  /-- CLR_EVENT, symbol 0x000 (R121). -/
  | clrEvent
  /-- START, symbol 0x100 (R122). -/
  | start
  /-- RESTART, symbol 0x200 (R123). -/
  | restart
  /-- STOP, symbol 0x300 (R124). -/
  | stop
  /-- SET_TX b, symbols 0x400 (receive) and 0x401 (transmit) (R125). -/
  | setTx (b : Bool)
  /-- SET_ACK a, symbols 0x500 (ACK) and 0x501 (NACK) (R126). -/
  | setAck (a : Bool)
  /-- WRITE_DATA v, symbol 0x600 + v (R127). -/
  | writeData (v : Byte)
  /-- READ_DATA, symbol 0x700 (R128). -/
  | readData
  -- Format W, the wire symbols (R73)
  /-- S, 0x1000: a START condition on the wire (R122). -/
  | wireS
  /-- Sr, 0x2000: a RESTART condition on the wire (R123). -/
  | wireSr
  /-- P, 0x3000: a STOP condition on the wire (R124). -/
  | wireP
  /-- T(v, a), 0x4000 + (a << 8) + v: the bus completes the transmitted byte `v`, answered `a` (R129). -/
  | wireT (v : Byte) (a : Bool)
  /-- R(v, a), 0x5000 + (a << 8) + v: the bus completes the received byte `v`, answered `a` (R130). -/
  | wireR (v : Byte) (a : Bool)
  deriving DecidableEq, Repr

end Sys2Proof
end

