-- ==== Sys2Proof/WellFormed.lean ====
section
/-! DEFINITION. Which terms of `Instr` are instructions: those whose operands fit the bytes the encoding gives
them (R62, R64). The ranges of ADDR and LEN that a command must meet to be accepted (R63, R110) are no part of
this check: a packet outside them decodes, and the command is refused when it is issued. -/

namespace Sys2Proof

/-- Whether `ops` are the operand bytes, in number, that the operation code `op` asks for (R62). For `op` 5 to 7
R62 gives no length and R110 asks for byte 0 alone, so any operands fit. -/
def operandsFit (op : BitVec 3) (ops : List Byte) : Bool :=
  match op.toNat with
  | 0 => ops.isEmpty
  | 1 => match ops with
    | _ :: len :: data => data.length == len.toNat
    | _ => false
  | 2 => ops.length == 2
  | 3 => ops.length == 3
  | 4 => match ops with
    | _ :: _ :: len :: data => data.length == len.toNat
    | _ => false
  | _ => true

/-- A well-formed instruction: its data fit the LEN byte, and a reserved command carries the operand bytes its
`op` computes. -/
def Instr.wf : Instr → Bool
  | .init => true
  | .write _ _ _ data => data.length < 256
  | .read _ _ _ => true
  | .memread _ _ _ => true
  | .memwrite _ _ data => data.length < 256
  | .writeThenRead _ _ _ => true
  | .reservedOp67 _ _ _ _ => true
  | .reservedZero7 low ops => operandsFit (low.extractLsb' 0 3) ops
  | .reservedZero6 low ops => operandsFit (low.extractLsb' 0 3) ops
  | .reservedZero5 low ops => operandsFit (low.extractLsb' 0 3) ops
  | .reservedInitNs _ ops => operandsFit 0 ops
  | .reservedInitRs ops => operandsFit 0 ops
  | .reservedReadNs _ ops => operandsFit 2 ops
  | .reservedMemreadNs _ ops => operandsFit 3 ops
  | .reservedMemreadRs ops => operandsFit 3 ops
  | .reservedMemwriteNs _ ops => operandsFit 4 ops
  | .reservedMemwriteRs ops => operandsFit 4 ops
  | .evArbl _ _ _ => true
  | .evNackHeader _ => true
  | .evNackData => true
  | .evNackSent => true
  | .evHdrW => true
  | .evHdrR => true
  | .evTx => true
  | .evRxMore _ => true
  | .evRxLast _ => true
  | .evSent => true
  | .evIdle _ _ _ => true
  | .evIllegalSentRead _ => true
  | .evIllegalCode5 _ _ => true
  | .evIllegalCode67 _ _ _ => true
  | .clrEvent => true
  | .start => true
  | .restart => true
  | .stop => true
  | .setTx _ => true
  | .setAck _ => true
  | .writeData _ => true
  | .readData => true
  | .wireS => true
  | .wireSr => true
  | .wireP => true
  | .wireT _ _ => true
  | .wireR _ _ => true

end Sys2Proof
end

