-- ==== Sys2Proof/Decode.lean ====
section
/-! DEFINITION. The numeric codes of the enumerations (R74), the decoders of the four formats (R61 to R73), total
on any bits and rejecting by name, and the encoder written from the same tables. -/

namespace Sys2Proof

/-! ## Codes of enumerated state (R12, R14, R74) -/

/-- The 3-bit code of a step (R12, D1). -/
def Step.code : Step → BitVec 3
  | .error => 0 | .ready => 1 | .headerSent => 2 | .dataTransmission => 3
  | .dataSent => 4 | .code5 => 5 | .code6 => 6 | .code7 => 7

/-- The step a 3-bit code stands for (R12). -/
def Step.ofCode (c : BitVec 3) : Step :=
  match c.toNat with
  | 0 => .error | 1 => .ready | 2 => .headerSent | 3 => .dataTransmission
  | 4 => .dataSent | 5 => .code5 | 6 => .code6 | _ => .code7

/-- The 1-bit code of `direction`: READ 0, WRITE 1 (R14, D2). -/
def Direction.bit : Direction → Bool
  | .read => false
  | .write => true

/-- The direction a bit stands for (R14). -/
def Direction.ofBit : Bool → Direction
  | false => .read
  | true => .write

/-! ## Rows of the opcode table -/

/-- Why a decoder rejects its input. -/
inductive Reject where
  /-- The packet is empty, lacks its LEN byte, or is not as long as R62 computes (R110 check 1). -/
  | malformed
  /-- The key selects no row for this number of bytes still to store (R70, R71). -/
  | noEventRow
  /-- The 12-bit symbol is no port operation (R72, codes 0x8 to 0xF and undefined operands). -/
  | notAPortOperation
  /-- The 16-bit symbol is no wire symbol (R73). -/
  | notAWireSymbol
  deriving DecidableEq, Repr

/-- A row of the opcode table as a decoder uses it: its mask and match, the extra condition R70 puts on two of the
rows, and the instruction the row builds from the word and the operands that come with it. -/
structure Row (w : Nat) (Operands : Type) where
  mask    : BitVec w
  pattern : BitVec w
  cond    : Operands → Bool := fun _ => true
  build   : BitVec w → Operands → Except Reject Instr

/-- Whether a word selects a row: `(word AND mask) = match`, and the extra condition (R66, R70). -/
def Row.selects {w : Nat} {Operands : Type} (r : Row w Operands) (word : BitVec w) (ops : Operands) : Bool :=
  word &&& r.mask == r.pattern && r.cond ops

/-- The instruction of the first row selected; `none` selected is the rejection `e`. -/
def pickRow {w : Nat} {Operands : Type} (e : Reject) (word : BitVec w) (ops : Operands) :
    List (Row w Operands) → Except Reject Instr
  | [] => .error e
  | r :: rows => if r.selects word ops then r.build word ops else pickRow e word ops rows

/-! ## Format C: command packets (R61 to R67) -/

/-- Byte 0 of a command: `{000, RS, NS, op}` (R61). -/
def byte0 (op : BitVec 3) (ns rs : Bool) : Byte :=
  (0#3 ++ BitVec.ofBool rs ++ BitVec.ofBool ns ++ op : BitVec 8)

/-- The packet's length computed from `op` and, where there is one, the LEN byte (R62, R110); `none` when the
packet is too short to hold its LEN byte. For `op` 5 to 7 the length is whatever was given. -/
def packetLength (b0 : Byte) (ops : List Byte) : Option Nat :=
  match (b0 &&& 0x07#8).toNat with
  | 0 => some 1
  | 1 => (ops[1]?).map fun len => 3 + len.toNat
  | 2 => some 3
  | 3 => some 4
  | 4 => (ops[2]?).map fun len => 4 + len.toNat
  | _ => some (1 + ops.length)

/-- The rows of format C, in the order of the opcode table (R66, R67), over byte 0 and the packet's other bytes. -/
def commandRows : List (Row 8 (List Byte)) :=
  [ { mask := 0xFF, pattern := 0x00, build := fun _ _ => .ok .init },
    { mask := 0xE7, pattern := 0x01, build := fun b ops => match ops with
        | addr :: _ :: data => .ok (.write (b.getLsbD 3) (b.getLsbD 4) addr data)
        | _ => .error .malformed },
    { mask := 0xEF, pattern := 0x02, build := fun b ops => match ops with
        | [addr, len] => .ok (.read (b.getLsbD 4) addr len)
        | _ => .error .malformed },
    { mask := 0xFF, pattern := 0x03, build := fun _ ops => match ops with
        | [addr, maddr, len] => .ok (.memread addr maddr len)
        | _ => .error .malformed },
    { mask := 0xFF, pattern := 0x04, build := fun _ ops => match ops with
        | addr :: maddr :: _ :: data => .ok (.memwrite addr maddr data)
        | _ => .error .malformed } ] ++
  [ { mask := 0xE7, pattern := 0x05, build := fun b ops => .ok (.writeThenRead (b.getLsbD 3) (b.getLsbD 4) ops) },
    { mask := 0xE6, pattern := 0x06, build := fun b ops =>
        .ok (.reservedOp67 (b.getLsbD 0) (b.getLsbD 3) (b.getLsbD 4) ops) },
    { mask := 0x80, pattern := 0x80, build := fun b ops => .ok (.reservedZero7 (b.extractLsb' 0 7) ops) },
    { mask := 0xC0, pattern := 0x40, build := fun b ops => .ok (.reservedZero6 (b.extractLsb' 0 6) ops) },
    { mask := 0xE0, pattern := 0x20, build := fun b ops => .ok (.reservedZero5 (b.extractLsb' 0 5) ops) },
    { mask := 0xEF, pattern := 0x08, build := fun b ops => .ok (.reservedInitNs (b.getLsbD 4) ops) },
    { mask := 0xFF, pattern := 0x10, build := fun _ ops => .ok (.reservedInitRs ops) },
    { mask := 0xEF, pattern := 0x0A, build := fun b ops => .ok (.reservedReadNs (b.getLsbD 4) ops) },
    { mask := 0xEF, pattern := 0x0B, build := fun b ops => .ok (.reservedMemreadNs (b.getLsbD 4) ops) },
    { mask := 0xFF, pattern := 0x13, build := fun _ ops => .ok (.reservedMemreadRs ops) },
    { mask := 0xEF, pattern := 0x0C, build := fun b ops => .ok (.reservedMemwriteNs (b.getLsbD 4) ops) },
    { mask := 0xFF, pattern := 0x14, build := fun _ ops => .ok (.reservedMemwriteRs ops) } ]

/-- The command a byte 0 and its operand bytes stand for (R66, R67). Every byte 0 selects a row. -/
def decodeCommand (b0 : Byte) (ops : List Byte) : Except Reject Instr := pickRow .malformed b0 ops commandRows

/-- A command packet (R61, R62): check 1 of R110, the length, comes before the row is looked up. -/
def decodePacket : List Byte → Except Reject Instr
  | [] => .error .malformed
  | b0 :: ops =>
    if packetLength b0 ops = some (1 + ops.length) then decodeCommand b0 ops else .error .malformed

/-! ## Format EV: the dispatch key (R69 to R71) -/

/-- The dispatch key `{arbl, nack, code(step), direction}` (R69). -/
def eventKey (arbl nack : Bool) (step : Step) (dir : Direction) : BitVec 6 :=
  (BitVec.ofBool arbl ++ BitVec.ofBool nack ++ step.code ++ BitVec.ofBool dir.bit : BitVec 6)

/-- The rows of format EV, in the order of the opcode table (R70, R71), over the key and `rem`, the number of
received bytes still to store, which alone tells EV.RX_MORE from EV.RX_LAST. -/
def eventRows : List (Row 6 Byte) :=
  [ { mask := 0x20, pattern := 0x20, build := fun k _ =>
        .ok (.evArbl (k.getLsbD 4) (Step.ofCode (k.extractLsb' 1 3)) (Direction.ofBit (k.getLsbD 0))) },
    { mask := 0x3E, pattern := 0x14, build := fun k _ => .ok (.evNackHeader (Direction.ofBit (k.getLsbD 0))) },
    { mask := 0x3F, pattern := 0x17, build := fun _ _ => .ok .evNackData },
    { mask := 0x3F, pattern := 0x19, build := fun _ _ => .ok .evNackSent },
    { mask := 0x3F, pattern := 0x05, build := fun _ _ => .ok .evHdrW },
    { mask := 0x3F, pattern := 0x04, build := fun _ _ => .ok .evHdrR },
    { mask := 0x3F, pattern := 0x07, build := fun _ _ => .ok .evTx } ] ++
  [ { mask := 0x2F, pattern := 0x06, cond := fun rem => 2 ≤ rem.toNat, build := fun k _ =>
        .ok (.evRxMore (k.getLsbD 4)) },
    { mask := 0x2F, pattern := 0x06, cond := fun rem => rem.toNat = 1, build := fun k _ =>
        .ok (.evRxLast (k.getLsbD 4)) },
    { mask := 0x3F, pattern := 0x09, build := fun _ _ => .ok .evSent },
    { mask := 0x2C, pattern := 0x00, build := fun k _ =>
        .ok (.evIdle (k.getLsbD 4) (k.getLsbD 1) (Direction.ofBit (k.getLsbD 0))) },
    { mask := 0x2F, pattern := 0x08, build := fun k _ => .ok (.evIllegalSentRead (k.getLsbD 4)) },
    { mask := 0x2E, pattern := 0x0A, build := fun k _ =>
        .ok (.evIllegalCode5 (k.getLsbD 4) (Direction.ofBit (k.getLsbD 0))) },
    { mask := 0x2C, pattern := 0x0C, build := fun k _ =>
        .ok (.evIllegalCode67 (k.getLsbD 4) (k.getLsbD 1) (Direction.ofBit (k.getLsbD 0))) } ]

/-- The case a key selects for `rem` bytes still to store (R70). The keys of R71 select the illegal rows; the receive
key with nothing left to store selects none. -/
def decodeEvent (key : BitVec 6) (rem : Byte) : Except Reject Instr := pickRow .noEventRow key rem eventRows

/-! ## Format P: port-operation symbols (R72) -/

/-- The rows of format P (R72). -/
def portRows : List (Row 12 Unit) :=
  [ { mask := 0xFFF, pattern := 0x000, build := fun _ _ => .ok .clrEvent },
    { mask := 0xFFF, pattern := 0x100, build := fun _ _ => .ok .start },
    { mask := 0xFFF, pattern := 0x200, build := fun _ _ => .ok .restart },
    { mask := 0xFFF, pattern := 0x300, build := fun _ _ => .ok .stop },
    { mask := 0xFFE, pattern := 0x400, build := fun w _ => .ok (.setTx (w.getLsbD 0)) },
    { mask := 0xFFE, pattern := 0x500, build := fun w _ => .ok (.setAck (w.getLsbD 0)) },
    { mask := 0xF00, pattern := 0x600, build := fun w _ => .ok (.writeData (w.extractLsb' 0 8)) },
    { mask := 0xFFF, pattern := 0x700, build := fun _ _ => .ok .readData } ]

/-- The port operation a 12-bit symbol `{code, operand}` stands for (R72). -/
def decodePort (sym : BitVec 12) : Except Reject Instr := pickRow .notAPortOperation sym () portRows

/-! ## Format W: wire symbols (R73) -/

/-- The rows of format W (R73). -/
def wireRows : List (Row 16 Unit) :=
  [ { mask := 0xFFFF, pattern := 0x1000, build := fun _ _ => .ok .wireS },
    { mask := 0xFFFF, pattern := 0x2000, build := fun _ _ => .ok .wireSr },
    { mask := 0xFFFF, pattern := 0x3000, build := fun _ _ => .ok .wireP },
    { mask := 0xFE00, pattern := 0x4000, build := fun w _ => .ok (.wireT (w.extractLsb' 0 8) (w.getLsbD 8)) },
    { mask := 0xFE00, pattern := 0x5000, build := fun w _ => .ok (.wireR (w.extractLsb' 0 8) (w.getLsbD 8)) } ]

/-- The wire symbol of a 16-bit pattern `{kind, 000, a, v}` (R73). -/
def decodeWire (sym : BitVec 16) : Except Reject Instr := pickRow .notAWireSymbol sym () wireRows

/-! ## All four formats, and the encoder -/

/-- An encoded instruction in its format (R60). An event carries, beside its key, the number of bytes still to
store that R70's extra conditions test. -/
inductive Code where
  | packet (bytes : List Byte)
  | event (key : BitVec 6) (rem : Byte)
  | port (sym : BitVec 12)
  | wire (sym : BitVec 16)
  deriving DecidableEq, Repr

/-- Decoding of any format. -/
def decode : Code → Except Reject Instr
  | .packet bytes => decodePacket bytes
  | .event key rem => decodeEvent key rem
  | .port sym => decodePort sym
  | .wire sym => decodeWire sym

/-- The LEN byte of a data list (R64). -/
def lenByte (data : List Byte) : Byte := BitVec.ofNat 8 data.length

/-- A wire symbol's 16 bits `{kind, 000, a, v}` (R73). -/
def wireSymbol (kind : BitVec 4) (a : Bool) (v : Byte) : BitVec 16 :=
  (kind ++ 0#3 ++ BitVec.ofBool a ++ v : BitVec 16)

/-- A port operation's 12 bits `{code, operand}` (R72). -/
def portSymbol (code : BitVec 4) (operand : Byte) : BitVec 12 :=
  (code ++ operand : BitVec 12)

/-- A one-bit operand in an operand byte (R72: 0x00 or 0x01). -/
def bitByte (b : Bool) : Byte := (0#7 ++ BitVec.ofBool b : BitVec 8)

/-- The code of an instruction, from the tables of R62, R66, R67, R70, R72 and R73. -/
def encode : Instr → Code
  | .init => .packet [byte0 0 false false]
  | .write ns rs addr data => .packet (byte0 1 ns rs :: addr :: lenByte data :: data)
  | .read rs addr len => .packet [byte0 2 false rs, addr, len]
  | .memread addr maddr len => .packet [byte0 3 false false, addr, maddr, len]
  | .memwrite addr maddr data => .packet (byte0 4 false false :: addr :: maddr :: lenByte data :: data)
  | .writeThenRead ns rs ops => .packet (byte0 5 ns rs :: ops)
  | .reservedOp67 low ns rs ops => .packet (byte0 (if low then 7 else 6) ns rs :: ops)
  | .reservedZero7 low ops => .packet ((1#1 ++ low : BitVec 8) :: ops)
  | .reservedZero6 low ops => .packet ((1#2 ++ low : BitVec 8) :: ops)
  | .reservedZero5 low ops => .packet ((1#3 ++ low : BitVec 8) :: ops)
  | .reservedInitNs rs ops => .packet (byte0 0 true rs :: ops)
  | .reservedInitRs ops => .packet (byte0 0 false true :: ops)
  | .reservedReadNs rs ops => .packet (byte0 2 true rs :: ops)
  | .reservedMemreadNs rs ops => .packet (byte0 3 true rs :: ops)
  | .reservedMemreadRs ops => .packet (byte0 3 false true :: ops)
  | .reservedMemwriteNs rs ops => .packet (byte0 4 true rs :: ops)
  | .reservedMemwriteRs ops => .packet (byte0 4 false true :: ops)
  | .evArbl nack step dir => .event (eventKey true nack step dir) 0
  | .evNackHeader dir => .event (eventKey false true .headerSent dir) 0
  | .evNackData => .event (eventKey false true .dataTransmission .write) 0
  | .evNackSent => .event (eventKey false true .dataSent .write) 0
  | .evHdrW => .event (eventKey false false .headerSent .write) 0
  | .evHdrR => .event (eventKey false false .headerSent .read) 0
  | .evTx => .event (eventKey false false .dataTransmission .write) 0
  | .evRxMore nack => .event (eventKey false nack .dataTransmission .read) 2
  | .evRxLast nack => .event (eventKey false nack .dataTransmission .read) 1
  | .evSent => .event (eventKey false false .dataSent .write) 0
  | .evIdle nack ready dir => .event (eventKey false nack (if ready then .ready else .error) dir) 0
  | .evIllegalSentRead nack => .event (eventKey false nack .dataSent .read) 0
  | .evIllegalCode5 nack dir => .event (eventKey false nack .code5 dir) 0
  | .evIllegalCode67 nack low dir => .event (eventKey false nack (if low then .code7 else .code6) dir) 0
  | .clrEvent => .port (portSymbol 0 0)
  | .start => .port (portSymbol 1 0)
  | .restart => .port (portSymbol 2 0)
  | .stop => .port (portSymbol 3 0)
  | .setTx b => .port (portSymbol 4 (bitByte b))
  | .setAck a => .port (portSymbol 5 (bitByte a))
  | .writeData v => .port (portSymbol 6 v)
  | .readData => .port (portSymbol 7 0)
  | .wireS => .wire (wireSymbol 1 false 0)
  | .wireSr => .wire (wireSymbol 2 false 0)
  | .wireP => .wire (wireSymbol 3 false 0)
  | .wireT v a => .wire (wireSymbol 4 a v)
  | .wireR v a => .wire (wireSymbol 5 a v)

/-! ## Words as the opcode table numbers them -/

/-- The packet whose first bytes are the low bytes of `w`: `nbits` bits of it, and zero operand bytes up to the
shortest packet its `op` can have (R62). -/
def tablePacket (nbits w : Nat) : List Byte :=
  let given := nbits / 8
  let need := match w % 8 with
    | 0 => 1 | 1 => 3 | 2 => 3 | 3 => 4 | 4 => 4 | _ => 1
  (List.range (max given need)).map fun i =>
    if i < given then BitVec.ofNat 8 (w / 256 ^ i) else 0

/-- The code a table word of `nbits` bits stands for. The opcode table holds four formats of 8, 6, 12 and 16
bits (R60). A word of 16 bits is a port symbol when its top four bits are 0 (no wire kind is 0, R73), since a
12-bit symbol fills two whole bytes; every other width is a command packet (log entry 11). -/
def tableCode (nbits w : Nat) : Code :=
  if nbits = 6 then .event (BitVec.ofNat 6 w) 2
  else if nbits = 12 then .port (BitVec.ofNat 12 w)
  else if nbits = 16 then
    if w < 0x1000 then .port (BitVec.ofNat 12 w) else .wire (BitVec.ofNat 16 w)
  else .packet (tablePacket nbits w)

/-- The instruction the decoder reads from a word of the opcode table. -/
def decodeTableWord (nbits w : Nat) : Option Instr :=
  match decode (tableCode nbits w) with
  | .ok i => some i
  | .error _ => none

end Sys2Proof
end

