-- ==== Sys2Proof/Machine/State.lean ====
section
/-! DEFINITION. The state of the machine as plain data: the Transfer Context, the host, the port, the two traces
(R10 to R35), and the model's own fields (configuration, inputs, draws); the reasons a step can stop; reset. -/

namespace Sys2Proof.Machine

open Sys2Proof

/-- What a buffer entry that nothing has written reads as (log entry 2). -/
def Memory.unlisted : Byte := 0

/-- A buffer of `CAP` bytes (R15, R40): its entries by index, strictly rising, none equal to
`Memory.unlisted`. -/
abbrev Memory := List Host.Cell

/-- The Transfer Context (R10): all its fields, and `initialised`, which says whether an INIT has written `step`
since reset, what R110 check 6 asks (log entry 1). -/
structure Context where
  step         : Step
  initialised  : Bool
  direction    : Direction
  txBuffer     : Memory
  rxBuffer     : Memory
  txLength     : Byte
  txCounter    : Byte
  rxLength     : Byte
  rxCounter    : Byte
  noStopFlag   : Bool
  restartFlag  : Bool
  deriving DecidableEq, Repr

/-- The commands that spin (R100); INIT completes at once and is never held. -/
inductive SpinOp where
  | write | read | memread | memwrite
  deriving DecidableEq, Repr

/-- A decoded command, the record of R61. -/
structure Command where
  op            : SpinOp
  ns            : Bool
  rs            : Bool
  address       : BitVec 7
  memoryAddress : Byte
  length        : Byte
  data          : List Byte
  deriving DecidableEq, Repr

/-- `host.phase` (R24). -/
inductive Phase where
  | idle | spin
  deriving DecidableEq, Repr

/-- `host.sub` (R24): which of MEMREAD's two transfers is in progress; 1 otherwise. -/
inductive Sub where
  | first | second
  deriving DecidableEq, Repr

/-- The host's state (R24): `result` is the last response packet (R65) or none. `spins` is the model's own: the
polls of the present busy-wait, counted only under a `SPIN_LIMIT` (R5; log entry 7). -/
structure HostState where
  phase  : Phase
  cmd    : Command
  sub    : Sub
  result : Option (List Byte)
  spins  : Nat
  deriving DecidableEq, Repr

/-- `port.inflight` (R33): the byte operation the bus is carrying out. -/
inductive Inflight where
  | none
  | txb (v : Byte)
  | rxb
  deriving DecidableEq, Repr

/-- The port registers (R25 to R33). -/
structure Port where
  mst      : Bool
  txMode   : Bool
  ackCtl   : Bool
  dataReg  : Byte
  evFlag   : Bool
  arbLost  : Bool
  rxNack   : Bool
  inflight : Inflight
  deriving DecidableEq, Repr

/-- A port operation (R72, R120). -/
inductive PortOp where
  | clrEvent | start | restart | stop
  | setTx (b : Bool)
  | setAck (a : Bool)
  | writeData (v : Byte)
  | readData
  deriving DecidableEq, Repr

/-- A wire symbol (R73). -/
inductive WireSym where
  | s | sr | p
  | t (v : Byte) (a : Bool)
  | r (v : Byte) (a : Bool)
  deriving DecidableEq, Repr

/-- The observation traces (R34), oldest symbol first. -/
structure Trace where
  port : List PortOp
  wire : List WireSym
  deriving DecidableEq, Repr

/-- What the environment draws at one byte completion (R129, R130). -/
structure BusDraw where
  nack : Bool
  arbl : Bool
  byte : Byte
  deriving DecidableEq, Repr

/-- What the outside world asks of the next step (log entry 6). -/
inductive Input where
  /-- The next command of the one foreground program: it is issued when the host is idle (R6, R106). -/
  | call (bytes : List Byte)
  /-- A command packet presented at once, whatever the host is doing (R110, R163). -/
  | packet (bytes : List Byte)
  /-- The agent that moves now (R6, R51). -/
  | turn (a : Agent)
  /-- A port-operation symbol performed directly, as a test harness may (R131). -/
  | portOp (sym : BitVec 12)
  /-- A wire symbol: the bus completes a byte with the draw the symbol names (R129, R130). -/
  | wire (sym : BitVec 16)
  deriving DecidableEq, Repr

/-- The machine's state. `cfg`, `inputs`, `draws` and `freeIndex` are the model's own: the configuration no step
writes, the inputs still to come, the draws still to come, and the counter that the free values of `Config` are
read at. -/
structure State where
  cfg       : Config
  ctx       : Context
  host      : HostState
  port      : Port
  trace     : Trace
  inputs    : List Input
  draws     : List BusDraw
  freeIndex : Nat
  deriving DecidableEq, Repr

/-- The reasons of a port misuse (R131), the closed list. -/
inductive PortMisuse where
  /-- START with the bus owned or a byte in flight (R122). -/
  | startWhileOwned
  /-- RESTART with the bus not owned or a byte in flight (R123). -/
  | restartWhileNotOwned
  /-- WRITE_DATA outside transmit mode, without the bus, or with a byte in flight (R127). -/
  | writeDataNotTransmitting
  /-- READ_DATA that would start a reception with a byte in flight (R128). -/
  | readDataWhileBusy
  deriving DecidableEq, Repr

/-- Why the machine stops with a fault. -/
inductive Fault where
  /-- Raised by every sequencer step taken in an ill-formed context (R92, R71, R22; D20, U13), and by a buffer access
  outside 0 to CAP-1 (R47). Safe: the spec itself names the fault. -/
  | illFormedContext
  /-- Raised by a port operation whose precondition fails (R131). Safe: the spec itself names the fault. -/
  | portMisuse (reason : PortMisuse)
  /-- Raised by a poll when a `SPIN_LIMIT` is set and used up; the spec defines nothing for that case (D29).
  Safe: the machine stops where the spec is silent; with the spec's value, none, it is never raised. -/
  | spinLimitReached
  deriving DecidableEq, Repr

/-- Why a step is refused. -/
inductive Refusal where
  /-- An instruction without a meaning yet. Safe. No arm raises it. -/
  | notModelled (mnemonic : String)
  /-- Raised by the issue of a packet of the wrong length (R110 check 1). Safe: the spec names it. -/
  | malformed
  /-- Raised by the issue of a reserved command (R67, R110 check 2, R111). Safe: the spec names it. -/
  | reservedEncoding
  /-- Raised by the issue of a command whose ADDR byte has bit 7 set (R63, R110 check 3). Safe: the spec names it. -/
  | badAddress
  /-- Raised by the issue of a command whose length is out of range (R110 check 4). Safe: the spec names it. -/
  | badLength
  /-- Raised by the issue of a command while the host is in one (R110 check 5). Safe: the spec names it. -/
  | hostBusy
  /-- Raised by the issue of a transfer command before the first INIT (R110 check 6). Safe: the spec names it. -/
  | notInitialised
  /-- Raised by the issue of a transfer command while `step > READY` (R110 check 7). Safe: the spec names it. -/
  | transferInFlight
  /-- Raised by the issue of a transfer command with a byte in flight or an event pending (R110 check 8). Safe:
  the spec names it. -/
  | portNotQuiescent
  /-- Raised by the issue of a transfer command whose `RS` does not match the bus ownership (R110 check 9). Safe:
  the spec names it. -/
  | busOwnershipMismatch
  /-- Raised when an agent is asked for a step that is not enabled (R80, R100, R129, R130). Safe: the spec gives
  the agent no step there (log entry 8). -/
  | notEnabled (a : Agent)
  /-- Raised by a sequencer case that the dispatch key of the state does not select (R70). Safe: the spec runs
  the one selected case (log entry 8). -/
  | notSelected
  /-- Raised by an input symbol that is no port operation or wire symbol (R72, R73). Safe: the spec gives it no
  meaning. -/
  | undefinedSymbol
  deriving DecidableEq, Repr

/-- The outcome of a step. -/
abbrev Result := Host.Outcome State Fault Refusal

/-- The context at reset: the spec gives it no values (R35, R160), the model's are zeros (log entry 1). -/
def Context.reset : Context :=
  { step := .error, initialised := false, direction := .read, txBuffer := [], rxBuffer := [],
    txLength := 0, txCounter := 0, rxLength := 0, rxCounter := 0, noStopFlag := false, restartFlag := false }

/-- The host at reset: IDLE with no result (R35, R160); `cmd` is meaningful only in SPIN (R24, log entry 1) and
`sub` is 1 "otherwise" (R24). -/
def HostState.reset : HostState :=
  { phase := .idle,
    cmd := { op := .write, ns := false, rs := false, address := 0, memoryAddress := 0, length := 0, data := [] },
    sub := .first, result := none, spins := 0 }

/-- The port at reset: idle (R35, R160); `dataReg` is unspecified there (log entry 1). -/
def Port.reset : Port :=
  { mst := false, txMode := false, ackCtl := false, dataReg := 0, evFlag := false, arbLost := false,
    rxNack := false, inflight := .none }

/-- The machine right after a hardware reset (R160, R35), with the standard configuration and nothing asked of
it. -/
def State.reset : State :=
  { cfg := Config.standard, ctx := Context.reset, host := HostState.reset, port := Port.reset,
    trace := { port := [], wire := [] }, inputs := [], draws := [], freeIndex := 0 }

end Sys2Proof.Machine
end

