-- ==== Sys2Proof/Machine/Operands.lean ====
section
/-! DEFINITION. The operand forms: the address byte, the lengths, and the decoded command records. -/

namespace Sys2Proof.Machine

open Sys2Proof

/-- The 7-bit slave address of an ADDR byte (R63). -/
def slaveAddress (addr : Byte) : BitVec 7 := addr.extractLsb' 0 7

/-- The address byte on the wire, `{address[6:0], rw}`, `rw` 0 for a WRITE and 1 for a READ transfer (R44, R68). -/
def header (address : BitVec 7) (rw : Bool) : Byte := (address ++ BitVec.ofBool rw : BitVec 8)

/-- Whether a transfer of `n` data bytes has a legal length, 1 to CAP (R41, R110 check 4). -/
def lengthOk (cap n : Nat) : Bool := decide (1 ≤ n) && decide (n ≤ cap)

/-- WRITE as the record of R61. DESIGN CHOICE: `memoryAddress`, which WRITE does not use, is 0 (log entry 10). -/
def writeCommand (ns rs : Bool) (addr : Byte) (data : List Byte) : Command :=
  { op := .write, ns := ns, rs := rs, address := slaveAddress addr, memoryAddress := 0,
    length := lenByte data, data := data }

/-- READ as the record of R61. DESIGN CHOICE: `memoryAddress` and `data`, which READ does not use, are 0 and empty
(log entry 10). -/
def readCommand (rs : Bool) (addr len : Byte) : Command :=
  { op := .read, ns := false, rs := rs, address := slaveAddress addr, memoryAddress := 0, length := len, data := [] }

/-- MEMREAD as the record of R61. DESIGN CHOICE: `data`, which MEMREAD does not use, is empty (log entry 10). -/
def memreadCommand (addr maddr len : Byte) : Command :=
  { op := .memread, ns := false, rs := false, address := slaveAddress addr, memoryAddress := maddr,
    length := len, data := [] }

/-- MEMWRITE as the record of R61. -/
def memwriteCommand (addr maddr : Byte) (data : List Byte) : Command :=
  { op := .memwrite, ns := false, rs := false, address := slaveAddress addr, memoryAddress := maddr,
    length := lenByte data, data := data }

/-- A port operation as the symbol appended to `trace.port` (R72, R132). -/
def PortOp.symbol : PortOp → BitVec 12
  | .clrEvent => portSymbol 0 0
  | .start => portSymbol 1 0
  | .restart => portSymbol 2 0
  | .stop => portSymbol 3 0
  | .setTx b => portSymbol 4 (bitByte b)
  | .setAck a => portSymbol 5 (bitByte a)
  | .writeData v => portSymbol 6 v
  | .readData => portSymbol 7 0

/-- A wire symbol as the bits appended to `trace.wire` (R73, R133). -/
def WireSym.symbol : WireSym → BitVec 16
  | .s => wireSymbol 1 false 0
  | .sr => wireSymbol 2 false 0
  | .p => wireSymbol 3 false 0
  | .t v a => wireSymbol 4 a v
  | .r v a => wireSymbol 5 a v

end Sys2Proof.Machine
end

