-- ==== Sys2Proof/Machine/Flags.lean ====
section
/-! DEFINITION. The conditions the rules test: `step > READY`, well-formedness of the context, the dispatch key,
the bytes still to store, the acknowledge for the next byte, and the acceptance checks. -/

namespace Sys2Proof.Machine

open Sys2Proof

/-- `step > READY`, the unsigned comparison of the 3-bit codes (R7, R12, R57). -/
def inTransfer (step : Step) : Bool := decide (Step.ready.code < step.code)

/-- `busy`, which is derived and not stored (R20). -/
def Context.busy (c : Context) : Bool := inTransfer c.step

/-- Whether a step is one of the five (R12, R22). -/
def isStep : Step → Bool
  | .error | .ready | .headerSent | .dataTransmission | .dataSent => true
  | .code5 | .code6 | .code7 => false

/-- The part of `WF` about a WRITE transfer (R22). -/
def Context.txWf (cap : Nat) (c : Context) : Bool :=
  decide (1 ≤ c.txLength.toNat) && decide (c.txLength.toNat ≤ cap) && decide (c.txCounter.toNat ≤ c.txLength.toNat) &&
    match c.step with
    | .headerSent => decide (c.txCounter.toNat = 0)
    | .dataTransmission => decide (1 ≤ c.txCounter.toNat) && decide (c.txCounter.toNat < c.txLength.toNat)
    | .dataSent => decide (c.txCounter.toNat = c.txLength.toNat)
    | _ => true

/-- The part of `WF` about a READ transfer (R22). -/
def Context.rxWf (cap : Nat) (c : Context) : Bool :=
  decide (1 ≤ c.rxLength.toNat) && decide (c.rxLength.toNat ≤ cap) && decide (c.rxCounter.toNat < c.rxLength.toNat) &&
    match c.step with
    | .headerSent => decide (c.rxCounter.toNat = 0)
    | .dataSent => false
    | _ => true

/-- `WF(ctx)` (R22). It reads the registers as they stand, the named values of reset included (log entry 3). -/
def Context.wf (cap : Nat) (c : Context) : Bool :=
  isStep c.step &&
    (!inTransfer c.step || match c.direction with
      | .write => c.txWf cap
      | .read => c.rxWf cap)

/-- `rem = rxLength - rxCounter` in 8 bits: the received bytes still to store (R57, R86, R87). -/
def Context.rem (c : Context) : Byte := c.rxLength - c.rxCounter

/-- The dispatch key of the state: the event bits sampled from the port, `step` and `direction` (R69, R80). -/
def State.key (s : State) : BitVec 6 := eventKey s.port.arbLost s.port.rxNack s.ctx.step s.ctx.direction

/-- `port.inflight = NONE`. -/
def Inflight.isNone : Inflight → Bool
  | .none => true
  | .txb _ => false
  | .rxb => false

/-- Checks 3 to 9 of R110, in order: the first that fails gives the reason. Checks 1 and 2 are the decoder's and
the reserved rows'. -/
def acceptance (addr : Byte) (lengthIsOk rs : Bool) (s : State) : Option Refusal :=
  if addr.getLsbD 7 then some .badAddress
  else if !lengthIsOk then some .badLength
  else if s.host.phase ≠ .idle then some .hostBusy
  else if !s.ctx.initialised then some .notInitialised
  else if inTransfer s.ctx.step then some .transferInFlight
  else if !s.port.inflight.isNone || s.port.evFlag then some .portNotQuiescent
  else if s.port.mst ≠ rs then some .busOwnershipMismatch
  else none

/-- The status byte of a response: `zext_8(code(step))` (R65, R107). -/
def statusByte (step : Step) : Byte := step.code.setWidth 8

/-- Whether an agent has an enabled step: HOST in its spin (R100), SEQ with an event pending (R80, R146), BUS with
a byte in flight (R129, R130). -/
def agentEnabled (s : State) : Agent → Bool
  | .host => s.host.phase = .spin
  | .seq => s.port.evFlag
  | .bus => !s.port.inflight.isNone

end Sys2Proof.Machine
end

