-- ==== Sys2Proof/Machine/Ops.lean ====
section
/-! DEFINITION. The named operations shared by the meanings: buffer bytes, the port operations, taking a bus
error, the draws of the environment, and the shape of a host and of a sequencer step. -/

namespace Sys2Proof.Machine

open Sys2Proof

/-! ## Buffers (R8 TxRead, TxWrite, RxRead, RxWrite; R40 to R47) -/

/-- The byte at an index. -/
def Memory.read : Memory → Nat → Byte
  | [], _ => Memory.unlisted
  | (a, b) :: m, x => if x = a then b else Memory.read m x

/-- A buffer with one byte written, in canonical form. -/
def Memory.write : Memory → Nat → Byte → Memory
  | [], x, v => if v = Memory.unlisted then [] else [(x, v)]
  | (a, b) :: m, x, v =>
    if x < a then (if v = Memory.unlisted then (a, b) :: m else (x, v) :: (a, b) :: m)
    else if x = a then (if v = Memory.unlisted then m else (x, v) :: m)
    else (a, b) :: Memory.write m x v

/-- The canonical form: indices strictly rising, no entry equal to what an unlisted index reads as. -/
abbrev Memory.wf (m : Memory) : Prop :=
  m.Pairwise (fun c d => c.1 < d.1) ∧ ∀ c ∈ m, c.2 ≠ Memory.unlisted

/-- Every listed index is below `cap`. -/
abbrev Memory.within (cap : Nat) (m : Memory) : Prop := ∀ c ∈ m, c.1 < cap

/-- Copy-in: `data[j]` to index `i + j` (R42). -/
def Memory.copyIn (m : Memory) (i : Nat) : List Byte → Memory
  | [] => m
  | b :: data => Memory.copyIn (m.write i b) (i + 1) data

/-- Copy-out: the bytes 0 to `n - 1` (R43). -/
def Memory.copyOut (m : Memory) (n : Nat) : List Byte := (List.range n).map m.read

/-! ## Outcomes -/

/-- What follows a step part that went on; a fault or a refusal ends the whole step. -/
def andThen (r : Result) (f : State → Result) : Result :=
  match r with
  | .next s => f s
  | .fault e => .fault e
  | .refused e => .refused e

/-- An access to a buffer at index `i`, defined for `0 <= i < CAP` (R8); outside it is the fault of R47. -/
def atIndex (i : Nat) (s : State) (f : Result) : Result :=
  if i < s.cfg.cap then f else .fault .illFormedContext

/-! ## Port operations (R120 to R128) -/

/-- The state with a wire symbol appended (R133). -/
def logWire (w : WireSym) (s : State) : State :=
  { s with trace := { s.trace with wire := s.trace.wire ++ [w] } }

/-- The state with a port symbol appended (R132). -/
def logPort (op : PortOp) (s : State) : State :=
  { s with trace := { s.trace with port := s.trace.port ++ [op] } }

/-- CLR_EVENT's effect (R121). -/
def clearEvent (s : State) : Result :=
  .next { s with port := { s.port with evFlag := false, arbLost := false } }

/-- START's precondition and effect (R122). -/
def startCondition (s : State) : Result :=
  if s.port.mst = false ∧ s.port.inflight = .none then
    .next (logWire .s { s with port := { s.port with mst := true } })
  else .fault (.portMisuse .startWhileOwned)

/-- RESTART's precondition and effect (R123). -/
def restartCondition (s : State) : Result :=
  if s.port.mst = true ∧ s.port.inflight = .none then .next (logWire .sr s)
  else .fault (.portMisuse .restartWhileNotOwned)

/-- STOP's effect (R124): total. -/
def stopCondition (s : State) : Result :=
  if s.port.mst = true then
    .next (logWire .p { s with port := { s.port with mst := false, inflight := .none } })
  else .next s

/-- SET_TX's effect (R125). -/
def setTransmitMode (b : Bool) (s : State) : Result :=
  .next { s with port := { s.port with txMode := b } }

/-- SET_ACK's effect (R126). -/
def setAckControl (a : Bool) (s : State) : Result :=
  .next { s with port := { s.port with ackCtl := a } }

/-- WRITE_DATA's precondition and effect (R127). -/
def writeDataRegister (v : Byte) (s : State) : Result :=
  if s.port.mst = true ∧ s.port.txMode = true ∧ s.port.inflight = .none then
    .next { s with port := { s.port with dataReg := v, inflight := .txb v } }
  else .fault (.portMisuse .writeDataNotTransmitting)

/-- READ_DATA's precondition and effect (R128); the byte it returns is `port.dataReg` before it. -/
def readDataRegister (s : State) : Result :=
  if s.port.mst = true ∧ s.port.txMode = false then
    if s.port.inflight = .none then .next { s with port := { s.port with inflight := .rxb } }
    else .fault (.portMisuse .readDataWhileBusy)
  else .next s

/-- The effect of a port operation (R121 to R128). -/
def applyOp : PortOp → State → Result
  | .clrEvent => clearEvent
  | .start => startCondition
  | .restart => restartCondition
  | .stop => stopCondition
  | .setTx b => setTransmitMode b
  | .setAck a => setAckControl a
  | .writeData v => writeDataRegister v
  | .readData => readDataRegister

/-- `emit OP`: the effect, then the symbol in `trace.port`; when the precondition fails neither happens (R120,
R131). -/
def emit (op : PortOp) (s : State) : Result :=
  andThen (applyOp op s) fun t => .next (logPort op t)

/-! ## Taking a bus error (R140 to R149) -/

/-- `raise`: STOP is emitted whatever `noStopFlag` holds, `step` becomes ERROR, nothing else changes
(R81, R82, R149). -/
def raiseBusError (s : State) : Result :=
  andThen (emit .stop s) fun t => .next { t with ctx := { t.ctx with step := .error } }

/-! ## The environment's draws (R129, R130, R135, R136) -/

/-- The next draw of the environment: the first that stands in the state, else a free one (log entry 5). -/
def nextDraw (s : State) : BusDraw :=
  match s.draws with
  | d :: _ => d
  | [] => { nack := Config.freeNack s.freeIndex, arbl := Config.freeArbl s.freeIndex,
            byte := Config.freeByte s.freeIndex }

/-- The state with that draw used up. -/
def afterDraw (s : State) : State :=
  match s.draws with
  | _ :: ds => { s with draws := ds }
  | [] => { s with freeIndex := s.freeIndex + 1 }

/-- BUS.complete of a transmitted byte `v` that the slave answers `nack` (R129); enabled when `v` is in flight. -/
def completeTransmit (v : Byte) (nack : Bool) (s : State) : Result :=
  if s.port.inflight = .txb v then
    .next (logWire (.t v nack) { afterDraw s with
      port := { s.port with rxNack := nack, arbLost := (nextDraw s).arbl, inflight := .none, evFlag := true } })
  else .refused (.notEnabled .bus)

/-- BUS.complete of a received byte whose value is `v` and whose acknowledge bit is `a` (R130); enabled when a
byte is being received and `a` is what `ackCtl` holds. -/
def completeReceive (v : Byte) (a : Bool) (s : State) : Result :=
  if s.port.inflight = .rxb ∧ s.port.ackCtl = a then
    .next (logWire (.r v a) { afterDraw s with
      port := { s.port with dataReg := v, rxNack := a, arbLost := (nextDraw s).arbl, inflight := .none,
                            evFlag := true } })
  else .refused (.notEnabled .bus)

/-! ## The host's steps (R100 to R110) -/

/-- The trigger sequence (R109). -/
def trigger (address : BitVec 7) (rw : Bool) (s : State) : Result :=
  andThen (emit (.setTx true) s) fun s1 =>
  andThen (emit (if s1.ctx.restartFlag then .restart else .start) s1) fun s2 =>
  emit (.writeData (header address rw)) s2

/-- The set-up of a WRITE transfer (R102, R108). -/
def setupWrite (ns rs : Bool) (data : List Byte) (s : State) : State :=
  { s with ctx := { s.ctx with
      txBuffer := s.ctx.txBuffer.copyIn 0 data, direction := .write, txLength := lenByte data, txCounter := 0,
      noStopFlag := ns, restartFlag := rs, step := .headerSent } }

/-- The set-up of a READ transfer (R103, R108). -/
def setupRead (rs : Bool) (len : Byte) (s : State) : State :=
  { s with ctx := { s.ctx with
      direction := .read, rxLength := len, rxCounter := 0, noStopFlag := false, restartFlag := rs,
      step := .headerSent } }

/-- `host.cmd <- cmd; host.sub <- 1; host.phase <- SPIN` (R100). -/
def beginSpin (cmd : Command) (s : State) : State :=
  { s with host := { s.host with cmd := cmd, sub := .first, phase := .spin, spins := 0 } }

/-- The part of `HOST.issue` the four transfer commands share: the checks, then the set-up, then the trigger of
the first transfer, whose direction bit on the wire is `rw` (R100, R110). -/
def issue (cmd : Command) (addr : Byte) (lengthIsOk : Bool) (rs rw : Bool) (setup : State → State) (s : State) :
    Result :=
  match acceptance addr lengthIsOk rs s with
  | some r => .refused r
  | none => andThen (trigger (slaveAddress addr) rw (setup s)) fun t => .next (beginSpin cmd t)

/-- The host's response: the result, back to IDLE, and `host.sub` 1, since no transfer of a MEMREAD is in progress any
more (R24, R65, R100). DESIGN CHOICE: `host.cmd` keeps what it holds (log entry 10). -/
def respond (packet : List Byte) (s : State) : Result :=
  .next { s with host := { s.host with result := some packet, phase := .idle, sub := .first } }

/-! ## The shape of a sequencer step (R80) -/

/-- A sequencer step that runs the case whose key is `key` and whose extra condition is `cond` (R70, R80): an
event must be pending; the well-formedness check comes before everything; then the case must be the selected one;
CLR_EVENT is its first port operation. -/
def seqCase (key : BitVec 6) (cond : Bool) (body : State → Result) (s : State) : Result :=
  if s.port.evFlag = false then .refused (.notEnabled .seq)
  else if s.ctx.wf s.cfg.cap = false then .fault .illFormedContext
  else if s.key = key ∧ cond = true then andThen (emit .clrEvent s) body
  else .refused .notSelected

/-- The transmit sub-path (R83, R85): the next byte to the port, the counter, and DATA_SENT when the counter has
reached the length (equality after the increment). -/
def sendNext (s : State) : Result :=
  atIndex s.ctx.txCounter.toNat s <|
  andThen (emit (.writeData (s.ctx.txBuffer.read s.ctx.txCounter.toNat)) s) fun t =>
  .next { t with ctx := { t.ctx with
    txCounter := t.ctx.txCounter + 1,
    step := if t.ctx.txCounter + 1 = t.ctx.txLength then .dataSent else t.ctx.step } }

/-- READ_DATA with its byte stored: `v <- emit READ_DATA; RxWrite(rxCounter, v); rxCounter <- rxCounter + 1`
(R86, R87). -/
def storeReceived (s : State) : Result :=
  atIndex s.ctx.rxCounter.toNat s <|
  andThen (emit .readData s) fun t =>
  .next { t with ctx := { t.ctx with
    rxBuffer := t.ctx.rxBuffer.write t.ctx.rxCounter.toNat s.port.dataReg,
    rxCounter := t.ctx.rxCounter + 1 } }

/-- STOP at the successful end of a transfer, unless `noStopFlag` is set (R18, R87, R88). -/
def stopUnlessHeld (s : State) : Result :=
  if s.ctx.noStopFlag then .next s else emit .stop s

end Sys2Proof.Machine
end

