-- ==== Sys2Proof/Machine/Commands.lean ====
section
/-! DEFINITION. The host commands (R101 to R105, R111) and the reserved patterns (R67): what `HOST.issue` does,
and `HOST.poll` and `HOST.complete` (R100). -/

namespace Sys2Proof.Machine

open Sys2Proof

/-! ## HOST.issue -/

/-- INIT (R101): refused only when the host is busy; it touches neither the port nor `direction` nor a buffer. It
responds at once. -/
def execInit (s : State) : Result :=
  if s.host.phase = .idle then
    respond [statusByte .ready] { s with
      ctx := { s.ctx with
        step := .ready, initialised := true, txLength := 0, txCounter := 0, rxLength := 0, rxCounter := 0,
        noStopFlag := false, restartFlag := false } }
  else .refused .hostBusy

/-- WRITE (R102). -/
def execWrite (ns rs : Bool) (addr : Byte) (data : List Byte) (s : State) : Result :=
  issue (writeCommand ns rs addr data) addr (lengthOk s.cfg.cap data.length) rs false (setupWrite ns rs data) s

/-- READ (R103). -/
def execRead (rs : Bool) (addr len : Byte) (s : State) : Result :=
  issue (readCommand rs addr len) addr (lengthOk s.cfg.cap len.toNat) rs true (setupRead rs len) s

/-- MEMREAD (R104): the first transfer is WRITE.NS of the memory address; the length of the second is checked
here. -/
def execMemread (addr maddr len : Byte) (s : State) : Result :=
  issue (memreadCommand addr maddr len) addr (lengthOk s.cfg.cap len.toNat) false false
    (setupWrite true false [maddr]) s

/-- MEMWRITE (R105): WRITE of the memory address followed by the data; the combined length is evaluated in
unbounded naturals (R57). -/
def execMemwrite (addr maddr : Byte) (data : List Byte) (s : State) : Result :=
  issue (memwriteCommand addr maddr data) addr (lengthOk s.cfg.cap (data.length + 1)) false false
    (setupWrite false false (maddr :: data)) s

/-! ## Reserved commands: refused whatever the state (R67, R110 check 2, R111, R112) -/

/-- The refusal of a reserved command (R67). -/
def refuseReserved : Result := .refused .reservedEncoding

/-- WRITE_THEN_READ: no meaning may be given to it (R111). -/
def execWriteThenRead (_ns _rs : Bool) (_ops : List Byte) (_s : State) : Result := refuseReserved

/-- `op` 6 and 7 (R67). -/
def execReservedOp67 (_low _ns _rs : Bool) (_ops : List Byte) (_s : State) : Result := refuseReserved

/-- Bit 7 set (R67). -/
def execReservedZero7 (_low : BitVec 7) (_ops : List Byte) (_s : State) : Result := refuseReserved

/-- Bits 7:6 = 01 (R67). -/
def execReservedZero6 (_low : BitVec 6) (_ops : List Byte) (_s : State) : Result := refuseReserved

/-- Bits 7:5 = 001 (R67). -/
def execReservedZero5 (_low : BitVec 5) (_ops : List Byte) (_s : State) : Result := refuseReserved

/-- INIT with `NS` armed (R67). -/
def execReservedInitNs (_rs : Bool) (_ops : List Byte) (_s : State) : Result := refuseReserved

/-- INIT with `RS` armed (R67). -/
def execReservedInitRs (_ops : List Byte) (_s : State) : Result := refuseReserved

/-- READ with `NS` armed (R67, R174). -/
def execReservedReadNs (_rs : Bool) (_ops : List Byte) (_s : State) : Result := refuseReserved

/-- MEMREAD with `NS` armed (R67). -/
def execReservedMemreadNs (_rs : Bool) (_ops : List Byte) (_s : State) : Result := refuseReserved

/-- MEMREAD with `RS` armed (R67). -/
def execReservedMemreadRs (_ops : List Byte) (_s : State) : Result := refuseReserved

/-- MEMWRITE with `NS` armed (R67). -/
def execReservedMemwriteNs (_rs : Bool) (_ops : List Byte) (_s : State) : Result := refuseReserved

/-- MEMWRITE with `RS` armed (R67). -/
def execReservedMemwriteRs (_ops : List Byte) (_s : State) : Result := refuseReserved

/-! ## HOST.poll and HOST.complete -/

/-- HOST.poll (R106): one turn of the busy-wait, which changes nothing. Under a `SPIN_LIMIT` the turns are counted
and the machine stops when they are used up, since the spec defines nothing for that case (D29, log entry 7). -/
def hostPoll (s : State) : Result :=
  match s.cfg.spinLimit with
  | none => .next s
  | some n =>
    if s.host.spins < n then .next { s with host := { s.host with spins := s.host.spins + 1 } }
    else .fault .spinLimitReached

/-- The completion of WRITE and MEMWRITE (R102, R105): the status byte. -/
def completeWrite (s : State) : Result := respond [statusByte s.ctx.step] s

/-- The completion of a READ transfer (R43, R103): on READY the status and the received bytes; on ERROR the status
alone, nothing is copied. A copy-out past CAP-1, which no accepted command asks for, is the fault of R47. -/
def completeRead (s : State) : Result :=
  if s.ctx.step = .ready then
    if s.host.cmd.length.toNat ≤ s.cfg.cap then
      respond (statusByte .ready :: s.ctx.rxBuffer.copyOut s.host.cmd.length.toNat) s
    else .fault .illFormedContext
  else respond [statusByte .error] s

/-- The completion of MEMREAD's first transfer (R104): on ERROR the status at once, with `noStopFlag` left as it
is; otherwise the flags, the set-up of the READ transfer and its trigger, in this same step (D32). -/
def completeMemreadFirst (s : State) : Result :=
  if s.ctx.step = .error then respond [statusByte .error] s
  else
    andThen (trigger s.host.cmd.address true (setupRead true s.host.cmd.length s)) fun t =>
    .next { t with host := { t.host with sub := .second, spins := 0 } }

/-- The completion of MEMREAD's second transfer (R104): `restartFlag` is cleared before the response. -/
def completeMemreadSecond (s : State) : Result :=
  completeRead { s with ctx := { s.ctx with restartFlag := false } }

/-- HOST.complete (R100, R102 to R105). -/
def hostComplete (s : State) : Result :=
  match s.host.cmd.op with
  | .write => completeWrite s
  | .memwrite => completeWrite s
  | .read => completeRead s
  | .memread =>
    match s.host.sub with
    | .first => completeMemreadFirst s
    | .second => completeMemreadSecond s

/-- The host's own step, in its spin: poll while `step > READY`, else complete (R100). -/
def hostTurn (s : State) : Result :=
  if s.host.phase = .idle then .refused (.notEnabled .host)
  else if inTransfer s.ctx.step then hostPoll s
  else hostComplete s

end Sys2Proof.Machine
end

