-- ==== Sys2Proof/Machine/PortOps.lean ====
section
/-! DEFINITION. The port operations as instructions of their own (R120 to R128): each is one `emit`. A host or a
sequencer step performs them in this way, and a test harness may perform one directly (R131). -/

namespace Sys2Proof.Machine

open Sys2Proof

/-- CLR_EVENT (R121). -/
def execClrEvent (s : State) : Result := emit .clrEvent s

/-- START (R122). -/
def execStart (s : State) : Result := emit .start s

/-- RESTART (R123). -/
def execRestart (s : State) : Result := emit .restart s

/-- STOP (R124). -/
def execStop (s : State) : Result := emit .stop s

/-- SET_TX (R125). -/
def execSetTx (b : Bool) (s : State) : Result := emit (.setTx b) s

/-- SET_ACK (R126). -/
def execSetAck (a : Bool) (s : State) : Result := emit (.setAck a) s

/-- WRITE_DATA (R127). -/
def execWriteData (v : Byte) (s : State) : Result := emit (.writeData v) s

/-- READ_DATA (R128): performed alone, the byte it returns is bound to nothing. -/
def execReadData (s : State) : Result := emit .readData s

end Sys2Proof.Machine
end

