-- ==== Sys2Proof/Machine/Sequencer.lean ====
section
/-! DEFINITION. The cases of the sequencer's step (R81 to R89) and the keys that select none (R71, R92). Each is
`seqCase` with the case's key, its extra condition and its pseudocode. -/

namespace Sys2Proof.Machine

open Sys2Proof

/-- EV.ARBL (R81, R141): any step, any direction, any `nack`; the STOP is forced. -/
def execEvArbl (nack : Bool) (step : Step) (dir : Direction) (s : State) : Result :=
  seqCase (eventKey true nack step dir) true raiseBusError s

/-- EV.NACK on the address byte (R82, R142). -/
def execEvNackHeader (dir : Direction) (s : State) : Result :=
  seqCase (eventKey false true .headerSent dir) true raiseBusError s

/-- EV.NACK on a data byte of a WRITE (R82, R142). -/
def execEvNackData (s : State) : Result :=
  seqCase (eventKey false true .dataTransmission .write) true raiseBusError s

/-- EV.NACK on the last data byte of a WRITE (R82, R142). -/
def execEvNackSent (s : State) : Result :=
  seqCase (eventKey false true .dataSent .write) true raiseBusError s

/-- EV.HDR_W (R83). -/
def execEvHdrW (s : State) : Result :=
  seqCase (eventKey false false .headerSent .write) true
    (fun t => sendNext { t with ctx := { t.ctx with step := .dataTransmission } }) s

/-- EV.HDR_R (R84): the dummy read's byte is discarded. -/
def execEvHdrR (s : State) : Result :=
  seqCase (eventKey false false .headerSent .read) true
    (fun t =>
      andThen (emit (.setTx false) t) fun t1 =>
      andThen (emit (.setAck (t1.ctx.rxLength = 1)) t1) fun t2 =>
      andThen (emit .readData t2) fun t3 =>
      .next { t3 with ctx := { t3.ctx with step := .dataTransmission } }) s

/-- EV.TX (R85). -/
def execEvTx (s : State) : Result :=
  seqCase (eventKey false false .dataTransmission .write) true sendNext s

/-- EV.RX_MORE (R86): `rem >= 2`; NACK is set one byte early, when `rem` = 2. -/
def execEvRxMore (nack : Bool) (s : State) : Result :=
  seqCase (eventKey false nack .dataTransmission .read) (2 ≤ s.ctx.rem.toNat)
    (fun t => andThen (emit (.setAck (t.ctx.rem.toNat = 2)) t) storeReceived) s

/-- EV.RX_LAST (R87): `rem` = 1; STOP, unless held, comes before the last read (R170). -/
def execEvRxLast (nack : Bool) (s : State) : Result :=
  seqCase (eventKey false nack .dataTransmission .read) (s.ctx.rem.toNat = 1)
    (fun t =>
      andThen (stopUnlessHeld t) fun t1 =>
      andThen (storeReceived t1) fun t2 =>
      .next { t2 with ctx := { t2.ctx with step := .ready } }) s

/-- EV.SENT (R88): receive mode, then STOP unless held, then READY. -/
def execEvSent (s : State) : Result :=
  seqCase (eventKey false false .dataSent .write) true
    (fun t =>
      andThen (emit (.setTx false) t) fun t1 =>
      andThen (stopUnlessHeld t1) fun t2 =>
      .next { t2 with ctx := { t2.ctx with step := .ready } }) s

/-- EV.IDLE (R89): nothing after the CLR_EVENT. -/
def execEvIdle (nack ready : Bool) (dir : Direction) (s : State) : Result :=
  seqCase (eventKey false nack (if ready then .ready else .error) dir) true (fun t => .next t) s

/-- EV.ILLEGAL, DATA_SENT with direction READ: no well-formed context has this key; the event is a fault
(R71, R92). -/
def execEvIllegalSentRead (_nack : Bool) (_s : State) : Result := .fault .illFormedContext

/-- EV.ILLEGAL, step code 5 (R71, R92). -/
def execEvIllegalCode5 (_nack : Bool) (_dir : Direction) (_s : State) : Result := .fault .illFormedContext

/-- EV.ILLEGAL, step codes 6 and 7 (R71, R92). -/
def execEvIllegalCode67 (_nack _low : Bool) (_dir : Direction) (_s : State) : Result := .fault .illFormedContext

end Sys2Proof.Machine
end

