-- ==== Sys2Proof/Machine/Wire.lean ====
section
/-! DEFINITION. The wire symbols as instructions (R73): each is what the rule its row cites does on the wire.
T and R are the bus's steps (R129, R130), S, Sr and P the conditions of R122 to R124 without the port symbol that
`emit` adds (R120; log entry 9). -/

namespace Sys2Proof.Machine

open Sys2Proof

/-- S: a START condition appears (R122). -/
def execWireS (s : State) : Result := startCondition s

/-- Sr: a RESTART condition appears (R123). -/
def execWireSr (s : State) : Result := restartCondition s

/-- P: a STOP condition appears, if the bus is owned (R124). -/
def execWireP (s : State) : Result := stopCondition s

/-- T(v, a): BUS.complete of the transmitted byte `v` (R129). -/
def execWireT (v : Byte) (a : Bool) (s : State) : Result := completeTransmit v a s

/-- R(v, a): BUS.complete of a received byte `v` (R130). -/
def execWireR (v : Byte) (a : Bool) (s : State) : Result := completeReceive v a s

end Sys2Proof.Machine
end

