-- ==== Sys2Proof/Machine/Dispatch.lean ====
section
/-! DEFINITION. What each instruction does: one arm per constructor, each one call of its meaning. -/

namespace Sys2Proof.Machine

open Sys2Proof

def exec (i : Instr) (s : State) : Host.Outcome State Fault Refusal :=
  match i with
  -- Format C, the host commands
  | .init => Sys2Proof.Machine.execInit s
  | .write ns rs addr data => Sys2Proof.Machine.execWrite ns rs addr data s
  | .read rs addr len => Sys2Proof.Machine.execRead rs addr len s
  | .memread addr maddr len => Sys2Proof.Machine.execMemread addr maddr len s
  | .memwrite addr maddr data => Sys2Proof.Machine.execMemwrite addr maddr data s
  -- Format C, the reserved patterns
  | .writeThenRead ns rs ops => Sys2Proof.Machine.execWriteThenRead ns rs ops s
  | .reservedOp67 low ns rs ops => Sys2Proof.Machine.execReservedOp67 low ns rs ops s
  | .reservedZero7 low ops => Sys2Proof.Machine.execReservedZero7 low ops s
  | .reservedZero6 low ops => Sys2Proof.Machine.execReservedZero6 low ops s
  | .reservedZero5 low ops => Sys2Proof.Machine.execReservedZero5 low ops s
  | .reservedInitNs rs ops => Sys2Proof.Machine.execReservedInitNs rs ops s
  | .reservedInitRs ops => Sys2Proof.Machine.execReservedInitRs ops s
  | .reservedReadNs rs ops => Sys2Proof.Machine.execReservedReadNs rs ops s
  | .reservedMemreadNs rs ops => Sys2Proof.Machine.execReservedMemreadNs rs ops s
  | .reservedMemreadRs ops => Sys2Proof.Machine.execReservedMemreadRs ops s
  | .reservedMemwriteNs rs ops => Sys2Proof.Machine.execReservedMemwriteNs rs ops s
  | .reservedMemwriteRs ops => Sys2Proof.Machine.execReservedMemwriteRs ops s
  -- Format EV, the sequencer's cases
  | .evArbl nack step dir => Sys2Proof.Machine.execEvArbl nack step dir s
  | .evNackHeader dir => Sys2Proof.Machine.execEvNackHeader dir s
  | .evNackData => Sys2Proof.Machine.execEvNackData s
  | .evNackSent => Sys2Proof.Machine.execEvNackSent s
  | .evHdrW => Sys2Proof.Machine.execEvHdrW s
  | .evHdrR => Sys2Proof.Machine.execEvHdrR s
  | .evTx => Sys2Proof.Machine.execEvTx s
  | .evRxMore nack => Sys2Proof.Machine.execEvRxMore nack s
  | .evRxLast nack => Sys2Proof.Machine.execEvRxLast nack s
  | .evSent => Sys2Proof.Machine.execEvSent s
  | .evIdle nack ready dir => Sys2Proof.Machine.execEvIdle nack ready dir s
  | .evIllegalSentRead nack => Sys2Proof.Machine.execEvIllegalSentRead nack s
  | .evIllegalCode5 nack dir => Sys2Proof.Machine.execEvIllegalCode5 nack dir s
  | .evIllegalCode67 nack low dir => Sys2Proof.Machine.execEvIllegalCode67 nack low dir s
  -- Format P, the port operations
  | .clrEvent => Sys2Proof.Machine.execClrEvent s
  | .start => Sys2Proof.Machine.execStart s
  | .restart => Sys2Proof.Machine.execRestart s
  | .stop => Sys2Proof.Machine.execStop s
  | .setTx b => Sys2Proof.Machine.execSetTx b s
  | .setAck a => Sys2Proof.Machine.execSetAck a s
  | .writeData v => Sys2Proof.Machine.execWriteData v s
  | .readData => Sys2Proof.Machine.execReadData s
  -- Format W, the wire symbols
  | .wireS => Sys2Proof.Machine.execWireS s
  | .wireSr => Sys2Proof.Machine.execWireSr s
  | .wireP => Sys2Proof.Machine.execWireP s
  | .wireT v a => Sys2Proof.Machine.execWireT v a s
  | .wireR v a => Sys2Proof.Machine.execWireR v a s

end Sys2Proof.Machine
end

