-- ==== Sys2Proof/Machine/Agents.lean ====
section
/-! DEFINITION. Who moves and what is fetched: the agents' own steps, the inputs of the outside world, and how a
word of the opcode table is placed where the next step fetches. -/

namespace Sys2Proof.Machine

open Sys2Proof

/-- An input that decodes to an instruction runs it; one that does not is refused by its reason (R72, R73, R110
check 1), and an event key without a row, which no well-formed context has, is the fault of R92 (R71; log entry
12). -/
def runDecoded (d : Except Reject Instr) (s : State) : Result :=
  match d with
  | .ok i => exec i s
  | .error .malformed => .refused .malformed
  | .error .noEventRow => .fault .illFormedContext
  | .error .notAPortOperation => .refused .undefinedSymbol
  | .error .notAWireSymbol => .refused .undefinedSymbol

/-- The case the sequencer runs next: the row the state's key selects (R69, R70, R80). -/
def fetchEvent (s : State) : Except Reject Instr := decodeEvent s.key s.ctx.rem

/-- The sequencer's step (R80): enabled by a pending event; it fetches its case from the state. -/
def seqTurn (s : State) : Result :=
  if s.port.evFlag then runDecoded (fetchEvent s) s else .refused (.notEnabled .seq)

/-- The bus's step (R129, R130): it completes the byte in flight with the next draw. -/
def busTurn (s : State) : Result :=
  match s.port.inflight with
  | .none => .refused (.notEnabled .bus)
  | .txb v => exec (.wireT v (nextDraw s).nack) s
  | .rxb => exec (.wireR (nextDraw s).byte s.port.ackCtl) s

/-- The step of one agent (R6). -/
def agentTurn (a : Agent) (s : State) : Result :=
  match a with
  | .host => hostTurn s
  | .seq => seqTurn s
  | .bus => busTurn s

/-- The agent that moves when nothing is asked of the machine: the one the free order names if it is enabled, else
an enabled one; none if no agent is (R51, R160; log entry 6). -/
def chosenAgent (s : State) : Option Agent :=
  if agentEnabled s (Config.freeTurn s.freeIndex) then some (Config.freeTurn s.freeIndex)
  else if agentEnabled s .seq then some .seq
  else if agentEnabled s .bus then some .bus
  else if agentEnabled s .host then some .host
  else none

/-- A step in the free order. With no agent enabled there is no step: the machine waits for a command (R160). -/
def freeStep (s : State) : Result :=
  match chosenAgent s with
  | some a => agentTurn a { s with freeIndex := s.freeIndex + 1 }
  | none => .refused (.notEnabled .host)

/-- The next step: the first input, or a step in the free order. The foreground program's next command waits while
the host is in its spin (R106); every other input is taken at once. -/
def runInputs (s : State) : Result :=
  match s.inputs with
  | [] => freeStep s
  | .call bytes :: rest =>
    if s.host.phase = .idle then runDecoded (decodePacket bytes) { s with inputs := rest } else freeStep s
  | .packet bytes :: rest => runDecoded (decodePacket bytes) { s with inputs := rest }
  | .turn a :: rest => agentTurn a { s with inputs := rest }
  | .portOp sym :: rest => runDecoded (decodePort sym) { s with inputs := rest }
  | .wire sym :: rest => runDecoded (decodeWire sym) { s with inputs := rest }

/-- A context in which the sequencer takes an event of a given step and direction: `step` and `direction` as the
key says, and, where the counters do not suit them (R22), counters that do, `rem` being 2 in a READ. -/
def contextAt (cap : Nat) (step : Step) (dir : Direction) (c : Context) : Context :=
  let d : Context := { c with step := step, direction := dir }
  if d.wf cap then d
  else
    { d with
      txLength := 2
      txCounter := match step with | .headerSent => 0 | .dataTransmission => 1 | _ => 2
      rxLength := 2, rxCounter := 0 }

/-- A code placed where the next step fetches. A packet or a symbol becomes the first input. An event is placed in
the registers its key is read from (R69), with the sequencer to move. -/
def placeCode (c : Code) (s : State) : State :=
  match c with
  | .packet bytes => { s with inputs := .packet bytes :: s.inputs }
  | .port sym => { s with inputs := .portOp sym :: s.inputs }
  | .wire sym => { s with inputs := .wire sym :: s.inputs }
  | .event key _ =>
    { s with
      ctx := contextAt s.cfg.cap (Step.ofCode (key.extractLsb' 1 3)) (Direction.ofBit (key.getLsbD 0)) s.ctx
      port := { s.port with arbLost := key.getLsbD 5, rxNack := key.getLsbD 4, evFlag := true }
      inputs := .turn .seq :: s.inputs }

end Sys2Proof.Machine
end

