-- ==== Sys2Proof/Machine/Step.lean ====
section
/-! DEFINITION. One step of the machine, and where it fetches its next instruction. -/

namespace Sys2Proof.Machine

open Sys2Proof

/-- One step: the next input, or an agent's step in the free order (R6, R100). -/
def step (s : State) : Host.Outcome State Fault Refusal := runInputs s

/-- The state with a word of the opcode table placed where the next step fetches (log entry 11). -/
def State.withFetchWord (s : State) (nbits w : Nat) : State := placeCode (tableCode nbits w) s

end Sys2Proof.Machine
end

