-- ==== Sys2Proof/Safety.lean ====
section
/-! DEFINITION. The terms in which statements about runs are made: quiescence and launch premises (R176, R177),
the canonical form of the buffers, the invariant of a machine driven through its command layer, and the runs of a
bus that answers. -/

namespace Sys2Proof.Machine

open Sys2Proof

/-- The capacity is in its legal range, 1 to 255 (R5). -/
def capLegal (cfg : Config) : Prop := 1 ≤ cfg.cap ∧ cfg.cap ≤ 255

/-- Both buffers are in canonical form and list no index outside 0 to CAP-1 (R15, R40). -/
structure BuffersCanonical (s : State) : Prop where
  txForm   : s.ctx.txBuffer.wf
  rxForm   : s.ctx.rxBuffer.wf
  txWithin : s.ctx.txBuffer.within s.cfg.cap
  rxWithin : s.ctx.rxBuffer.within s.cfg.cap

/-- The system is quiescent (R176). -/
def quiescent (s : State) : Prop :=
  s.host.phase = .idle ∧ s.port.evFlag = false ∧ s.port.inflight = .none

/-- The launch premises (a) to (c) of R177 for a command whose flag bit is `rs`, with the host idle and no
transfer open, which is what R110 accepts. -/
def launchReady (rs : Bool) (s : State) : Prop :=
  quiescent s ∧ s.ctx.initialised = true ∧ inTransfer s.ctx.step = false ∧ s.port.mst = rs

/-- The inputs come through the command layer: commands and turns, no operation driven directly. -/
def commandInput : Input → Bool
  | .call _ => true
  | .packet _ => true
  | .turn _ => true
  | .portOp _ => false
  | .wire _ => false

/-- What holds of every state reached through the command layer (R92, R131, R134, R176): with the spec's
`SPIN_LIMIT`, and no port operation or wire symbol still to be driven directly. -/
structure CommandInv (s : State) : Prop where
  /-- R5. -/
  cap : capLegal s.cfg
  /-- R5, D29. -/
  unbounded : s.cfg.spinLimit = none
  /-- R40. -/
  buffers : BuffersCanonical s
  /-- No direct drive is still to come. -/
  commands : s.inputs.all commandInput = true
  /-- Before the first INIT nothing has started (R160, R110 check 6). -/
  fresh : s.ctx.initialised = false →
    s.host.phase = .idle ∧ inTransfer s.ctx.step = false ∧ s.port.mst = false
  /-- R92: no ill-formed context is reached. -/
  wellFormed : s.ctx.wf s.cfg.cap = true
  /-- R17. -/
  counters : s.ctx.txCounter.toNat ≤ s.ctx.txLength.toNat ∧ s.ctx.rxCounter.toNat ≤ s.ctx.rxLength.toNat
  /-- R134. -/
  oneEvent : s.port.evFlag = true → s.port.inflight = .none
  /-- In a terminal step the port is quiescent. -/
  quiet : inTransfer s.ctx.step = false → s.port.evFlag = false ∧ s.port.inflight = .none
  /-- In a transfer the host spins, the bus is owned, and a byte is in flight or an event pending (R176). -/
  active : inTransfer s.ctx.step = true →
    s.host.phase = .spin ∧ s.port.mst = true ∧ (s.port.evFlag = true ∨ s.port.inflight ≠ .none)
  /-- R82 corner case (c): in a transfer, transmit mode is the address phase or a WRITE. -/
  mode : inTransfer s.ctx.step = true →
    (s.port.txMode = true ↔ s.ctx.step = .headerSent ∨ s.ctx.direction = .write)
  /-- R137, R174: no READ transfer is armed with `noStopFlag`. -/
  readStops : inTransfer s.ctx.step = true → s.ctx.direction = .read → s.ctx.noStopFlag = false
  /-- R104: MEMREAD's first transfer is an armed WRITE, and its success leaves the bus owned. -/
  memreadFirst : s.host.phase = .spin → s.host.cmd.op = .memread → s.host.sub = .first →
    s.ctx.direction = .write ∧ s.ctx.noStopFlag = true ∧ (s.ctx.step = .ready → s.port.mst = true)
  /-- R24: outside a MEMREAD `host.sub` is 1. -/
  subOne : s.host.phase = .idle ∨ s.host.cmd.op ≠ .memread → s.host.sub = .first
  /-- R110 check 4: a read under way has a legal length. -/
  readLength : s.host.phase = .spin → (s.host.cmd.op = .read ∨ s.host.cmd.op = .memread) →
    lengthOk s.cfg.cap s.host.cmd.length.toNat = true

/-- One byte on the bus and its event: the bus completes the byte in flight, the sequencer takes the event (R93). -/
def busThenSeq (s : State) : Result := andThen (agentTurn .bus s) (agentTurn .seq)

/-- `n` bytes on the bus, each followed by its sequencer step (R93). -/
def byteRounds : Nat → State → Result
  | 0, s => .next s
  | n + 1, s => andThen (busThenSeq s) (byteRounds n)

/-- The condition a command opens its transfer with (R109). -/
def openingSym (rs : Bool) : WireSym := if rs then .sr else .s

/-- A slave that acknowledges, and no arbitration loss (R136, R177 e). -/
def BusDraw.ack : BusDraw := { nack := false, arbl := false, byte := 0 }

/-- A slave that sends `v`, and no arbitration loss. -/
def BusDraw.rx (v : Byte) : BusDraw := { nack := false, arbl := false, byte := v }

/-! ## The vocabulary of the statements -/

/-- The four formats of the opcode table (R60). -/
inductive Format where
  | c | ev | p | w
  deriving DecidableEq, Repr

/-- The format of an instruction. -/
def formatOf : Instr → Format
  | .init | .write .. | .read .. | .memread .. | .memwrite .. | .writeThenRead .. | .reservedOp67 ..
  | .reservedZero7 .. | .reservedZero6 .. | .reservedZero5 .. | .reservedInitNs .. | .reservedInitRs ..
  | .reservedReadNs .. | .reservedMemreadNs .. | .reservedMemreadRs .. | .reservedMemwriteNs ..
  | .reservedMemwriteRs .. => .c
  | .evArbl .. | .evNackHeader .. | .evNackData | .evNackSent | .evHdrW | .evHdrR | .evTx | .evRxMore ..
  | .evRxLast .. | .evSent | .evIdle .. | .evIllegalSentRead .. | .evIllegalCode5 .. | .evIllegalCode67 .. => .ev
  | .clrEvent | .start | .restart | .stop | .setTx .. | .setAck .. | .writeData .. | .readData => .p
  | .wireS | .wireSr | .wireP | .wireT .. | .wireR .. => .w

/-- Whether an instruction is one of EV.ILLEGAL's three rows (R71). -/
def isIllegalEvent : Instr → Bool
  | .evIllegalSentRead .. | .evIllegalCode5 .. | .evIllegalCode67 .. => true
  | _ => false

/-- The cases that hand a data byte of a WRITE to the port (R83, R85). -/
def sendsByte : Instr → Bool
  | .evHdrW | .evTx => true
  | _ => false

/-- The cases that store a received byte (R86, R87), at the index `rxCounter` holds. -/
def storesByte : Instr → Bool
  | .evRxMore .. | .evRxLast .. => true
  | _ => false

/-- An event is pending in a well-formed context (R80, R22). -/
def eventPending (s : State) : Prop := s.port.evFlag = true ∧ s.ctx.wf s.cfg.cap = true

/-- The four parts of the dispatch key (R69): the event `ev(arbl, nack)`, `step` and `direction`. -/
def keyIs (arbl nack : Bool) (step : Step) (dir : Direction) (s : State) : Prop :=
  s.port.arbLost = arbl ∧ s.port.rxNack = nack ∧ s.ctx.step = step ∧ s.ctx.direction = dir

/-- The state after a sequencer step: a context, a port, the port operations after CLR_EVENT, and the wire
symbols; nothing else of `s` has changed. -/
def afterEvent (s : State) (ctx : Context) (port : Port) (ops : List PortOp) (wire : List WireSym) : State :=
  { s with
    ctx := ctx
    port := port
    trace := { port := s.trace.port ++ .clrEvent :: ops, wire := s.trace.wire ++ wire } }

/-- The state after a command is issued: its transfer's context, the port with the address byte `hdr` in flight,
the trigger's port operations, the opening condition on the wire, and the host in its spin (R100, R109); `spins` is
the model's own (log entry 7). -/
def afterIssue (s : State) (ctx : Context) (cmd : Command) (rs : Bool) (hdr : Byte) : State :=
  { s with
    ctx := ctx
    port := { s.port with mst := true, txMode := true, dataReg := hdr, inflight := .txb hdr }
    trace :=
      { port := s.trace.port ++ [.setTx true, if rs then .restart else .start, .writeData hdr]
        wire := s.trace.wire ++ [openingSym rs] }
    host := { s.host with cmd := cmd, sub := .first, phase := .spin, spins := 0 } }

/-- The table of R110's checks 3 to 9: whether each fails, and its reason. -/
def acceptanceTable (addr : Byte) (minLen maxLen len : Nat) (rs : Bool) (s : State) : List (Bool × Refusal) :=
  [ (decide (128 ≤ addr.toNat), .badAddress),
    (decide (len < minLen ∨ maxLen < len), .badLength),
    (decide (s.host.phase ≠ .idle), .hostBusy),
    (decide (s.ctx.initialised = false), .notInitialised),
    (decide (s.ctx.step ≠ .error ∧ s.ctx.step ≠ .ready), .transferInFlight),
    (decide (s.port.inflight ≠ .none ∨ s.port.evFlag = true), .portNotQuiescent),
    (decide (s.port.mst ≠ rs), .busOwnershipMismatch) ]

/-- The reason of the first check that fails. -/
def firstFailing (checks : List (Bool × Refusal)) : Option Refusal :=
  match checks with
  | [] => none
  | (fails, reason) :: rest => if fails then some reason else firstFailing rest

/-- The arrows of R91: what an instruction that runs in `c` may make of `step`. -/
def stepArrow (i : Instr) (c : Context) (dest : Step) : Prop :=
  match i with
  | .init => dest = .ready
  | .write .. | .read .. | .memread .. | .memwrite .. => (c.step = .error ∨ c.step = .ready) ∧ dest = .headerSent
  | .evArbl .. => dest = .error
  | .evNackHeader .. => c.step = .headerSent ∧ dest = .error
  | .evNackData => c.step = .dataTransmission ∧ c.direction = .write ∧ dest = .error
  | .evNackSent => c.step = .dataSent ∧ dest = .error
  | .evHdrW => c.step = .headerSent ∧ c.direction = .write ∧
      (2 ≤ c.txLength.toNat ∧ dest = .dataTransmission ∨ c.txLength.toNat = 1 ∧ dest = .dataSent)
  | .evHdrR => c.step = .headerSent ∧ c.direction = .read ∧ dest = .dataTransmission
  | .evTx => c.step = .dataTransmission ∧ c.direction = .write ∧
      (c.txCounter.toNat + 1 < c.txLength.toNat ∧ dest = .dataTransmission ∨
        c.txCounter.toNat + 1 = c.txLength.toNat ∧ dest = .dataSent)
  | .evRxMore .. => c.step = .dataTransmission ∧ c.direction = .read ∧
      c.rxCounter.toNat + 2 ≤ c.rxLength.toNat ∧ dest = .dataTransmission
  | .evRxLast .. => c.step = .dataTransmission ∧ c.direction = .read ∧
      c.rxCounter.toNat + 1 = c.rxLength.toNat ∧ dest = .ready
  | .evSent => c.step = .dataSent ∧ c.direction = .write ∧ dest = .ready
  | .evIdle .. => (c.step = .error ∨ c.step = .ready) ∧ dest = c.step
  | .clrEvent | .start | .restart | .stop | .setTx .. | .setAck .. | .writeData .. | .readData => dest = c.step
  | .wireS | .wireSr | .wireP | .wireT .. | .wireR .. => dest = c.step
  | _ => False

end Sys2Proof.Machine
end

