-- ==== Sys2Proof/Certificates/Slice0/Obligations.lean ====
section
/-! DEFINITION. The statements about the model. Each docstring names the rules of the spec it formalises; where a
clause rests on a choice of the model, it names the log entry. -/

open Sys2Proof
open Sys2Proof.Machine

/-! ## Reset, fetch and decode -/

/-- R160, R35: after a hardware reset the port is idle, the host is IDLE with no result, both traces are empty, and no
agent has an enabled step until a command is issued. The model's choices: that no INIT has run is its field
`initialised` (log entry 1), and an agent without a step answers the refusal notEnabled (log entry 8), a reason
outside the list of R112. -/
def Obligations.ResetIsIdleAndUninitialised : Prop :=
  State.reset.port.mst = false ∧ State.reset.port.txMode = false ∧ State.reset.port.ackCtl = false ∧
  State.reset.port.evFlag = false ∧ State.reset.port.arbLost = false ∧ State.reset.port.rxNack = false ∧
  State.reset.port.inflight = .none ∧
  State.reset.host.phase = .idle ∧ State.reset.host.result = none ∧
  State.reset.trace.port = [] ∧ State.reset.trace.wire = [] ∧
  State.reset.ctx.initialised = false ∧
  ∀ a, agentEnabled State.reset a = false ∧ agentTurn a State.reset = .refused (.notEnabled a)

/-- R66, R70, R72, R73: words written out from the tables decode to what they stand for. -/
def Obligations.HandWrittenWordsDecode : Prop :=
  decode (.packet [0x00#8]) = .ok .init ∧
  decode (.packet [0x19#8, 0x50#8, 0x02#8, 0x10#8, 0xAA#8]) = .ok (.write true true 0x50#8 [0x10#8, 0xAA#8]) ∧
  decode (.packet [0x12#8, 0x50#8, 0x02#8]) = .ok (.read true 0x50#8 0x02#8) ∧
  decode (.packet [0x03#8, 0x50#8, 0x10#8, 0x01#8]) = .ok (.memread 0x50#8 0x10#8 0x01#8) ∧
  decode (.event 0b000101#6 0) = .ok .evHdrW ∧
  decode (.event 0b010110#6 1) = .ok (.evRxLast true) ∧
  decode (.port 0x501#12) = .ok (.setAck true) ∧
  decode (.port 0x6A0#12) = .ok (.writeData 0xA0#8) ∧
  decode (.wire 0x5142#16) = .ok (.wireR 0x42#8 true)

/-- R61 to R73: decoding the code of a well-formed instruction gives the instruction back, for every row of the
opcode table and every operand value the encoding admits. -/
def Obligations.DecodeOfEncodeIsIdentity : Prop :=
  ∀ i : Instr, i.wf = true → decode (encode i) = .ok i

/-- R61 to R67: a packet that decodes is the code of the well-formed instruction it decodes to, so no byte of a
packet is dropped. -/
def Obligations.DecodedPacketEncodesBack : Prop :=
  ∀ (bytes : List Byte) (i : Instr),
    decodePacket bytes = .ok i → i.wf = true ∧ formatOf i = .c ∧ encode i = .packet bytes

/-- R69 to R73: a key or a symbol that decodes is the code of the instruction it decodes to. -/
def Obligations.DecodedSymbolEncodesBack : Prop :=
  (∀ (sym : BitVec 12) (i : Instr), decodePort sym = .ok i → formatOf i = .p ∧ encode i = .port sym) ∧
  (∀ (sym : BitVec 16) (i : Instr), decodeWire sym = .ok i → formatOf i = .w ∧ encode i = .wire sym) ∧
  (∀ (key : BitVec 6) (rem : Byte) (i : Instr), decodeEvent key rem = .ok i →
    formatOf i = .ev ∧ ∃ rem' : Byte, encode i = .event key rem')

/-- R62, R110 check 1: a packet is refused `Malformed` exactly when it is empty or its operand bytes are not as
many as its `op` computes. -/
def Obligations.MalformedExactlyWhenTheLengthIsWrong : Prop :=
  ∀ (s : State) (bytes : List Byte) (rest : List Input), s.inputs = .packet bytes :: rest →
    (step s = .refused .malformed ↔
      bytes = [] ∨ ∃ b0 ops, bytes = b0 :: ops ∧ operandsFit (b0.extractLsb' 0 3) ops = false)

/-- R67, R111, R110 check 2: a packet of the right length whose byte 0 is not selected by rows 0 to 4 of R66 is
refused `ReservedEncoding`, in every state. -/
def Obligations.UnselectedByteZeroIsReserved : Prop :=
  ∀ (s : State) (b0 : Byte) (ops : List Byte) (rest : List Input),
    s.inputs = .packet (b0 :: ops) :: rest → operandsFit (b0.extractLsb' 0 3) ops = true →
    b0 &&& 0xFF#8 ≠ 0x00#8 → b0 &&& 0xE7#8 ≠ 0x01#8 → b0 &&& 0xEF#8 ≠ 0x02#8 →
    b0 &&& 0xFF#8 ≠ 0x03#8 → b0 &&& 0xFF#8 ≠ 0x04#8 →
    step s = .refused .reservedEncoding

/-- R67, R111, R71, R92: whatever the state and their operands, the reserved commands are refused
`ReservedEncoding`, and the keys that select no row are the fault `IllFormedContext`. That the three EV.ILLEGAL rows
fault in every state, with no event pending or a well-formed context too, is the model's reading (log entry 8): R71 and
R92 say it of an event taken in an ill-formed context. -/
def Obligations.ReservedRowsStop : Prop :=
  ∀ (s : State) (low ns rs nack : Bool) (low7 : BitVec 7) (low6 : BitVec 6) (low5 : BitVec 5) (ops : List Byte)
    (dir : Direction),
    exec (.writeThenRead ns rs ops) s = .refused .reservedEncoding ∧
    exec (.reservedOp67 low ns rs ops) s = .refused .reservedEncoding ∧
    exec (.reservedZero7 low7 ops) s = .refused .reservedEncoding ∧
    exec (.reservedZero6 low6 ops) s = .refused .reservedEncoding ∧
    exec (.reservedZero5 low5 ops) s = .refused .reservedEncoding ∧
    exec (.reservedInitNs rs ops) s = .refused .reservedEncoding ∧
    exec (.reservedInitRs ops) s = .refused .reservedEncoding ∧
    exec (.reservedReadNs rs ops) s = .refused .reservedEncoding ∧
    exec (.reservedMemreadNs rs ops) s = .refused .reservedEncoding ∧
    exec (.reservedMemreadRs ops) s = .refused .reservedEncoding ∧
    exec (.reservedMemwriteNs rs ops) s = .refused .reservedEncoding ∧
    exec (.reservedMemwriteRs ops) s = .refused .reservedEncoding ∧
    exec (.evIllegalSentRead nack) s = .fault .illFormedContext ∧
    exec (.evIllegalCode5 nack dir) s = .fault .illFormedContext ∧
    exec (.evIllegalCode67 nack low dir) s = .fault .illFormedContext

/-- R80, R100, R106, R129, R130: a step takes the first input away and runs the instruction it decodes to; the
sequencer runs the case its key decodes to; the bus runs the symbol of its draw; the foreground program's command
waits while the host spins, an enabled agent moves, and the command stays first. The inputs and the free choice of
that agent are the model's own (log entry 6). -/
def Obligations.StepRunsTheDecodedInstruction : Prop :=
  ∀ (s : State) (rest : List Input) (i : Instr),
    (∀ bytes, s.inputs = .packet bytes :: rest → decodePacket bytes = .ok i →
      step s = exec i { s with inputs := rest }) ∧
    (∀ bytes, s.inputs = .call bytes :: rest → s.host.phase = .idle → decodePacket bytes = .ok i →
      step s = exec i { s with inputs := rest }) ∧
    (∀ bytes, s.inputs = .call bytes :: rest → s.host.phase = .spin →
      ∃ a, agentEnabled s a = true ∧ step s = agentTurn a { s with freeIndex := s.freeIndex + 1 } ∧
        ∀ t, step s = .next t → t.inputs = .call bytes :: rest) ∧
    (∀ sym, s.inputs = .portOp sym :: rest → decodePort sym = .ok i →
      step s = exec i { s with inputs := rest }) ∧
    (∀ sym, s.inputs = .wire sym :: rest → decodeWire sym = .ok i →
      step s = exec i { s with inputs := rest }) ∧
    (s.inputs = .turn .seq :: rest → s.port.evFlag = true →
      decodeEvent (eventKey s.port.arbLost s.port.rxNack s.ctx.step s.ctx.direction)
        (s.ctx.rxLength - s.ctx.rxCounter) = .ok i →
      step s = exec i { s with inputs := rest }) ∧
    (∀ v, s.inputs = .turn .bus :: rest → s.port.inflight = .txb v →
      step s = exec (.wireT v (nextDraw s).nack) { s with inputs := rest }) ∧
    (s.inputs = .turn .bus :: rest → s.port.inflight = .rxb →
      step s = exec (.wireR (nextDraw s).byte s.port.ackCtl) { s with inputs := rest }) ∧
    (s.inputs = .turn .host :: rest → step s = agentTurn .host { s with inputs := rest })

/-- R51, R135, R146, R160: with nothing asked of it, the machine takes a step of an agent that has one, and has no
step when no agent has. Which agent moves is a free value, the model's choice of log entry 6. -/
def Obligations.UnaskedStepIsOfAnEnabledAgent : Prop :=
  ∀ s : State, s.inputs = [] →
    (∃ a, agentEnabled s a = true ∧ step s = agentTurn a { s with freeIndex := s.freeIndex + 1 }) ∨
    ((∀ a, agentEnabled s a = false) ∧ step s = .refused (.notEnabled .host))

/-- A word of a command, port or wire row, placed where the next step fetches, runs as that row's instruction, in
every state and with nothing else changed (the model's fetch, log entry 11). -/
def Obligations.PlacedWordRuns : Prop :=
  ∀ (s : State) (nbits w : Nat) (i : Instr),
    decodeTableWord nbits w = some i → formatOf i ≠ .ev → step (s.withFetchWord nbits w) = exec i s

/-! ## Host commands -/

/-- R101: INIT is accepted whatever the context holds, gives `step`, the four counters and the two flags their
initial values, answers READY, and touches nothing else; a busy host refuses it `HostBusy`. That `step` then holds
a value is R110 check 6, and that `host.sub` is 1 in IDLE is R24. -/
def Obligations.InitResetsTheContextOnly : Prop :=
  ∀ s : State,
    (s.host.phase = .idle → exec .init s = .next { s with
      ctx := { s.ctx with
        step := .ready, initialised := true, txLength := 0, txCounter := 0, rxLength := 0, rxCounter := 0,
        noStopFlag := false, restartFlag := false }
      host := { s.host with result := some [0x01#8], phase := .idle, sub := .first } }) ∧
    (s.host.phase ≠ .idle → exec .init s = .refused .hostBusy)

/-- R161: INIT is idempotent, and is no hardware reset: it neither releases the bus nor clears a pending event nor
abandons a byte in flight. -/
def Obligations.InitTwiceIsInitOnce : Prop :=
  ∀ s t : State, exec .init s = .next t →
    exec .init t = .next t ∧ t.port = s.port ∧ t.trace = s.trace ∧
    t.ctx.direction = s.ctx.direction ∧ t.ctx.txBuffer = s.ctx.txBuffer ∧ t.ctx.rxBuffer = s.ctx.rxBuffer

/-- R110: each transfer command is refused with the reason of the first check that fails, and goes on to a next
state when none fails. MEMREAD and MEMWRITE count as `RS` = 0, and MEMWRITE's length is 0 to CAP - 1. -/
def Obligations.AcceptanceChecksInOrder : Prop :=
  ∀ (s : State) (ns rs : Bool) (addr maddr len : Byte) (data : List Byte) (i : Instr)
    (checks : List (Bool × Refusal)),
    (i = .write ns rs addr data ∧ checks = acceptanceTable addr 1 s.cfg.cap data.length rs s ∨
      i = .read rs addr len ∧ checks = acceptanceTable addr 1 s.cfg.cap len.toNat rs s ∨
      i = .memread addr maddr len ∧ checks = acceptanceTable addr 1 s.cfg.cap len.toNat false s ∨
      i = .memwrite addr maddr data ∧ checks = acceptanceTable addr 1 s.cfg.cap (data.length + 1) false s) →
    (∀ r, firstFailing checks = some r → exec i s = .refused r) ∧
    (firstFailing checks = none → ∃ t, exec i s = .next t)

/-- R102, R108, R109, R44: an accepted WRITE copies its data in, sets up the context, loads the flags from its own
bits, opens with START or RESTART and hands the address byte with the write bit to the port; nothing else
changes. What `host.cmd` holds for an operand WRITE does not use is the model's choice (log entry 10). -/
def Obligations.WriteIssueStartsTheTransfer : Prop :=
  ∀ (s : State) (ns rs : Bool) (addr : Byte) (data : List Byte),
    launchReady rs s → addr.toNat < 128 → 1 ≤ data.length → data.length ≤ s.cfg.cap →
    exec (.write ns rs addr data) s = .next (afterIssue s
      { s.ctx with
        txBuffer := s.ctx.txBuffer.copyIn 0 data, direction := .write
        txLength := BitVec.ofNat 8 data.length, txCounter := 0, noStopFlag := ns, restartFlag := rs
        step := .headerSent }
      (writeCommand ns rs addr data) rs (addr <<< 1))

/-- R103, R108, R109, R44: an accepted READ sets up the context and hands the address byte with the read bit to the
port; nothing else changes. What `host.cmd` holds for an operand READ does not use is the model's choice (log entry
10). -/
def Obligations.ReadIssueStartsTheTransfer : Prop :=
  ∀ (s : State) (rs : Bool) (addr len : Byte),
    launchReady rs s → addr.toNat < 128 → 1 ≤ len.toNat → len.toNat ≤ s.cfg.cap →
    exec (.read rs addr len) s = .next (afterIssue s
      { s.ctx with
        direction := .read, rxLength := len, rxCounter := 0, noStopFlag := false, restartFlag := rs
        step := .headerSent }
      (readCommand rs addr len) rs (addr <<< 1 ||| 1))

/-- R104: an accepted MEMREAD starts its first transfer, the armed WRITE of the memory address; nothing else
changes. What `host.cmd` holds for an operand MEMREAD does not use is the model's choice (log entry 10). -/
def Obligations.MemreadIssueWritesTheOffset : Prop :=
  ∀ (s : State) (addr maddr len : Byte),
    launchReady false s → addr.toNat < 128 → 1 ≤ len.toNat → len.toNat ≤ s.cfg.cap →
    exec (.memread addr maddr len) s = .next (afterIssue s
      { s.ctx with
        txBuffer := s.ctx.txBuffer.write 0 maddr, direction := .write, txLength := 1, txCounter := 0
        noStopFlag := true, restartFlag := false, step := .headerSent }
      (memreadCommand addr maddr len) false (addr <<< 1))

/-- R105: an accepted MEMWRITE is, in every effect but the command the host holds, the WRITE of the memory address
followed by the data. That `host.cmd` holds a record of MEMWRITE's own is the model's choice (log entry 10): R105 and
R76 say that it is exactly that WRITE. -/
def Obligations.MemwriteIssueIsOneWrite : Prop :=
  ∀ (s : State) (addr maddr : Byte) (data : List Byte),
    launchReady false s → addr.toNat < 128 → data.length + 1 ≤ s.cfg.cap →
    exec (.memwrite addr maddr data) s = .next (afterIssue s
      { s.ctx with
        txBuffer := s.ctx.txBuffer.copyIn 0 (maddr :: data), direction := .write
        txLength := BitVec.ofNat 8 (data.length + 1), txCounter := 0, noStopFlag := false, restartFlag := false
        step := .headerSent }
      (memwriteCommand addr maddr data) false (addr <<< 1)) ∧
    ∃ t, exec (.write false false addr (maddr :: data)) s = .next t ∧
      exec (.memwrite addr maddr data) s =
        .next { t with host := { t.host with cmd := memwriteCommand addr maddr data } }

/-- R42, R46: after a WRITE is issued the transmit buffer holds its data in ascending index from 0, and the entries
at the length and above keep their contents. -/
def Obligations.CopyInFillsFromIndexZero : Prop :=
  ∀ (s t : State) (ns rs : Bool) (addr : Byte) (data : List Byte),
    s.ctx.txBuffer.wf → exec (.write ns rs addr data) s = .next t →
    (∀ (j : Nat) (h : j < data.length), t.ctx.txBuffer.read j = data[j]) ∧
    (∀ j : Nat, data.length ≤ j → t.ctx.txBuffer.read j = s.ctx.txBuffer.read j) ∧
    t.ctx.rxBuffer = s.ctx.rxBuffer

/-- R106: one turn of the busy-wait, with no `SPIN_LIMIT`, reads `step` and changes nothing. -/
def Obligations.PollChangesNothing : Prop :=
  ∀ s : State, s.host.phase = .spin → s.ctx.step ≠ .error → s.ctx.step ≠ .ready → s.cfg.spinLimit = none →
    agentTurn .host s = .next s

/-- R102, R105, R107: WRITE and MEMWRITE complete with the one status byte, 0x01 for READY and 0x00 for ERROR;
`host.sub` is 1 outside a MEMREAD (R24); nothing else changes. -/
def Obligations.WriteCompletionAnswersTheStatus : Prop :=
  ∀ s : State, s.host.phase = .spin → (s.host.cmd.op = .write ∨ s.host.cmd.op = .memwrite) →
    (s.ctx.step = .ready →
      agentTurn .host s = .next { s with host := { s.host with result := some [0x01#8], phase := .idle, sub := .first } }) ∧
    (s.ctx.step = .error →
      agentTurn .host s = .next { s with host := { s.host with result := some [0x00#8], phase := .idle, sub := .first } })

/-- R103, R43: READ completes with 0x01 and the first `length` bytes of the receive buffer, or with 0x00 alone;
`host.sub` is 1 outside a MEMREAD (R24); nothing else changes. -/
def Obligations.ReadCompletionCopiesOut : Prop :=
  ∀ s : State, s.host.phase = .spin → s.host.cmd.op = .read → s.host.cmd.length.toNat ≤ s.cfg.cap →
    (s.ctx.step = .ready →
      agentTurn .host s = .next { s with host := { s.host with
        result := some (0x01#8 :: (List.range s.host.cmd.length.toNat).map s.ctx.rxBuffer.read)
        phase := .idle, sub := .first } }) ∧
    (s.ctx.step = .error →
      agentTurn .host s = .next { s with host := { s.host with result := some [0x00#8], phase := .idle, sub := .first } })

/-- R104, R109, R172: when MEMREAD's first transfer has failed it answers ERROR at once and `noStopFlag` stays as
it is; when it has succeeded, with the bus held, the READ transfer is set up and opened with RESTART in the same
step (with the bus not held the RESTART is a misuse, R123, R131). When the second transfer has ended `restartFlag` is
cleared and the command answers as READ does. With an answer `host.sub` is 1 again (R24). The counter `host.spins` is
the model's own (log entry 7). -/
def Obligations.MemreadCompletionsFollowBothTransfers : Prop :=
  (∀ s : State, s.host.phase = .spin → s.host.cmd.op = .memread → s.host.sub = .first →
    (s.ctx.step = .error →
      agentTurn .host s = .next { s with host := { s.host with result := some [0x00#8], phase := .idle, sub := .first } }) ∧
    (s.ctx.step = .ready → s.port.mst = true → s.port.inflight = .none →
      agentTurn .host s = .next { s with
        ctx := { s.ctx with
          direction := .read, rxLength := s.host.cmd.length, rxCounter := 0, noStopFlag := false
          restartFlag := true, step := .headerSent }
        port := { s.port with
          txMode := true, dataReg := (s.host.cmd.address ++ 1#1 : BitVec 8)
          inflight := .txb (s.host.cmd.address ++ 1#1 : BitVec 8) }
        trace :=
          { port := s.trace.port ++ [.setTx true, .restart, .writeData (s.host.cmd.address ++ 1#1 : BitVec 8)]
            wire := s.trace.wire ++ [.sr] }
        host := { s.host with sub := .second, spins := 0 } }) ∧
    (s.ctx.step = .ready → s.port.mst = false ∨ s.port.inflight ≠ .none →
      agentTurn .host s = .fault (.portMisuse .restartWhileNotOwned))) ∧
  (∀ s : State, s.host.phase = .spin → s.host.cmd.op = .memread → s.host.sub = .second →
    s.host.cmd.length.toNat ≤ s.cfg.cap →
    (s.ctx.step = .ready →
      agentTurn .host s = .next { s with
        ctx := { s.ctx with restartFlag := false }
        host := { s.host with
          result := some (0x01#8 :: (List.range s.host.cmd.length.toNat).map s.ctx.rxBuffer.read)
          phase := .idle, sub := .first } }) ∧
    (s.ctx.step = .error →
      agentTurn .host s = .next { s with
        ctx := { s.ctx with restartFlag := false }
        host := { s.host with result := some [0x00#8], phase := .idle, sub := .first } }))

/-! ## The sequencer -/

/-- R81, R141, R124: an event with arbitration lost, in any step, forces the STOP whatever `noStopFlag` holds and
ends in ERROR; P enters the wire trace if the bus was owned; nothing else changes. -/
def Obligations.ArbitrationLossForcesStopAndError : Prop :=
  ∀ (s : State) (nack : Bool) (stp : Step) (dir : Direction), eventPending s → keyIs true nack stp dir s →
    exec (.evArbl nack stp dir) s = .next (afterEvent s { s.ctx with step := .error }
      { s.port with
        evFlag := false, arbLost := false, mst := false
        inflight := if s.port.mst then .none else s.port.inflight }
      [.stop] (if s.port.mst then [.p] else []))

/-- R82, R142: a byte this master transmitted that was not acknowledged, the address byte of either direction or a
data byte of a WRITE, the last one included, forces the STOP and ends in ERROR; nothing else changes. -/
def Obligations.MissingAcknowledgeForcesStopAndError : Prop :=
  ∀ (s : State) (i : Instr) (stp : Step) (dir : Direction), eventPending s → keyIs false true stp dir s →
    (stp = .headerSent ∧ i = .evNackHeader dir ∨
      stp = .dataTransmission ∧ dir = .write ∧ i = .evNackData ∨
      stp = .dataSent ∧ dir = .write ∧ i = .evNackSent) →
    exec i s = .next (afterEvent s { s.ctx with step := .error }
      { s.port with
        evFlag := false, arbLost := false, mst := false
        inflight := if s.port.mst then .none else s.port.inflight }
      [.stop] (if s.port.mst then [.p] else []))

/-- R83: the acknowledged address byte of a WRITE hands `txBuffer[0]` to the port; the step becomes DATA_SENT when
the length is 1, else DATA_TRANSMISSION; a port that is not transmitting is a misuse (R127, R131). -/
def Obligations.WriteHeaderSendsTheFirstByte : Prop :=
  ∀ s : State, eventPending s → keyIs false false .headerSent .write s →
    (s.port.mst = true → s.port.txMode = true → s.port.inflight = .none →
      exec .evHdrW s = .next (afterEvent s
        { s.ctx with
          txCounter := 1, step := if s.ctx.txLength = 1 then .dataSent else .dataTransmission }
        { s.port with
          evFlag := false, arbLost := false, dataReg := s.ctx.txBuffer.read 0
          inflight := .txb (s.ctx.txBuffer.read 0) }
        [.writeData (s.ctx.txBuffer.read 0)] [])) ∧
    (¬ (s.port.mst = true ∧ s.port.txMode = true ∧ s.port.inflight = .none) →
      exec .evHdrW s = .fault (.portMisuse .writeDataNotTransmitting))

/-- R84: the acknowledged address byte of a READ turns the port to receive mode, sets the acknowledge for data byte
1 (NACK exactly when the length is 1) and, with the bus owned, starts its reception; nothing is stored. With a byte
still in flight it is a misuse (R128, R131). -/
def Obligations.ReadHeaderStartsTheFirstReception : Prop :=
  ∀ s : State, eventPending s → keyIs false false .headerSent .read s →
    (s.port.mst = false ∨ s.port.inflight = .none →
      exec .evHdrR s = .next (afterEvent s { s.ctx with step := .dataTransmission }
        { s.port with
          evFlag := false, arbLost := false, txMode := false, ackCtl := decide (s.ctx.rxLength = 1)
          inflight := if s.port.mst then .rxb else s.port.inflight }
        [.setTx false, .setAck (decide (s.ctx.rxLength = 1)), .readData] [])) ∧
    (s.port.mst = true → s.port.inflight ≠ .none →
      exec .evHdrR s = .fault (.portMisuse .readDataWhileBusy))

/-- R85: an acknowledged data byte with more remaining hands `txBuffer[txCounter]` to the port; the step becomes
DATA_SENT exactly when the counter reaches the length. -/
def Obligations.TransmitSendsTheNextByte : Prop :=
  ∀ s : State, eventPending s → keyIs false false .dataTransmission .write s →
    (s.port.mst = true → s.port.txMode = true → s.port.inflight = .none →
      exec .evTx s = .next (afterEvent s
        { s.ctx with
          txCounter := BitVec.ofNat 8 (s.ctx.txCounter.toNat + 1)
          step := if s.ctx.txCounter.toNat + 1 = s.ctx.txLength.toNat then .dataSent else .dataTransmission }
        { s.port with
          evFlag := false, arbLost := false, dataReg := s.ctx.txBuffer.read s.ctx.txCounter.toNat
          inflight := .txb (s.ctx.txBuffer.read s.ctx.txCounter.toNat) }
        [.writeData (s.ctx.txBuffer.read s.ctx.txCounter.toNat)] [])) ∧
    (¬ (s.port.mst = true ∧ s.port.txMode = true ∧ s.port.inflight = .none) →
      exec .evTx s = .fault (.portMisuse .writeDataNotTransmitting))

/-- R86: a received byte with at least one more expected sets the acknowledge one byte early (NACK exactly when two
bytes are still to store), stores the byte the data register holds at `rxCounter`, and starts the next reception
when the bus is owned in receive mode; the event's `nack` is ignored. -/
def Obligations.ReceiveStoresAndDecidesOneByteEarly : Prop :=
  ∀ (s : State) (nack : Bool), eventPending s → keyIs false nack .dataTransmission .read s →
    s.ctx.rxCounter.toNat + 2 ≤ s.ctx.rxLength.toNat →
    (s.port.mst = false ∨ s.port.txMode = true ∨ s.port.inflight = .none →
      exec (.evRxMore nack) s = .next (afterEvent s
        { s.ctx with
          rxBuffer := s.ctx.rxBuffer.write s.ctx.rxCounter.toNat s.port.dataReg
          rxCounter := BitVec.ofNat 8 (s.ctx.rxCounter.toNat + 1) }
        { s.port with
          evFlag := false, arbLost := false
          ackCtl := decide (s.ctx.rxCounter.toNat + 2 = s.ctx.rxLength.toNat)
          inflight := if s.port.mst = true ∧ s.port.txMode = false then .rxb else s.port.inflight }
        [.setAck (decide (s.ctx.rxCounter.toNat + 2 = s.ctx.rxLength.toNat)), .readData] [])) ∧
    (s.port.mst = true → s.port.txMode = false → s.port.inflight ≠ .none →
      exec (.evRxMore nack) s = .fault (.portMisuse .readDataWhileBusy))

/-- R87, R170, R174: the last byte. With `noStopFlag` clear STOP comes before the read, so no further reception
starts; with it set no STOP is made and a read with the bus owned in receive mode starts one more, which with a byte
still in flight is a misuse (R128, R131). The byte is stored, the step becomes READY, nothing else changes. -/
def Obligations.LastReceiveStopsStoresAndIsReady : Prop :=
  ∀ (s : State) (nack : Bool), eventPending s → keyIs false nack .dataTransmission .read s →
    s.ctx.rxCounter.toNat + 1 = s.ctx.rxLength.toNat →
    (s.ctx.noStopFlag = false →
      exec (.evRxLast nack) s = .next (afterEvent s
        { s.ctx with
          rxBuffer := s.ctx.rxBuffer.write s.ctx.rxCounter.toNat s.port.dataReg
          rxCounter := s.ctx.rxLength, step := .ready }
        { s.port with
          evFlag := false, arbLost := false, mst := false
          inflight := if s.port.mst then .none else s.port.inflight }
        [.stop, .readData] (if s.port.mst then [.p] else []))) ∧
    (s.ctx.noStopFlag = true → s.port.mst = false ∨ s.port.txMode = true ∨ s.port.inflight = .none →
      exec (.evRxLast nack) s = .next (afterEvent s
        { s.ctx with
          rxBuffer := s.ctx.rxBuffer.write s.ctx.rxCounter.toNat s.port.dataReg
          rxCounter := s.ctx.rxLength, step := .ready }
        { s.port with
          evFlag := false, arbLost := false
          inflight := if s.port.mst = true ∧ s.port.txMode = false then .rxb else s.port.inflight }
        [.readData] [])) ∧
    (s.ctx.noStopFlag = true → s.port.mst = true → s.port.txMode = false → s.port.inflight ≠ .none →
      exec (.evRxLast nack) s = .fault (.portMisuse .readDataWhileBusy))

/-- R88: the acknowledged last byte of a WRITE turns the port to receive mode, makes STOP unless `noStopFlag` is
set, and is READY; the flag is read, not cleared, and nothing else changes. -/
def Obligations.SentStopsUnlessHeldAndIsReady : Prop :=
  ∀ s : State, eventPending s → keyIs false false .dataSent .write s →
    (s.ctx.noStopFlag = false →
      exec .evSent s = .next (afterEvent s { s.ctx with step := .ready }
        { s.port with
          evFlag := false, arbLost := false, txMode := false, mst := false
          inflight := if s.port.mst then .none else s.port.inflight }
        [.setTx false, .stop] (if s.port.mst then [.p] else []))) ∧
    (s.ctx.noStopFlag = true →
      exec .evSent s = .next (afterEvent s { s.ctx with step := .ready }
        { s.port with evFlag := false, arbLost := false, txMode := false } [.setTx false] []))

/-- R89: an event without arbitration loss in READY or ERROR is acknowledged and changes nothing else. -/
def Obligations.IdleEventIsOnlyAcknowledged : Prop :=
  ∀ (s : State) (nack ready : Bool) (dir : Direction), eventPending s →
    keyIs false nack (if ready then .ready else .error) dir s →
    exec (.evIdle nack ready dir) s = .next (afterEvent s s.ctx
      { s.port with evFlag := false, arbLost := false } [] [])

/-- R80, R92, R146: the sequencer has no step with no event pending; an event taken in an ill-formed context is the
fault `IllFormedContext`, for every case and even when arbitration was lost, and the step does not happen. That the
missing step answers the refusal notEnabled is the model's reading (log entry 8). -/
def Obligations.SequencerNeedsAnEventAndAWellFormedContext : Prop :=
  ∀ s : State,
    (s.port.evFlag = false →
      agentTurn .seq s = .refused (.notEnabled .seq) ∧
      ∀ i : Instr, formatOf i = .ev → isIllegalEvent i = false → exec i s = .refused (.notEnabled .seq)) ∧
    (s.port.evFlag = true → s.ctx.wf s.cfg.cap = false →
      agentTurn .seq s = .fault .illFormedContext ∧
      ∀ i : Instr, formatOf i = .ev → exec i s = .fault .illFormedContext)

/-- R70, R71, R80: in a well-formed context the key selects exactly one case: the sequencer runs it, it is none of
the illegal rows, it is not refused, and every other case is. The refusal notSelected of the other cases is the
model's reading (log entry 8): R70 and R80 run the one selected case and name no refusal. -/
def Obligations.WellFormedEventSelectsOneCase : Prop :=
  ∀ s : State, eventPending s →
    ∃ i : Instr, formatOf i = .ev ∧ isIllegalEvent i = false ∧ agentTurn .seq s = exec i s ∧
      (∀ r, exec i s ≠ .refused r) ∧
      ∀ j : Instr, formatOf j = .ev → isIllegalEvent j = false → j ≠ i → exec j s = .refused .notSelected

/-- R91, R104: `step` moves only along the arrows of the transition table, whatever instruction runs in whatever
state. On an agent's own turn: the sequencer's moves are arrows of a case; the bus never moves it; the host moves it
only from READY to HEADER_SENT, when it sets up the second transfer of a MEMREAD. -/
def Obligations.StepMovesOnlyAlongTheTable : Prop :=
  (∀ (i : Instr) (s t : State), exec i s = .next t → stepArrow i s.ctx t.ctx.step) ∧
  (∀ s t : State, agentTurn .seq s = .next t → ∃ i, formatOf i = .ev ∧ stepArrow i s.ctx t.ctx.step) ∧
  (∀ s t : State, agentTurn .bus s = .next t → t.ctx.step = s.ctx.step) ∧
  (∀ s t : State, agentTurn .host s = .next t →
    t.ctx.step = s.ctx.step ∨
    s.host.phase = .spin ∧ s.host.cmd.op = .memread ∧ s.host.sub = .first ∧ t.host.sub = .second ∧
      s.ctx.step = .ready ∧ t.ctx.step = .headerSent)

/-- R13, R14: within a transfer a sequencer step never moves `step` backward, and it never changes `direction`. -/
def Obligations.SequencerMovesForward : Prop :=
  ∀ s t : State, agentTurn .seq s = .next t →
    t.ctx.direction = s.ctx.direction ∧
    (t.ctx.step = .error ∨ t.ctx.step = .ready ∨ s.ctx.step.code.toNat ≤ t.ctx.step.code.toNat)

/-- R149, R144: a sequencer step that enters ERROR changes `step`, makes the forced STOP and acknowledges the event,
and changes nothing else: not a counter, a buffer, `direction`, a flag, `txMode` or `ackCtl`. -/
def Obligations.EntryToErrorChangesNothingElse : Prop :=
  ∀ s t : State, agentTurn .seq s = .next t → s.ctx.step ≠ .error → t.ctx.step = .error →
    t = afterEvent s { s.ctx with step := .error }
      { s.port with
        evFlag := false, arbLost := false, mst := false
        inflight := if s.port.mst then .none else s.port.inflight }
      [.stop] (if s.port.mst then [.p] else [])

/-- R153, R21: a sequencer step writes, of the context, only `step`, the counters and the receive buffer: the transmit
counter in EV.HDR_W and EV.TX alone, by one, and the receive counter in EV.RX_MORE and EV.RX_LAST alone, by one; these
two store one byte, at the index the receive counter held, and every other entry reads as before; no other case
changes the receive buffer. It writes nothing of the host, the configuration, the inputs or the draws, and it takes
the event. -/
def Obligations.SequencerWritesOnlyItsOwn : Prop :=
  ∀ (i : Instr) (s t : State), formatOf i = .ev → exec i s = .next t →
    t.ctx = { s.ctx with
      step := t.ctx.step, txCounter := t.ctx.txCounter, rxCounter := t.ctx.rxCounter
      rxBuffer := t.ctx.rxBuffer } ∧
    t.ctx.txCounter = (if sendsByte i then s.ctx.txCounter + 1 else s.ctx.txCounter) ∧
    t.ctx.rxCounter = (if storesByte i then s.ctx.rxCounter + 1 else s.ctx.rxCounter) ∧
    (∀ j : Nat, (storesByte i = true → j ≠ s.ctx.rxCounter.toNat) →
      t.ctx.rxBuffer.read j = s.ctx.rxBuffer.read j) ∧
    (storesByte i = false → t.ctx.rxBuffer = s.ctx.rxBuffer) ∧
    t.host = s.host ∧ t.cfg = s.cfg ∧ t.inputs = s.inputs ∧ t.draws = s.draws ∧ t.freeIndex = s.freeIndex ∧
    t.port.evFlag = false ∧ t.port.arbLost = false ∧ t.port.rxNack = s.port.rxNack

/-- R21: while `step > READY` only the sequencer writes the context, INIT apart: every other instruction, the
host's turn and the bus's turn leave it as it is. -/
def Obligations.OnlyTheSequencerWritesDuringATransfer : Prop :=
  ∀ s t : State, inTransfer s.ctx.step = true →
    (∀ i : Instr, formatOf i ≠ .ev → i ≠ .init → exec i s = .next t → t.ctx = s.ctx) ∧
    (agentTurn .host s = .next t → t.ctx = s.ctx) ∧
    (agentTurn .bus s = .next t → t.ctx = s.ctx)

/-- R90, R169: the acknowledge control set in the step that starts the reception of data byte `k` of a READ of `n`
bytes is NACK exactly when `k = n`: byte 1 at the address event, byte `rxCounter + 2` at a data event. -/
def Obligations.AcknowledgeIsNackExactlyForTheLastByte : Prop :=
  ∀ (s t : State) (nack : Bool),
    (exec .evHdrR s = .next t → (t.port.ackCtl = true ↔ 1 = t.ctx.rxLength.toNat)) ∧
    (exec (.evRxMore nack) s = .next t →
      (t.port.ackCtl = true ↔ s.ctx.rxCounter.toNat + 2 = t.ctx.rxLength.toNat))

/-! ## The port -/

/-- R121, R125, R126: CLR_EVENT clears `evFlag` and `arbLost` and leaves `rxNack`; SET_TX and SET_ACK write their one
control bit; each enters the port trace; nothing else changes. -/
def Obligations.FlagAndControlOperationsAreTotal : Prop :=
  ∀ (s : State) (b : Bool),
    exec .clrEvent s = .next { s with
      port := { s.port with evFlag := false, arbLost := false }
      trace := { s.trace with port := s.trace.port ++ [.clrEvent] } } ∧
    exec (.setTx b) s = .next { s with
      port := { s.port with txMode := b }
      trace := { s.trace with port := s.trace.port ++ [.setTx b] } } ∧
    exec (.setAck b) s = .next { s with
      port := { s.port with ackCtl := b }
      trace := { s.trace with port := s.trace.port ++ [.setAck b] } }

/-- R122: START takes a bus that is not owned, with no byte in flight, and puts S on the wire; else it is the misuse
`StartWhileOwned` (R131). R123: RESTART needs the bus owned with no byte in flight, keeps it, and puts Sr on the
wire; else it is the misuse `RestartWhileNotOwned`. -/
def Obligations.StartTakesAndRestartKeepsTheBus : Prop :=
  ∀ s : State,
    (s.port.mst = false → s.port.inflight = .none →
      exec .start s = .next { s with
        port := { s.port with mst := true }
        trace := { port := s.trace.port ++ [.start], wire := s.trace.wire ++ [.s] } }) ∧
    (s.port.mst = true ∨ s.port.inflight ≠ .none → exec .start s = .fault (.portMisuse .startWhileOwned)) ∧
    (s.port.mst = true → s.port.inflight = .none →
      exec .restart s = .next { s with
        trace := { port := s.trace.port ++ [.restart], wire := s.trace.wire ++ [.sr] } }) ∧
    (s.port.mst = false ∨ s.port.inflight ≠ .none → exec .restart s = .fault (.portMisuse .restartWhileNotOwned))

/-- R124: STOP is total. With the bus owned it releases it, abandons a byte in flight and puts P on the wire;
otherwise only the port trace has it. -/
def Obligations.StopReleasesTheBus : Prop :=
  ∀ s : State,
    (s.port.mst = true →
      exec .stop s = .next { s with
        port := { s.port with mst := false, inflight := .none }
        trace := { port := s.trace.port ++ [.stop], wire := s.trace.wire ++ [.p] } }) ∧
    (s.port.mst = false →
      exec .stop s = .next { s with trace := { s.trace with port := s.trace.port ++ [.stop] } })

/-- R127: WRITE_DATA, with the bus owned in transmit mode and nothing in flight, loads the data register and starts
the byte; else it is the misuse `WriteDataNotTransmitting` (R131). R128: READ_DATA with the bus owned in receive mode
starts a reception, which with a byte in flight is the misuse `ReadDataWhileBusy`; otherwise it has no effect on the
bus; the data register keeps its byte. -/
def Obligations.DataRegisterAccessesStartBytes : Prop :=
  ∀ (s : State) (v : Byte),
    (s.port.mst = true → s.port.txMode = true → s.port.inflight = .none →
      exec (.writeData v) s = .next { s with
        port := { s.port with dataReg := v, inflight := .txb v }
        trace := { s.trace with port := s.trace.port ++ [.writeData v] } }) ∧
    (s.port.mst = false ∨ s.port.txMode = false ∨ s.port.inflight ≠ .none →
      exec (.writeData v) s = .fault (.portMisuse .writeDataNotTransmitting)) ∧
    (s.port.mst = true → s.port.txMode = false → s.port.inflight = .none →
      exec .readData s = .next { s with
        port := { s.port with inflight := .rxb }
        trace := { s.trace with port := s.trace.port ++ [.readData] } }) ∧
    (s.port.mst = false ∨ s.port.txMode = true →
      exec .readData s = .next { s with trace := { s.trace with port := s.trace.port ++ [.readData] } }) ∧
    (s.port.mst = true → s.port.txMode = false → s.port.inflight ≠ .none →
      exec .readData s = .fault (.portMisuse .readDataWhileBusy))

/-- R120, R131: no port operation writes the context or the host or is refused; each appends its one symbol to the
port trace; and what stops it is a port misuse. -/
def Obligations.PortOperationsTouchOnlyThePort : Prop :=
  ∀ (i : Instr) (s : State), formatOf i = .p →
    (∃ (t : State) (op : PortOp), exec i s = .next t ∧ encode i = .port op.symbol ∧
      t.trace.port = s.trace.port ++ [op] ∧ t.ctx = s.ctx ∧ t.host = s.host ∧ t.cfg = s.cfg ∧
      t.inputs = s.inputs ∧ t.draws = s.draws ∧ t.freeIndex = s.freeIndex) ∨
    ∃ m : PortMisuse, exec i s = .fault (.portMisuse m)

/-! ## The bus -/

/-- R129, R136: the bus completes the byte being sent: T(v, nack) on the wire, the slave's answer and the
arbitration draw in the port, the event raised; the draw is whatever the environment draws (log entry 5). With
another byte, or none, in flight the bus has no such step. That the row T runs as this step with the answer its symbol
names is the model's reading (log entry 9), and so is the refusal notEnabled (log entry 8). -/
def Obligations.BusCompletesATransmittedByte : Prop :=
  ∀ (s : State) (v : Byte) (nack : Bool),
    (s.port.inflight = .txb v →
      exec (.wireT v nack) s = .next { afterDraw s with
        port := { s.port with
          rxNack := nack, arbLost := (nextDraw s).arbl, inflight := .none, evFlag := true }
        trace := { s.trace with wire := s.trace.wire ++ [.t v nack] } }) ∧
    (s.port.inflight ≠ .txb v → exec (.wireT v nack) s = .refused (.notEnabled .bus))

/-- R130, R136: the bus completes the byte being received: the byte in the data register, R(v, a) on the wire with
the acknowledge `ackCtl` holds, which `rxNack` echoes, and the event raised; the arbitration draw is the
environment's (log entry 5). With no byte being received, or another acknowledge in `ackCtl`, the bus has no such
step. That the row R runs as this step with the byte its symbol names is the model's reading (log entry 9), and so is
the refusal notEnabled (log entry 8). -/
def Obligations.BusCompletesAReceivedByte : Prop :=
  ∀ (s : State) (v : Byte) (a : Bool),
    (s.port.inflight = .rxb → s.port.ackCtl = a →
      exec (.wireR v a) s = .next { afterDraw s with
        port := { s.port with
          dataReg := v, rxNack := a, arbLost := (nextDraw s).arbl, inflight := .none, evFlag := true }
        trace := { s.trace with wire := s.trace.wire ++ [.r v a] } }) ∧
    (s.port.inflight ≠ .rxb ∨ s.port.ackCtl ≠ a → exec (.wireR v a) s = .refused (.notEnabled .bus))

/-- R122, R123, R124, R131, R73: the conditions on the wire, each with its rule's precondition and effect on the bus
and without a port symbol, and with the misuse of its rule where the precondition fails (that these rows run so is log
entry 9). -/
def Obligations.WireConditionsFollowTheirRules : Prop :=
  ∀ s : State,
    (s.port.mst = false → s.port.inflight = .none →
      exec .wireS s = .next { s with
        port := { s.port with mst := true }, trace := { s.trace with wire := s.trace.wire ++ [.s] } }) ∧
    (s.port.mst = true ∨ s.port.inflight ≠ .none → exec .wireS s = .fault (.portMisuse .startWhileOwned)) ∧
    (s.port.mst = true → s.port.inflight = .none →
      exec .wireSr s = .next { s with trace := { s.trace with wire := s.trace.wire ++ [.sr] } }) ∧
    (s.port.mst = false ∨ s.port.inflight ≠ .none →
      exec .wireSr s = .fault (.portMisuse .restartWhileNotOwned)) ∧
    (s.port.mst = true →
      exec .wireP s = .next { s with
        port := { s.port with mst := false, inflight := .none }
        trace := { s.trace with wire := s.trace.wire ++ [.p] } }) ∧
    (s.port.mst = false → exec .wireP s = .next s)

/-- R33, R145, R135: the bus has a step exactly when a byte is in flight; the step raises the event, puts one symbol
on the wire, and touches neither the context, the host nor the port trace. That the missing step answers the refusal
notEnabled is the model's reading (log entry 8). -/
def Obligations.BusStepRaisesOneEvent : Prop :=
  ∀ s : State,
    (s.port.inflight = .none → agentTurn .bus s = .refused (.notEnabled .bus)) ∧
    (s.port.inflight ≠ .none → ∃ (t : State) (w : WireSym), agentTurn .bus s = .next t ∧
      t.port.evFlag = true ∧ t.port.inflight = .none ∧ t.trace.wire = s.trace.wire ++ [w] ∧
      t.trace.port = s.trace.port ∧ t.ctx = s.ctx ∧ t.host = s.host ∧ t.cfg = s.cfg ∧ t.inputs = s.inputs ∧
      t.port.mst = s.port.mst ∧ t.port.txMode = s.port.txMode ∧ t.port.ackCtl = s.port.ackCtl)

/-! ## Buffers and invariants -/

/-- The state after reset meets both invariants. Of the port, the host and the traces R160 and R35 give the values; of
the context they give none, so that its step, counters and buffers meet the invariants rests on the values the model
names (log entries 1 and 2). -/
def Obligations.ResetMeetsTheInvariants : Prop :=
  BuffersCanonical State.reset ∧ CommandInv State.reset

/-- R15, R40, R47: every step, operations driven directly included, from any state whose buffers are canonical and
inside 0 to CAP-1, leaves them so. -/
def Obligations.StepKeepsTheBuffersCanonical : Prop :=
  ∀ s t : State, BuffersCanonical s → step s = .next t → BuffersCanonical t

/-- R17, R22, R24, R134, R176: every step of a machine driven through its command layer keeps the invariant: the context
well-formed, the counters within their lengths, at most one event or byte pending and never both, the bus owned and
the host spinning during a transfer, and `host.sub` 1 outside a MEMREAD. -/
def Obligations.StepKeepsTheCommandInvariant : Prop :=
  ∀ s t : State, CommandInv s → step s = .next t → CommandInv t

/-- R92, R131: no step of a machine driven through its command layer is a fault: no ill-formed context is met and no
port operation is misused. -/
def Obligations.CommandLayerNeverFaults : Prop :=
  ∀ (s : State) (f : Fault), CommandInv s → step s ≠ .fault f

/-- R176, R134: no deadlock. While the host spins with `step > READY`, exactly one of the sequencer's and the bus's
steps is enabled, and it goes on; with `step <= READY` the host completes. -/
def Obligations.SpinningHostIsNeverStuck : Prop :=
  ∀ s : State, CommandInv s → s.host.phase = .spin →
    (inTransfer s.ctx.step = true →
      s.port.evFlag = true ∧ s.port.inflight = .none ∧ (∃ t, agentTurn .seq s = .next t) ∨
      s.port.evFlag = false ∧ s.port.inflight ≠ .none ∧ (∃ t, agentTurn .bus s = .next t)) ∧
    (inTransfer s.ctx.step = false → s.port.evFlag = false ∧ s.port.inflight = .none ∧
      ∃ t, agentTurn .host s = .next t)

/-- R104, R168: during MEMREAD's first transfer a sequencer step that meets no bus error makes no STOP: the bus
stays owned and no wire symbol appears. -/
def Obligations.MemreadHoldsTheBusBetweenTransfers : Prop :=
  ∀ s t : State, CommandInv s → s.host.phase = .spin → s.host.cmd.op = .memread → s.host.sub = .first →
    inTransfer s.ctx.step = true → agentTurn .seq s = .next t → t.ctx.step ≠ .error →
    t.port.mst = true ∧ t.trace.wire = s.trace.wire ∧ (.stop ∉ t.trace.port.drop s.trace.port.length)

/-! ## Whole transfers -/

/-- R93, R133, R102: a WRITE of `n` bytes that every byte of is acknowledged takes `n + 1` bytes on the bus, each with
its sequencer step; the wire carries S or Sr, the address byte, the data in order, and P unless `noStopFlag`; the
command answers 0x01, and the bus stays owned exactly when the flag is set. -/
def Obligations.AcknowledgedWriteCompletes : Prop :=
  ∀ (s : State) (ns rs : Bool) (addr : Byte) (data : List Byte) (later : List BusDraw),
    capLegal s.cfg → s.ctx.txBuffer.wf → launchReady rs s → addr.toNat < 128 →
    1 ≤ data.length → data.length ≤ s.cfg.cap →
    s.draws = List.replicate (data.length + 1) BusDraw.ack ++ later →
    ∃ s1 s2 s3 : State, exec (.write ns rs addr data) s = .next s1 ∧
      byteRounds (data.length + 1) s1 = .next s2 ∧ agentTurn .host s2 = .next s3 ∧
      s3.host.result = some [0x01#8] ∧ s3.host.phase = .idle ∧ s3.ctx.step = .ready ∧
      s3.ctx.txCounter = s3.ctx.txLength ∧ s3.port.mst = ns ∧ s3.draws = later ∧
      s3.trace.wire = s.trace.wire ++ openingSym rs :: .t (addr <<< 1) false ::
        data.map (fun b => .t b false) ++ (if ns then [] else [.p])

/-- R90, R93, R133, R137, R103: a READ of `n` bytes whose address is acknowledged takes `n + 1` bytes on the bus; the
master acknowledges every byte but the last, which it answers with NACK; exactly `n` bytes are clocked in; P ends the
transfer; and the command answers 0x01 and the `n` bytes the slave sent, in order. -/
def Obligations.AcknowledgedReadReturnsTheBytes : Prop :=
  ∀ (s : State) (rs : Bool) (addr : Byte) (front : List Byte) (last : Byte) (later : List BusDraw),
    capLegal s.cfg → s.ctx.rxBuffer.wf → launchReady rs s → addr.toNat < 128 →
    front.length + 1 ≤ s.cfg.cap →
    s.draws = BusDraw.ack :: (front ++ [last]).map BusDraw.rx ++ later →
    ∃ s1 s2 s3 : State, exec (.read rs addr (BitVec.ofNat 8 (front.length + 1))) s = .next s1 ∧
      byteRounds (front.length + 2) s1 = .next s2 ∧ agentTurn .host s2 = .next s3 ∧
      s3.host.result = some (0x01#8 :: (front ++ [last])) ∧ s3.host.phase = .idle ∧ s3.ctx.step = .ready ∧
      s3.port.mst = false ∧ s3.port.inflight = .none ∧ s3.draws = later ∧
      s3.trace.wire = s.trace.wire ++ openingSym rs :: .t (addr <<< 1 ||| 1) false ::
        front.map (fun b => .r b false) ++ [.r last true, .p]
end

