-- ==== Sys2Proof/Laws/Memory.lean ====
section
/-! SUPPORT. The laws of a buffer: every operation keeps the canonical form and the index range, and a read after a
write gives the value written, at that index alone. -/

namespace Sys2Proof.Machine

open Sys2Proof

/-- A bound below every listed index stays one after a write at or above it. -/
theorem Memory.write_keys_ge (m : Memory) (x : Nat) (v : Byte) {c : Host.Cell} (hc : c ∈ m.write x v) :
    c.1 = x ∨ c ∈ m := by
  induction m with
  | nil =>
    simp only [Memory.write] at hc
    split at hc <;> simp_all
  | cons d m ih =>
    obtain ⟨a, b⟩ := d
    simp only [Memory.write] at hc
    split at hc
    · split at hc
      · exact .inr hc
      · rcases List.mem_cons.1 hc with rfl | h
        · exact .inl rfl
        · exact .inr h
    · split at hc
      · split at hc
        · exact .inr (List.mem_cons_of_mem _ hc)
        · rcases List.mem_cons.1 hc with rfl | h
          · exact .inl rfl
          · exact .inr (List.mem_cons_of_mem _ h)
      · rcases List.mem_cons.1 hc with rfl | h
        · exact .inr (List.mem_cons_self ..)
        · exact (ih h).imp_right (List.mem_cons_of_mem _)

/-- Below the first listed index, nothing is listed. -/
theorem Memory.read_of_lt {m : Memory} {x : Nat} (h : ∀ c ∈ m, x < c.1) : m.read x = Memory.unlisted := by
  induction m with
  | nil => rfl
  | cons d m ih =>
    obtain ⟨a, b⟩ := d
    have h1 : x < a := h (a, b) (List.mem_cons_self ..)
    simp only [Memory.read, if_neg (Nat.ne_of_lt h1)]
    exact ih fun c hc => h c (List.mem_cons_of_mem _ hc)

/-- A write leaves every other index as it reads, whatever the form of the list. -/
theorem Memory.read_write_of_ne (m : Memory) {x y : Nat} (v : Byte) (h : y ≠ x) :
    (m.write x v).read y = m.read y := by
  induction m with
  | nil => simp only [Memory.write]; split <;> simp [Memory.read, h]
  | cons c m ih =>
    obtain ⟨a, b⟩ := c
    simp only [Memory.write]
    split
    · split <;> simp [Memory.read, h]
    · split
      · subst_vars; split <;> simp [Memory.read, h]
      · simp [Memory.read, ih]

/-- A write keeps the canonical form. -/
theorem Memory.write_wf {m : Memory} (x : Nat) (v : Byte) (h : m.wf) : (m.write x v).wf := by
  induction m with
  | nil =>
    simp only [Memory.write]
    split
    · exact ⟨List.Pairwise.nil, by simp⟩
    · exact ⟨List.pairwise_singleton _ _, by simpa using ‹_›⟩
  | cons d m ih =>
    obtain ⟨a, b⟩ := d
    obtain ⟨hp, hz⟩ := h
    obtain ⟨hlt, hp'⟩ := List.pairwise_cons.1 hp
    have hz' : ∀ c ∈ m, c.2 ≠ Memory.unlisted := fun c hc => hz c (List.mem_cons_of_mem _ hc)
    have hb : b ≠ Memory.unlisted := hz (a, b) (List.mem_cons_self ..)
    simp only [Memory.write]
    split
    · rename_i hx
      split
      · exact ⟨hp, hz⟩
      · rename_i hv
        refine ⟨List.pairwise_cons.2 ⟨?_, hp⟩, ?_⟩
        · intro c hc
          rcases List.mem_cons.1 hc with rfl | hc
          · exact hx
          · exact Nat.lt_trans hx (hlt c hc)
        · intro c hc
          rcases List.mem_cons.1 hc with rfl | hc
          · exact hv
          · exact hz c hc
    · split
      · rename_i hx
        subst hx
        split
        · exact ⟨hp', hz'⟩
        · rename_i hv
          refine ⟨List.pairwise_cons.2 ⟨hlt, hp'⟩, ?_⟩
          intro c hc
          rcases List.mem_cons.1 hc with rfl | hc
          · exact hv
          · exact hz' c hc
      · rename_i h1 h2
        obtain ⟨ip, iz⟩ := ih ⟨hp', hz'⟩
        refine ⟨List.pairwise_cons.2 ⟨?_, ip⟩, ?_⟩
        · intro c hc
          rcases Memory.write_keys_ge m x v hc with hk | hk
          · show a < c.1
            omega
          · exact hlt c hk
        · intro c hc
          rcases List.mem_cons.1 hc with rfl | hc
          · exact hb
          · exact iz c hc

/-- A write inside the range keeps every listed index inside it. -/
theorem Memory.write_within {cap : Nat} {m : Memory} {x : Nat} (v : Byte) (hx : x < cap) (h : m.within cap) :
    (m.write x v).within cap := by
  intro c hc
  rcases Memory.write_keys_ge m x v hc with hk | hk
  · omega
  · exact h c hk

/-- Read after write (R8). -/
theorem Memory.read_write {m : Memory} (x : Nat) (v : Byte) (y : Nat) (h : m.wf) :
    (m.write x v).read y = if y = x then v else m.read y := by
  induction m with
  | nil =>
    simp only [Memory.write]
    split
    · rename_i hv; simp [Memory.read, hv]
    · simp [Memory.read]
  | cons d m ih =>
    obtain ⟨a, b⟩ := d
    obtain ⟨hp, hz⟩ := h
    obtain ⟨hlt, hp'⟩ := List.pairwise_cons.1 hp
    have hz' : ∀ c ∈ m, c.2 ≠ Memory.unlisted := fun c hc => hz c (List.mem_cons_of_mem _ hc)
    simp only [Memory.write]
    split
    · rename_i hx
      split
      · rename_i hv
        by_cases hy : y = x
        · subst hy
          rw [if_pos rfl, hv]
          refine Memory.read_of_lt fun c hc => ?_
          rcases List.mem_cons.1 hc with rfl | hc
          · exact hx
          · exact Nat.lt_trans hx (hlt c hc)
        · rw [if_neg hy]
      · simp [Memory.read]
    · split
      · rename_i hx
        subst hx
        split
        · rename_i hv
          by_cases hy : y = x
          · subst hy
            rw [if_pos rfl, hv]
            exact Memory.read_of_lt hlt
          · simp [Memory.read, hy]
        · by_cases hy : y = x <;> simp [Memory.read, hy]
      · rename_i h1 h2
        simp only [Memory.read]
        rw [ih ⟨hp', hz'⟩]
        by_cases hy : y = a
        · subst hy; simp; omega
        · simp [hy]

/-- Copy-in keeps the canonical form. -/
theorem Memory.copyIn_wf {m : Memory} (i : Nat) (data : List Byte) (h : m.wf) : (m.copyIn i data).wf := by
  induction data generalizing m i with
  | nil => exact h
  | cons b data ih => exact ih (i + 1) (Memory.write_wf i b h)

/-- Copy-in of data that fit keeps every listed index inside the range. -/
theorem Memory.copyIn_within {cap : Nat} {m : Memory} (i : Nat) (data : List Byte) (hi : i + data.length ≤ cap)
    (h : m.within cap) : (m.copyIn i data).within cap := by
  induction data generalizing m i with
  | nil => exact h
  | cons b data ih =>
    simp only [List.length_cons] at hi
    exact ih (i + 1) (by omega) (Memory.write_within b (by omega) h)

/-- What a buffer reads as after copy-in (R42). -/
theorem Memory.read_copyIn {m : Memory} (i : Nat) (data : List Byte) (y : Nat) (h : m.wf) :
    (m.copyIn i data).read y = if i ≤ y then (data[y - i]?).getD (m.read y) else m.read y := by
  induction data generalizing m i with
  | nil => simp [Memory.copyIn]
  | cons b data ih =>
    rw [Memory.copyIn, ih (i + 1) (Memory.write_wf i b h), Memory.read_write i b y h]
    by_cases h1 : y = i
    · subst h1; simp
    · by_cases h2 : i ≤ y
      · obtain ⟨k, rfl⟩ : ∃ k, y = i + 1 + k := ⟨y - (i + 1), by omega⟩
        have e1 : i + 1 + k - (i + 1) = k := by omega
        have e2 : i + 1 + k - i = k + 1 := by omega
        rw [if_pos (by omega), if_pos h2, e1, e2, if_neg h1, List.getElem?_cons_succ]
      · rw [if_neg (by omega), if_neg h2, if_neg h1]

end Sys2Proof.Machine
end

