-- ==== Sys2Proof/Laws/State.lean ====
section
/-! SUPPORT. One lemma per field and named update of the state, each true by unfolding the update once. -/

namespace Sys2Proof.Machine

open Sys2Proof

@[simp] theorem logWire_cfg (w : WireSym) (s : State) : (logWire w s).cfg = s.cfg := rfl
@[simp] theorem logWire_ctx (w : WireSym) (s : State) : (logWire w s).ctx = s.ctx := rfl
@[simp] theorem logWire_host (w : WireSym) (s : State) : (logWire w s).host = s.host := rfl
@[simp] theorem logWire_port (w : WireSym) (s : State) : (logWire w s).port = s.port := rfl
@[simp] theorem logWire_inputs (w : WireSym) (s : State) : (logWire w s).inputs = s.inputs := rfl
@[simp] theorem logWire_draws (w : WireSym) (s : State) : (logWire w s).draws = s.draws := rfl
@[simp] theorem logWire_freeIndex (w : WireSym) (s : State) : (logWire w s).freeIndex = s.freeIndex := rfl
@[simp] theorem logWire_trace_port (w : WireSym) (s : State) : (logWire w s).trace.port = s.trace.port := rfl
@[simp] theorem logWire_trace_wire (w : WireSym) (s : State) : (logWire w s).trace.wire = s.trace.wire ++ [w] := rfl

@[simp] theorem logPort_cfg (op : PortOp) (s : State) : (logPort op s).cfg = s.cfg := rfl
@[simp] theorem logPort_ctx (op : PortOp) (s : State) : (logPort op s).ctx = s.ctx := rfl
@[simp] theorem logPort_host (op : PortOp) (s : State) : (logPort op s).host = s.host := rfl
@[simp] theorem logPort_port (op : PortOp) (s : State) : (logPort op s).port = s.port := rfl
@[simp] theorem logPort_inputs (op : PortOp) (s : State) : (logPort op s).inputs = s.inputs := rfl
@[simp] theorem logPort_draws (op : PortOp) (s : State) : (logPort op s).draws = s.draws := rfl
@[simp] theorem logPort_freeIndex (op : PortOp) (s : State) : (logPort op s).freeIndex = s.freeIndex := rfl
@[simp] theorem logPort_trace_port (op : PortOp) (s : State) : (logPort op s).trace.port = s.trace.port ++ [op] := rfl
@[simp] theorem logPort_trace_wire (op : PortOp) (s : State) : (logPort op s).trace.wire = s.trace.wire := rfl

@[simp] theorem setupWrite_cfg (ns rs : Bool) (data : List Byte) (s : State) : (setupWrite ns rs data s).cfg = s.cfg := rfl
@[simp] theorem setupWrite_host (ns rs : Bool) (data : List Byte) (s : State) : (setupWrite ns rs data s).host = s.host := rfl
@[simp] theorem setupWrite_port (ns rs : Bool) (data : List Byte) (s : State) : (setupWrite ns rs data s).port = s.port := rfl
@[simp] theorem setupWrite_trace (ns rs : Bool) (data : List Byte) (s : State) : (setupWrite ns rs data s).trace = s.trace := rfl
@[simp] theorem setupWrite_inputs (ns rs : Bool) (data : List Byte) (s : State) : (setupWrite ns rs data s).inputs = s.inputs := rfl
@[simp] theorem setupWrite_draws (ns rs : Bool) (data : List Byte) (s : State) : (setupWrite ns rs data s).draws = s.draws := rfl
@[simp] theorem setupWrite_freeIndex (ns rs : Bool) (data : List Byte) (s : State) : (setupWrite ns rs data s).freeIndex = s.freeIndex := rfl
@[simp] theorem setupWrite_ctx_step (ns rs : Bool) (data : List Byte) (s : State) : (setupWrite ns rs data s).ctx.step = .headerSent := rfl
@[simp] theorem setupWrite_ctx_initialised (ns rs : Bool) (data : List Byte) (s : State) : (setupWrite ns rs data s).ctx.initialised = s.ctx.initialised := rfl
@[simp] theorem setupWrite_ctx_direction (ns rs : Bool) (data : List Byte) (s : State) : (setupWrite ns rs data s).ctx.direction = .write := rfl
@[simp] theorem setupWrite_ctx_txBuffer (ns rs : Bool) (data : List Byte) (s : State) : (setupWrite ns rs data s).ctx.txBuffer = s.ctx.txBuffer.copyIn 0 data := rfl
@[simp] theorem setupWrite_ctx_rxBuffer (ns rs : Bool) (data : List Byte) (s : State) : (setupWrite ns rs data s).ctx.rxBuffer = s.ctx.rxBuffer := rfl
@[simp] theorem setupWrite_ctx_txLength (ns rs : Bool) (data : List Byte) (s : State) : (setupWrite ns rs data s).ctx.txLength = lenByte data := rfl
@[simp] theorem setupWrite_ctx_txCounter (ns rs : Bool) (data : List Byte) (s : State) : (setupWrite ns rs data s).ctx.txCounter = 0 := rfl
@[simp] theorem setupWrite_ctx_rxLength (ns rs : Bool) (data : List Byte) (s : State) : (setupWrite ns rs data s).ctx.rxLength = s.ctx.rxLength := rfl
@[simp] theorem setupWrite_ctx_rxCounter (ns rs : Bool) (data : List Byte) (s : State) : (setupWrite ns rs data s).ctx.rxCounter = s.ctx.rxCounter := rfl
@[simp] theorem setupWrite_ctx_noStopFlag (ns rs : Bool) (data : List Byte) (s : State) : (setupWrite ns rs data s).ctx.noStopFlag = ns := rfl
@[simp] theorem setupWrite_ctx_restartFlag (ns rs : Bool) (data : List Byte) (s : State) : (setupWrite ns rs data s).ctx.restartFlag = rs := rfl

@[simp] theorem setupRead_cfg (rs : Bool) (len : Byte) (s : State) : (setupRead rs len s).cfg = s.cfg := rfl
@[simp] theorem setupRead_host (rs : Bool) (len : Byte) (s : State) : (setupRead rs len s).host = s.host := rfl
@[simp] theorem setupRead_port (rs : Bool) (len : Byte) (s : State) : (setupRead rs len s).port = s.port := rfl
@[simp] theorem setupRead_trace (rs : Bool) (len : Byte) (s : State) : (setupRead rs len s).trace = s.trace := rfl
@[simp] theorem setupRead_inputs (rs : Bool) (len : Byte) (s : State) : (setupRead rs len s).inputs = s.inputs := rfl
@[simp] theorem setupRead_draws (rs : Bool) (len : Byte) (s : State) : (setupRead rs len s).draws = s.draws := rfl
@[simp] theorem setupRead_freeIndex (rs : Bool) (len : Byte) (s : State) : (setupRead rs len s).freeIndex = s.freeIndex := rfl
@[simp] theorem setupRead_ctx_step (rs : Bool) (len : Byte) (s : State) : (setupRead rs len s).ctx.step = .headerSent := rfl
@[simp] theorem setupRead_ctx_initialised (rs : Bool) (len : Byte) (s : State) : (setupRead rs len s).ctx.initialised = s.ctx.initialised := rfl
@[simp] theorem setupRead_ctx_direction (rs : Bool) (len : Byte) (s : State) : (setupRead rs len s).ctx.direction = .read := rfl
@[simp] theorem setupRead_ctx_txBuffer (rs : Bool) (len : Byte) (s : State) : (setupRead rs len s).ctx.txBuffer = s.ctx.txBuffer := rfl
@[simp] theorem setupRead_ctx_rxBuffer (rs : Bool) (len : Byte) (s : State) : (setupRead rs len s).ctx.rxBuffer = s.ctx.rxBuffer := rfl
@[simp] theorem setupRead_ctx_txLength (rs : Bool) (len : Byte) (s : State) : (setupRead rs len s).ctx.txLength = s.ctx.txLength := rfl
@[simp] theorem setupRead_ctx_txCounter (rs : Bool) (len : Byte) (s : State) : (setupRead rs len s).ctx.txCounter = s.ctx.txCounter := rfl
@[simp] theorem setupRead_ctx_rxLength (rs : Bool) (len : Byte) (s : State) : (setupRead rs len s).ctx.rxLength = len := rfl
@[simp] theorem setupRead_ctx_rxCounter (rs : Bool) (len : Byte) (s : State) : (setupRead rs len s).ctx.rxCounter = 0 := rfl
@[simp] theorem setupRead_ctx_noStopFlag (rs : Bool) (len : Byte) (s : State) : (setupRead rs len s).ctx.noStopFlag = false := rfl
@[simp] theorem setupRead_ctx_restartFlag (rs : Bool) (len : Byte) (s : State) : (setupRead rs len s).ctx.restartFlag = rs := rfl

@[simp] theorem beginSpin_cfg (cmd : Command) (s : State) : (beginSpin cmd s).cfg = s.cfg := rfl
@[simp] theorem beginSpin_ctx (cmd : Command) (s : State) : (beginSpin cmd s).ctx = s.ctx := rfl
@[simp] theorem beginSpin_port (cmd : Command) (s : State) : (beginSpin cmd s).port = s.port := rfl
@[simp] theorem beginSpin_trace (cmd : Command) (s : State) : (beginSpin cmd s).trace = s.trace := rfl
@[simp] theorem beginSpin_inputs (cmd : Command) (s : State) : (beginSpin cmd s).inputs = s.inputs := rfl
@[simp] theorem beginSpin_draws (cmd : Command) (s : State) : (beginSpin cmd s).draws = s.draws := rfl
@[simp] theorem beginSpin_freeIndex (cmd : Command) (s : State) : (beginSpin cmd s).freeIndex = s.freeIndex := rfl
@[simp] theorem beginSpin_host_phase (cmd : Command) (s : State) : (beginSpin cmd s).host.phase = .spin := rfl
@[simp] theorem beginSpin_host_cmd (cmd : Command) (s : State) : (beginSpin cmd s).host.cmd = cmd := rfl
@[simp] theorem beginSpin_host_sub (cmd : Command) (s : State) : (beginSpin cmd s).host.sub = .first := rfl
@[simp] theorem beginSpin_host_result (cmd : Command) (s : State) : (beginSpin cmd s).host.result = s.host.result := rfl
@[simp] theorem beginSpin_host_spins (cmd : Command) (s : State) : (beginSpin cmd s).host.spins = 0 := rfl

@[simp] theorem afterDraw_cfg (s : State) : (afterDraw s).cfg = s.cfg := by
  unfold afterDraw; split <;> rfl
@[simp] theorem afterDraw_ctx (s : State) : (afterDraw s).ctx = s.ctx := by
  unfold afterDraw; split <;> rfl
@[simp] theorem afterDraw_host (s : State) : (afterDraw s).host = s.host := by
  unfold afterDraw; split <;> rfl
@[simp] theorem afterDraw_port (s : State) : (afterDraw s).port = s.port := by
  unfold afterDraw; split <;> rfl
@[simp] theorem afterDraw_trace (s : State) : (afterDraw s).trace = s.trace := by
  unfold afterDraw; split <;> rfl
@[simp] theorem afterDraw_inputs (s : State) : (afterDraw s).inputs = s.inputs := by
  unfold afterDraw; split <;> rfl

/-! ## The response -/

/-- All that a response does: the host's result, phase and `sub`. -/
theorem respond_eq (packet : List Byte) (s : State) : respond packet s =
    .next { s with host := { s.host with result := some packet, phase := .idle, sub := .first } } := rfl

end Sys2Proof.Machine
end

