-- ==== Sys2Proof/Laws/Ops.lean ====
section
/-! SUPPORT. What each shared operation can do, said once: the port operations, the sequencer's step, the counters,
the acceptance checks, the trigger and the issue of a command. -/

namespace Sys2Proof.Machine

open Sys2Proof

/-! ## Outcomes in sequence -/

@[simp] theorem andThen_next (s : State) (f : State → Result) : andThen (.next s) f = f s := rfl

@[simp] theorem andThen_fault (e : Fault) (f : State → Result) : andThen (.fault e) f = .fault e := rfl

@[simp] theorem andThen_refused (e : Refusal) (f : State → Result) : andThen (.refused e) f = .refused e := rfl

/-- A sequence goes on exactly when both parts do. -/
theorem andThen_eq_next {r : Result} {f : State → Result} {t : State} :
    andThen r f = .next t ↔ ∃ u, r = .next u ∧ f u = .next t := by
  cases r <;> simp [andThen]

theorem atIndex_of_lt {i : Nat} {s : State} {f : Result} (h : i < s.cfg.cap) : atIndex i s f = f := if_pos h

/-! ## Port operations -/

theorem emit_clrEvent (s : State) : emit .clrEvent s =
    .next (logPort .clrEvent { s with port := { s.port with evFlag := false, arbLost := false } }) := rfl

theorem emit_setTx (b : Bool) (s : State) : emit (.setTx b) s =
    .next (logPort (.setTx b) { s with port := { s.port with txMode := b } }) := rfl

theorem emit_setAck (a : Bool) (s : State) : emit (.setAck a) s =
    .next (logPort (.setAck a) { s with port := { s.port with ackCtl := a } }) := rfl

/-- STOP is total (R124). -/
theorem emit_stop (s : State) : emit .stop s = .next
    { s with
      port := { s.port with mst := false, inflight := if s.port.mst then .none else s.port.inflight }
      trace :=
        { port := s.trace.port ++ [.stop], wire := s.trace.wire ++ (if s.port.mst then [.p] else []) } } := by
  obtain ⟨_, _, _, ⟨mst, _, _, _, _, _, _, _⟩, _, _, _, _⟩ := s
  cases mst <;> simp [emit, applyOp, stopCondition, logPort, logWire]

/-- The opening condition a flag selects, with the bus owned as the flag asks and nothing in flight (R122, R123). -/
theorem emit_opening {rs : Bool} {s : State} (hm : s.port.mst = rs) (hi : s.port.inflight = .none) :
    emit (if rs then .restart else .start) s = .next
      { s with
        port := { s.port with mst := true }
        trace :=
          { port := s.trace.port ++ [if rs then .restart else .start], wire := s.trace.wire ++ [openingSym rs] } } := by
  obtain ⟨_, _, _, ⟨mst, _, _, _, _, _, _, _⟩, _, _, _, _⟩ := s
  simp only at hm hi
  subst hm hi
  cases mst <;> simp [emit, applyOp, startCondition, restartCondition, logPort, logWire, openingSym]

theorem emit_writeData {v : Byte} {s : State} (hm : s.port.mst = true) (ht : s.port.txMode = true)
    (hi : s.port.inflight = .none) : emit (.writeData v) s =
    .next (logPort (.writeData v) { s with port := { s.port with dataReg := v, inflight := .txb v } }) := by
  simp [emit, applyOp, writeDataRegister, hm, ht, hi]

/-- READ_DATA that does not meet a byte in flight: it starts a reception when the bus is owned in receive mode
(R128). -/
theorem emit_readData {s : State} (h : s.port.mst = false ∨ s.port.txMode = true ∨ s.port.inflight = .none) :
    emit .readData s = .next (logPort .readData { s with port := { s.port with
      inflight := if s.port.mst = true ∧ s.port.txMode = false then .rxb else s.port.inflight } }) := by
  by_cases hr : s.port.mst = true ∧ s.port.txMode = false
  · have hi : s.port.inflight = .none := by simpa [hr] using h
    simp [emit, applyOp, readDataRegister, hr, hi]
  · simp [emit, applyOp, readDataRegister, hr]

/-- A port operation that goes on writes the port and the traces alone, and its symbol enters the port trace
(R120). -/
theorem emit_frame {op : PortOp} {s t : State} (h : emit op s = .next t) :
    t.trace.port = s.trace.port ++ [op] ∧ t.ctx = s.ctx ∧ t.host = s.host ∧ t.cfg = s.cfg ∧ t.inputs = s.inputs ∧
      t.draws = s.draws ∧ t.freeIndex = s.freeIndex := by
  obtain ⟨u, hu, hl⟩ := andThen_eq_next.1 h
  cases hl
  suffices u.trace.port = s.trace.port ∧ u.ctx = s.ctx ∧ u.host = s.host ∧ u.cfg = s.cfg ∧ u.inputs = s.inputs ∧
      u.draws = s.draws ∧ u.freeIndex = s.freeIndex by simpa [logPort] using this
  cases op <;>
    simp only [applyOp, clearEvent, startCondition, restartCondition, stopCondition, setTransmitMode, setAckControl,
      writeDataRegister, readDataRegister] at hu <;>
    (repeat' split at hu) <;> cases hu <;> exact ⟨rfl, rfl, rfl, rfl, rfl, rfl, rfl⟩

/-- What stops a port operation is a port misuse (R131). -/
theorem emit_cases (op : PortOp) (s : State) :
    (∃ t, emit op s = .next t) ∨ ∃ m, emit op s = .fault (.portMisuse m) := by
  unfold emit
  cases op <;>
    simp only [applyOp, clearEvent, startCondition, restartCondition, stopCondition, setTransmitMode, setAckControl,
      writeDataRegister, readDataRegister] <;>
    (repeat' split) <;> simp [andThen]

/-! ## The sequencer's step -/

/-- The state after the acknowledgment of the event (R121), where every case starts. -/
def acknowledged (s : State) : State :=
  logPort .clrEvent { s with port := { s.port with evFlag := false, arbLost := false } }

@[simp] theorem acknowledged_ctx (s : State) : (acknowledged s).ctx = s.ctx := rfl
@[simp] theorem acknowledged_cfg (s : State) : (acknowledged s).cfg = s.cfg := rfl
@[simp] theorem acknowledged_host (s : State) : (acknowledged s).host = s.host := rfl
@[simp] theorem acknowledged_inputs (s : State) : (acknowledged s).inputs = s.inputs := rfl
@[simp] theorem acknowledged_draws (s : State) : (acknowledged s).draws = s.draws := rfl
@[simp] theorem acknowledged_freeIndex (s : State) : (acknowledged s).freeIndex = s.freeIndex := rfl
@[simp] theorem acknowledged_port (s : State) :
    (acknowledged s).port = { s.port with evFlag := false, arbLost := false } := rfl
@[simp] theorem acknowledged_trace (s : State) :
    (acknowledged s).trace = { s.trace with port := s.trace.port ++ [.clrEvent] } := rfl

/-- The four parts of a dispatch key are its fields (R69). -/
theorem eventKey_fields (a n : Bool) (p : Step) (d : Direction) :
    (eventKey a n p d).getLsbD 5 = a ∧ (eventKey a n p d).getLsbD 4 = n ∧
      Step.ofCode ((eventKey a n p d).extractLsb' 1 3) = p ∧
      Direction.ofBit ((eventKey a n p d).getLsbD 0) = d := by
  cases a <;> cases n <;> cases d <;> cases p <;> decide

/-- The four parts of a dispatch key determine it. -/
theorem eventKey_inj {a n a' n' : Bool} {p p' : Step} {d d' : Direction} :
    eventKey a n p d = eventKey a' n' p' d' ↔ a = a' ∧ n = n' ∧ p = p' ∧ d = d' := by
  constructor
  · intro h
    have e := eventKey_fields a n p d
    have e' := eventKey_fields a' n' p' d'
    rw [h] at e
    exact ⟨e.1.symm.trans e'.1, e.2.1.symm.trans e'.2.1, e.2.2.1.symm.trans e'.2.2.1, e.2.2.2.symm.trans e'.2.2.2⟩
  · rintro ⟨rfl, rfl, rfl, rfl⟩; rfl

theorem key_eq_iff {s : State} {a n : Bool} {p : Step} {d : Direction} :
    s.key = eventKey a n p d ↔ keyIs a n p d s := eventKey_inj

/-- The case the key selects runs from the acknowledged state. -/
theorem seqCase_of_selected {s : State} {a n : Bool} {p : Step} {d : Direction} {c : Bool} {body : State → Result}
    (hp : eventPending s) (hk : keyIs a n p d s) (hc : c = true) :
    seqCase (eventKey a n p d) c body s = body (acknowledged s) := by
  simp [seqCase, hp.1, hp.2, key_eq_iff.2 hk, hc, emit_clrEvent, acknowledged]

/-- All that a case that goes on says of the state it ran in. -/
theorem seqCase_eq_next {s t : State} {a n : Bool} {p : Step} {d : Direction} {c : Bool} {body : State → Result} :
    seqCase (eventKey a n p d) c body s = .next t ↔
      eventPending s ∧ keyIs a n p d s ∧ c = true ∧ body (acknowledged s) = .next t := by
  unfold seqCase eventPending
  split
  · simp_all
  · split
    · simp_all
    · by_cases hk : s.key = eventKey a n p d ∧ c = true
      · rw [if_pos hk]
        have := key_eq_iff.1 hk.1
        simp_all [emit_clrEvent, acknowledged]
      · rw [if_neg hk]
        have : ¬ (keyIs a n p d s ∧ c = true) := fun h => hk ⟨key_eq_iff.2 h.1, h.2⟩
        simp_all

/-- Outside those conditions a case stops before it does anything. -/
theorem seqCase_not_pending {s : State} {key : BitVec 6} {c : Bool} {body : State → Result}
    (h : s.port.evFlag = false) : seqCase key c body s = .refused (.notEnabled .seq) := by simp [seqCase, h]

theorem seqCase_illFormed {s : State} {key : BitVec 6} {c : Bool} {body : State → Result}
    (h : s.port.evFlag = true) (hw : s.ctx.wf s.cfg.cap = false) :
    seqCase key c body s = .fault .illFormedContext := by simp [seqCase, h, hw]

theorem seqCase_not_selected {s : State} {a n : Bool} {p : Step} {d : Direction} {c : Bool} {body : State → Result}
    (hp : eventPending s) (h : ¬ (keyIs a n p d s ∧ c = true)) :
    seqCase (eventKey a n p d) c body s = .refused .notSelected := by
  rw [← key_eq_iff] at h
  simp only [seqCase, hp.1, hp.2, if_neg h]
  simp

/-- Taking a bus error (R149). -/
theorem raiseBusError_eq (s : State) : raiseBusError s = .next
    { s with
      ctx := { s.ctx with step := .error }
      port := { s.port with mst := false, inflight := if s.port.mst then .none else s.port.inflight }
      trace :=
        { port := s.trace.port ++ [.stop], wire := s.trace.wire ++ (if s.port.mst then [.p] else []) } } := by
  simp [raiseBusError, emit_stop]

/-! ## Well-formed contexts and counters -/

/-- `step > READY` by its names (R12). -/
theorem inTransfer_iff (p : Step) : inTransfer p = true ↔ p ≠ .error ∧ p ≠ .ready := by cases p <;> decide

theorem wf_step {cap : Nat} {c : Context} (h : c.wf cap = true) : isStep c.step = true := by
  simp [Context.wf] at h; exact h.1

theorem wf_write {cap : Nat} {c : Context} (h : c.wf cap = true) (hd : c.direction = .write)
    (ht : inTransfer c.step = true) : c.txWf cap = true := by
  simp [Context.wf, hd, ht] at h; exact h.2

theorem wf_read {cap : Nat} {c : Context} (h : c.wf cap = true) (hd : c.direction = .read)
    (ht : inTransfer c.step = true) : c.rxWf cap = true := by
  simp [Context.wf, hd, ht] at h; exact h.2

/-- The increment of a counter below its length reaches the length exactly when the naturals do (R57). -/
theorem add_one_eq_iff {c l : Byte} (h : c.toNat < l.toNat) : c + 1 = l ↔ c.toNat + 1 = l.toNat := by
  have := l.isLt
  rw [← BitVec.toNat_inj]; simp; omega

theorem add_one_toNat {c l : Byte} (h : c.toNat < l.toNat) : (c + 1).toNat = c.toNat + 1 := by
  have := l.isLt
  simp; omega

/-- The bytes still to store, without a borrow (R57). -/
theorem rem_toNat {c : Context} (h : c.rxCounter.toNat ≤ c.rxLength.toNat) :
    c.rem.toNat = c.rxLength.toNat - c.rxCounter.toNat := by
  have := c.rxLength.isLt
  simp [Context.rem, BitVec.toNat_sub]; omega

/-! ## Sending and storing a byte -/

theorem sendNext_eq {s : State} (hc : s.ctx.txCounter.toNat < s.cfg.cap) (hm : s.port.mst = true)
    (ht : s.port.txMode = true) (hi : s.port.inflight = .none) : sendNext s = .next
    { s with
      ctx := { s.ctx with
        txCounter := s.ctx.txCounter + 1
        step := if s.ctx.txCounter + 1 = s.ctx.txLength then .dataSent else s.ctx.step }
      port := { s.port with
        dataReg := s.ctx.txBuffer.read s.ctx.txCounter.toNat
        inflight := .txb (s.ctx.txBuffer.read s.ctx.txCounter.toNat) }
      trace := { s.trace with
        port := s.trace.port ++ [.writeData (s.ctx.txBuffer.read s.ctx.txCounter.toNat)] } } := by
  rw [sendNext, atIndex_of_lt hc, emit_writeData hm ht hi]; rfl

theorem storeReceived_eq {s : State} (hc : s.ctx.rxCounter.toNat < s.cfg.cap)
    (h : s.port.mst = false ∨ s.port.txMode = true ∨ s.port.inflight = .none) : storeReceived s = .next
    { s with
      ctx := { s.ctx with
        rxBuffer := s.ctx.rxBuffer.write s.ctx.rxCounter.toNat s.port.dataReg
        rxCounter := s.ctx.rxCounter + 1 }
      port := { s.port with
        inflight := if s.port.mst = true ∧ s.port.txMode = false then .rxb else s.port.inflight }
      trace := { s.trace with port := s.trace.port ++ [.readData] } } := by
  rw [storeReceived, atIndex_of_lt hc, emit_readData h]; rfl

/-- What a transmit sub-path that goes on did, whatever it ran in. -/
theorem sendNext_frame {s t : State} (h : sendNext s = .next t) :
    s.ctx.txCounter.toNat < s.cfg.cap ∧ s.port.mst = true ∧ s.port.txMode = true ∧ s.port.inflight = .none := by
  unfold sendNext atIndex at h
  split at h
  · rename_i hc
    obtain ⟨u, hu, -⟩ := andThen_eq_next.1 h
    obtain ⟨v, hv, -⟩ := andThen_eq_next.1 hu
    simp only [applyOp, writeDataRegister] at hv
    split at hv
    · rename_i hp; exact ⟨hc, hp⟩
    · cases hv
  · cases h

theorem storeReceived_frame {s t : State} (h : storeReceived s = .next t) :
    s.ctx.rxCounter.toNat < s.cfg.cap ∧ (s.port.mst = false ∨ s.port.txMode = true ∨ s.port.inflight = .none) := by
  unfold storeReceived atIndex at h
  split at h
  · rename_i hc
    obtain ⟨u, hu, -⟩ := andThen_eq_next.1 h
    obtain ⟨v, hv, -⟩ := andThen_eq_next.1 hu
    simp only [applyOp, readDataRegister] at hv
    refine ⟨hc, ?_⟩
    split at hv
    · split at hv
      · exact .inr (.inr ‹_›)
      · cases hv
    · rename_i hn
      cases hm : s.port.mst <;> cases ht : s.port.txMode <;> simp_all
  · cases h

/-! ## Issuing a command -/

/-- An address byte is in range exactly when its bit 7 is clear (R63). -/
theorem addr_bit7 (addr : Byte) : addr.getLsbD 7 = decide (128 ≤ addr.toNat) := by revert addr; decide +kernel

/-- The address byte on the wire, as a shift (R44). -/
theorem header_write {addr : Byte} (h : addr.toNat < 128) : header (slaveAddress addr) false = addr <<< 1 := by
  revert addr; decide +kernel

theorem header_read {addr : Byte} (h : addr.toNat < 128) : header (slaveAddress addr) true = addr <<< 1 ||| 1 := by
  revert addr; decide +kernel

/-- A command passes every check exactly in a state ready for it, with its operands in range (R110). -/
theorem acceptance_eq_none {addr : Byte} {ok rs : Bool} {s : State} :
    acceptance addr ok rs s = none ↔ addr.toNat < 128 ∧ ok = true ∧ launchReady rs s := by
  have hi : s.port.inflight.isNone = true ↔ s.port.inflight = .none := by cases s.port.inflight <;> simp [Inflight.isNone]
  simp only [acceptance, launchReady, quiescent, addr_bit7, Bool.not_eq_true', Bool.or_eq_true, decide_eq_true_eq]
  constructor
  · intro h
    split at h; · cases h
    split at h; · cases h
    split at h; · cases h
    split at h; · cases h
    split at h; · cases h
    split at h; · cases h
    split at h; · cases h
    simp_all
  · rintro ⟨h1, h2, ⟨h3, h4, h5⟩, h6, h7, h8⟩
    simp [h2, h3, h4, h5, h6, h7, h8, Inflight.isNone, h1]

/-- The trigger sequence, with the bus as the flag asks and nothing in flight (R109). -/
theorem trigger_eq {addr : BitVec 7} {rw : Bool} {s : State} (hm : s.port.mst = s.ctx.restartFlag)
    (hi : s.port.inflight = .none) : trigger addr rw s = .next
    { s with
      port := { s.port with
        mst := true, txMode := true, dataReg := header addr rw, inflight := .txb (header addr rw) }
      trace :=
        { port := s.trace.port ++
            [.setTx true, if s.ctx.restartFlag then .restart else .start, .writeData (header addr rw)]
          wire := s.trace.wire ++ [openingSym s.ctx.restartFlag] } } := by
  have ho := emit_opening (rs := s.ctx.restartFlag)
    (s := logPort (.setTx true) { s with port := { s.port with txMode := true } }) hm hi
  simp only [trigger, emit_setTx, andThen_next]
  rw [show (logPort (.setTx true) { s with port := { s.port with txMode := true } }).ctx = s.ctx from rfl, ho,
    andThen_next]
  refine (emit_writeData rfl rfl ?_).trans ?_
  · exact hi
  · simp [logPort]

/-- An accepted command: the set-up, the trigger, and the host in its spin. The set-up writes the context alone and
loads `restartFlag` from the command's bit. -/
theorem issue_eq {cmd : Command} {addr : Byte} {ok rs rw : Bool} {setup : State → State} {s : State} {c : Context}
    (hs : setup s = { s with ctx := c }) (hr : c.restartFlag = rs)
    (h : launchReady rs s) (ha : addr.toNat < 128) (hk : ok = true) :
    issue cmd addr ok rs rw setup s = .next (afterIssue s c cmd rs (header (slaveAddress addr) rw)) := by
  subst hr
  have hn : acceptance addr ok c.restartFlag s = none := acceptance_eq_none.2 ⟨ha, hk, h⟩
  simp only [issue, hn, hs]
  rw [trigger_eq (s := { s with ctx := c }) h.2.2.2 h.1.2.2]
  rfl

/-- The issue of a command goes on or is refused; it is never a fault. -/
theorem issue_cases {cmd : Command} {addr : Byte} {ok rs rw : Bool} {setup : State → State} {s : State} {c : Context}
    (hs : setup s = { s with ctx := c }) (hr : c.restartFlag = rs) :
    (∃ r, acceptance addr ok rs s = some r ∧ issue cmd addr ok rs rw setup s = .refused r) ∨
    (addr.toNat < 128 ∧ ok = true ∧ launchReady rs s ∧
      issue cmd addr ok rs rw setup s = .next (afterIssue s c cmd rs (header (slaveAddress addr) rw))) := by
  cases ha : acceptance addr ok rs s with
  | some r => exact .inl ⟨r, rfl, by simp [issue, ha]⟩
  | none =>
    obtain ⟨h1, h2, h3⟩ := acceptance_eq_none.1 ha
    exact .inr ⟨h1, h2, h3, issue_eq hs hr h3 h1 h2⟩

end Sys2Proof.Machine
end

