-- ==== Sys2Proof/Laws/Commands.lean ====
section
/-! SUPPORT. Inversion of the host's steps: what is known of the state before and after, when the issue of a command
or its completion goes on. -/

namespace Sys2Proof.Machine

open Sys2Proof

/-- The context after a WRITE transfer is set up (R102, R108). -/
def writeCtx (ns rs : Bool) (data : List Byte) (c : Context) : Context :=
  { c with
    txBuffer := c.txBuffer.copyIn 0 data, direction := .write, txLength := lenByte data, txCounter := 0
    noStopFlag := ns, restartFlag := rs, step := .headerSent }

/-- The context after a READ transfer is set up (R103, R108). -/
def readCtx (rs : Bool) (len : Byte) (c : Context) : Context :=
  { c with
    direction := .read, rxLength := len, rxCounter := 0, noStopFlag := false, restartFlag := rs
    step := .headerSent }

theorem setupWrite_eq (ns rs : Bool) (data : List Byte) (s : State) :
    setupWrite ns rs data s = { s with ctx := writeCtx ns rs data s.ctx } := rfl

theorem setupRead_eq (rs : Bool) (len : Byte) (s : State) :
    setupRead rs len s = { s with ctx := readCtx rs len s.ctx } := rfl

theorem lengthOk_iff {cap n : Nat} : lengthOk cap n = true ↔ 1 ≤ n ∧ n ≤ cap := by simp [lengthOk]

/-- The LEN byte of data that fit in it. -/
theorem lenByte_toNat {data : List Byte} (h : data.length < 256) : (lenByte data).toNat = data.length := by
  simp [lenByte]; omega

theorem execInit_next {s t : State} (h : execInit s = .next t) :
    s.host.phase = .idle ∧ t = { s with
      ctx := { s.ctx with
        step := .ready, initialised := true, txLength := 0, txCounter := 0, rxLength := 0, rxCounter := 0
        noStopFlag := false, restartFlag := false }
      host := { s.host with result := some [statusByte .ready], phase := .idle, sub := .first } } := by
  unfold execInit at h
  split at h
  · cases h; exact ⟨‹_›, rfl⟩
  · cases h

theorem execWrite_next {s t : State} {ns rs : Bool} {addr : Byte} {data : List Byte}
    (h : execWrite ns rs addr data s = .next t) :
    addr.toNat < 128 ∧ lengthOk s.cfg.cap data.length = true ∧ launchReady rs s ∧
      t = afterIssue s (writeCtx ns rs data s.ctx) (writeCommand ns rs addr data) rs
        (header (slaveAddress addr) false) := by
  obtain ⟨r, -, hr⟩ | ⟨h1, h2, h3, h4⟩ := issue_cases (cmd := writeCommand ns rs addr data) (addr := addr)
    (rs := rs) (ok := lengthOk s.cfg.cap data.length) (rw := false) (setupWrite_eq ns rs data s) rfl
  · rw [execWrite, hr] at h; cases h
  · rw [execWrite, h4] at h; cases h; exact ⟨h1, h2, h3, rfl⟩

theorem execRead_next {s t : State} {rs : Bool} {addr len : Byte} (h : execRead rs addr len s = .next t) :
    addr.toNat < 128 ∧ lengthOk s.cfg.cap len.toNat = true ∧ launchReady rs s ∧
      t = afterIssue s (readCtx rs len s.ctx) (readCommand rs addr len) rs (header (slaveAddress addr) true) := by
  obtain ⟨r, -, hr⟩ | ⟨h1, h2, h3, h4⟩ := issue_cases (cmd := readCommand rs addr len) (addr := addr)
    (rs := rs) (ok := lengthOk s.cfg.cap len.toNat) (rw := true) (setupRead_eq rs len s) rfl
  · rw [execRead, hr] at h; cases h
  · rw [execRead, h4] at h; cases h; exact ⟨h1, h2, h3, rfl⟩

theorem execMemread_next {s t : State} {addr maddr len : Byte} (h : execMemread addr maddr len s = .next t) :
    addr.toNat < 128 ∧ lengthOk s.cfg.cap len.toNat = true ∧ launchReady false s ∧
      t = afterIssue s (writeCtx true false [maddr] s.ctx) (memreadCommand addr maddr len) false
        (header (slaveAddress addr) false) := by
  obtain ⟨r, -, hr⟩ | ⟨h1, h2, h3, h4⟩ := issue_cases (cmd := memreadCommand addr maddr len) (addr := addr)
    (rs := false) (ok := lengthOk s.cfg.cap len.toNat) (rw := false) (setupWrite_eq true false [maddr] s) rfl
  · rw [execMemread, hr] at h; cases h
  · rw [execMemread, h4] at h; cases h; exact ⟨h1, h2, h3, rfl⟩

theorem execMemwrite_next {s t : State} {addr maddr : Byte} {data : List Byte}
    (h : execMemwrite addr maddr data s = .next t) :
    addr.toNat < 128 ∧ lengthOk s.cfg.cap (data.length + 1) = true ∧ launchReady false s ∧
      t = afterIssue s (writeCtx false false (maddr :: data) s.ctx) (memwriteCommand addr maddr data) false
        (header (slaveAddress addr) false) := by
  obtain ⟨r, -, hr⟩ | ⟨h1, h2, h3, h4⟩ := issue_cases (cmd := memwriteCommand addr maddr data) (addr := addr)
    (rs := false) (ok := lengthOk s.cfg.cap (data.length + 1)) (rw := false) (setupWrite_eq false false (maddr :: data) s) rfl
  · rw [execMemwrite, hr] at h; cases h
  · rw [execMemwrite, h4] at h; cases h; exact ⟨h1, h2, h3, rfl⟩

/-! ## The host's own step -/

/-- Outside a transfer the step is ERROR or READY (R12). -/
theorem not_inTransfer_iff (p : Step) : inTransfer p = false ↔ p = .error ∨ p = .ready := by cases p <;> decide

theorem hostPoll_unbounded {s : State} (h : s.cfg.spinLimit = none) : hostPoll s = .next s := by simp [hostPoll, h]

/-- Responding writes the host alone. -/
theorem respond_next {packet : List Byte} {s t : State} (h : respond packet s = .next t) :
    t = { s with host := { s.host with result := some packet, phase := .idle, sub := .first } } := by cases h; rfl

theorem completeRead_next {s t : State} (h : completeRead s = .next t) :
    ∃ packet, t = { s with host := { s.host with result := some packet, phase := .idle, sub := .first } } := by
  unfold completeRead at h
  split at h
  · split at h
    · exact ⟨_, respond_next h⟩
    · cases h
  · exact ⟨_, respond_next h⟩

/-- The second transfer of MEMREAD is set up and opened with RESTART (R104). -/
theorem completeMemreadFirst_ready {s : State} (hs : s.ctx.step = .ready) (hm : s.port.mst = true)
    (hi : s.port.inflight = .none) : completeMemreadFirst s = .next
    { s with
      ctx := readCtx true s.host.cmd.length s.ctx
      port := { s.port with
        mst := true, txMode := true, dataReg := header s.host.cmd.address true
        inflight := .txb (header s.host.cmd.address true) }
      trace :=
        { port := s.trace.port ++ [.setTx true, .restart, .writeData (header s.host.cmd.address true)]
          wire := s.trace.wire ++ [.sr] }
      host := { s.host with sub := .second, spins := 0 } } := by
  rw [completeMemreadFirst, if_neg (by simp [hs]), setupRead_eq,
    trigger_eq (s := { s with ctx := readCtx true s.host.cmd.length s.ctx }) hm hi]
  rfl

/-- The trigger writes the port and the traces alone (R109, R120). -/
theorem trigger_frame {a : BitVec 7} {rw : Bool} {s t : State} (h : trigger a rw s = .next t) :
    t.ctx = s.ctx ∧ t.host = s.host ∧ t.cfg = s.cfg ∧ t.inputs = s.inputs ∧ t.draws = s.draws ∧
      t.freeIndex = s.freeIndex := by
  simp only [trigger] at h
  obtain ⟨u, hu, h⟩ := andThen_eq_next.1 h
  obtain ⟨v, hv, h⟩ := andThen_eq_next.1 h
  obtain ⟨-, a1, a2, a3, a4, a5, a6⟩ := emit_frame hu
  obtain ⟨-, b1, b2, b3, b4, b5, b6⟩ := emit_frame hv
  obtain ⟨-, c1, c2, c3, c4, c5, c6⟩ := emit_frame h
  exact ⟨c1.trans (b1.trans a1), c2.trans (b2.trans a2), c3.trans (b3.trans a3), c4.trans (b4.trans a4),
    c5.trans (b5.trans a5), c6.trans (b6.trans a6)⟩

/-! ## The free order -/

/-- The agent chosen in the free order has a step (log entry 6). -/
theorem chosenAgent_enabled {s : State} {a : Agent} (h : chosenAgent s = some a) : agentEnabled s a = true := by
  simp only [chosenAgent] at h
  split_ifs at h <;> simp_all

/-- No agent is chosen exactly when none has a step. -/
theorem chosenAgent_eq_none {s : State} : chosenAgent s = none ↔ ∀ a, agentEnabled s a = false := by
  refine ⟨fun h a => ?_, fun h => by simp [chosenAgent, h]⟩
  simp only [chosenAgent] at h
  split_ifs at h
  cases a <;> simp_all

end Sys2Proof.Machine
end

