-- ==== Sys2Proof/Laws/Decode.lean ====
section
/-! SUPPORT. What a decoder's answer says: the row it comes from. The opcode table's rows of each format exclude each
other. -/

namespace Sys2Proof

/-- An instruction picked from rows is built by one of them that the word selects. -/
theorem pickRow_ok {w : Nat} {Operands : Type} {e : Reject} {word : BitVec w} {ops : Operands}
    {rows : List (Row w Operands)} {i : Instr} (h : pickRow e word ops rows = .ok i) :
    ∃ r ∈ rows, r.selects word ops = true ∧ r.build word ops = .ok i := by
  induction rows with
  | nil => simp [pickRow] at h
  | cons r rows ih =>
    simp only [pickRow] at h
    split at h
    · exact ⟨r, List.mem_cons_self .., ‹_›, h⟩
    · obtain ⟨r', hm, hs⟩ := ih h
      exact ⟨r', List.mem_cons_of_mem _ hm, hs⟩

/-- A rejection is the decoder's own reason, or the reason of the row that the word selects. -/
theorem pickRow_error {w : Nat} {Operands : Type} {e e' : Reject} {word : BitVec w} {ops : Operands}
    {rows : List (Row w Operands)} (h : pickRow e word ops rows = .error e') :
    (e' = e ∧ ∀ r ∈ rows, r.selects word ops = false) ∨
      ∃ r ∈ rows, r.selects word ops = true ∧ r.build word ops = .error e' := by
  induction rows with
  | nil => simp [pickRow] at h; exact .inl ⟨h.symm, by simp⟩
  | cons r rows ih =>
    simp only [pickRow] at h
    split at h
    · exact .inr ⟨r, List.mem_cons_self .., ‹_›, h⟩
    · rename_i hn
      obtain ⟨h1, h2⟩ | ⟨r', hm, hs⟩ := ih h
      · exact .inl ⟨h1, by simpa using ⟨by simpa using hn, h2⟩⟩
      · exact .inr ⟨r', List.mem_cons_of_mem _ hm, hs⟩

/-- Codes of steps (R12): three bits and the eight names agree. -/
@[simp] theorem Step.ofCode_code (x : Step) : Step.ofCode x.code = x := by cases x <;> rfl

@[simp] theorem Step.code_ofCode (c : BitVec 3) : (Step.ofCode c).code = c := by revert c; decide

@[simp] theorem Direction.ofBit_bit (d : Direction) : Direction.ofBit d.bit = d := by cases d <;> rfl

@[simp] theorem Direction.bit_ofBit (b : Bool) : (Direction.ofBit b).bit = b := by cases b <;> rfl

/-- No byte 0 selects two rows of the command table (R66, R67). -/
theorem commandRows_disjoint :
    ∀ b : Byte, (commandRows.filter fun r => r.selects b []).length = 1 := by decide +kernel

/-- The rows of the command table are selected by byte 0 alone. -/
theorem commandRows_unconditional : ∀ r ∈ commandRows, r.cond = fun _ => true := by
  intro r hm
  simp only [commandRows, List.mem_append, List.mem_cons, List.not_mem_nil, or_false] at hm
  rcases hm with (rfl|rfl|rfl|rfl|rfl)|(rfl|rfl|rfl|rfl|rfl|rfl|rfl|rfl|rfl|rfl|rfl|rfl) <;> rfl

/-- A key selects at most one row of the sequencer's table, and exactly one unless it is the receive key with nothing
left to store (R70, R71). -/
theorem eventRows_disjoint : ∀ k : BitVec 6, ∀ rem ∈ [0#8, 1#8, 2#8],
    (eventRows.filter fun r => r.selects k rem).length =
      if k &&& 0x2F#6 = 0x06#6 ∧ rem = 0#8 then 0 else 1 := by decide +kernel

/-- No symbol selects two port operations (R72). -/
theorem portRows_disjoint :
    ∀ w : BitVec 12, (portRows.filter fun r => r.selects w ()).length ≤ 1 := by decide +kernel

/-- The operation field as R61 slices it and as the length rule masks it. -/
theorem opField_eq (b0 : Byte) : (b0 &&& 0x07#8).toNat = (b0.extractLsb' 0 3).toNat := by
  revert b0; decide +kernel

/-- The length R62 computes is the packet's length exactly when the operands fit. -/
theorem packetLength_eq_iff (b0 : Byte) (ops : List Byte) :
    packetLength b0 ops = some (1 + ops.length) ↔ operandsFit (b0.extractLsb' 0 3) ops = true := by
  unfold packetLength operandsFit
  rw [opField_eq]
  generalize (b0.extractLsb' 0 3).toNat = op
  match op with
  | 0 => cases ops <;> simp
  | 1 =>
    match ops with
    | [] => simp
    | [_] => simp
    | _ :: len :: data => simp; omega
  | 2 => simp; omega
  | 3 => simp; omega
  | 4 =>
    match ops with
    | [] => simp
    | [_] => simp
    | [_, _] => simp
    | _ :: _ :: len :: data => simp; omega
  | n + 5 => simp

/-- A packet with a first byte: the length check, then the row. -/
theorem decodePacket_cons (b0 : Byte) (ops : List Byte) :
    decodePacket (b0 :: ops) =
      if operandsFit (b0.extractLsb' 0 3) ops then decodeCommand b0 ops else .error .malformed := by
  simp only [decodePacket, packetLength_eq_iff]

/-- A byte 0 whose operands fit stands for a command: no packet of the right length is rejected (R66, R67). -/
theorem decodeCommand_total {b0 : Byte} {ops : List Byte} (h : operandsFit (b0.extractLsb' 0 3) ops = true) :
    ∃ i, decodeCommand b0 ops = .ok i := by
  cases hd : decodeCommand b0 ops with
  | ok i => exact ⟨i, rfl⟩
  | error e =>
    exfalso
    obtain ⟨-, hn⟩ | ⟨r, hm, hs, hb⟩ := pickRow_error hd
    · have h1 := commandRows_disjoint b0
      have h2 : commandRows.filter (fun r => r.selects b0 []) = [] := by
        refine List.filter_eq_nil_iff.2 fun r hr => ?_
        have := hn r hr
        have hc : r.cond = fun _ => true := commandRows_unconditional r hr
        simp only [Row.selects, hc] at this ⊢
        simp [this]
      rw [h2] at h1
      cases h1
    · simp only [commandRows, List.mem_append, List.mem_cons, List.not_mem_nil, or_false] at hm
      rcases hm with (rfl|rfl|rfl|rfl|rfl)|(rfl|rfl|rfl|rfl|rfl|rfl|rfl|rfl|rfl|rfl|rfl|rfl) <;>
        simp only [Row.selects, Bool.and_true, beq_iff_eq, reduceCtorEq] at hs hb
      · have e : b0.extractLsb' 0 3 = 1 := by clear h hd hb; revert b0; decide +kernel
        rw [e] at h
        match ops, h, hb with
        | [], h, _ => simp [operandsFit] at h
        | [_], h, _ => simp [operandsFit] at h
        | _ :: _ :: _, _, hb => simp at hb
      · have e : b0.extractLsb' 0 3 = 2 := by clear h hd hb; revert b0; decide +kernel
        rw [e] at h
        match ops, h, hb with
        | [], h, _ => simp [operandsFit] at h
        | [_], h, _ => simp [operandsFit] at h
        | [_, _], _, hb => simp at hb
        | _ :: _ :: _ :: _, h, _ => simp [operandsFit] at h
      · have e : b0.extractLsb' 0 3 = 3 := by clear h hd hb; revert b0; decide +kernel
        rw [e] at h
        match ops, h, hb with
        | [], h, _ => simp [operandsFit] at h
        | [_], h, _ => simp [operandsFit] at h
        | [_, _], h, _ => simp [operandsFit] at h
        | [_, _, _], _, hb => simp at hb
        | _ :: _ :: _ :: _ :: _, h, _ => simp [operandsFit] at h
      · have e : b0.extractLsb' 0 3 = 4 := by clear h hd hb; revert b0; decide +kernel
        rw [e] at h
        match ops, h, hb with
        | [], h, _ => simp [operandsFit] at h
        | [_], h, _ => simp [operandsFit] at h
        | [_, _], h, _ => simp [operandsFit] at h
        | _ :: _ :: _ :: _, _, hb => simp at hb

/-- The sequencer's decoder has one reason to reject a key (R71). -/
theorem decodeEvent_error {key : BitVec 6} {rem : Byte} {e : Reject} (h : decodeEvent key rem = .error e) :
    e = .noEventRow := by
  obtain ⟨h, -⟩ | ⟨r, hm, -, hb⟩ := pickRow_error h
  · exact h
  · simp only [eventRows, List.mem_append, List.mem_cons, List.not_mem_nil, or_false] at hm
    rcases hm with (rfl|rfl|rfl|rfl|rfl|rfl|rfl)|(rfl|rfl|rfl|rfl|rfl|rfl|rfl) <;> cases hb

end Sys2Proof
end

