-- ==== Sys2Proof/Laws/PerInstr.lean ====
section
/-! SUPPORT. One lemma per constructor: the first word of an instruction's code is the one its row of the opcode table
gives, `(word AND mask) = match` (R66, R67, R70 to R73). -/

namespace Sys2Proof.Laws

open Sys2Proof
open Sys2Proof.Machine

/-- The word a row's mask is laid on: byte 0 of a packet, the dispatch key, or the symbol (R66, R70, R72, R73). -/
def firstWord : Code → Nat
  | .packet bytes => match bytes with
    | [] => 0
    | b0 :: _ => b0.toNat
  | .event key _ => key.toNat
  | .port sym => sym.toNat
  | .wire sym => sym.toNat

/-- The mask and the match of the row of the opcode table that a constructor stands for. -/
def rowOf : Instr → Nat × Nat
  | .init => (0xFF, 0x00)
  | .write .. => (0xE7, 0x01)
  | .read .. => (0xEF, 0x02)
  | .memread .. => (0xFF, 0x03)
  | .memwrite .. => (0xFF, 0x04)
  | .writeThenRead .. => (0xE7, 0x05)
  | .reservedOp67 .. => (0xE6, 0x06)
  | .reservedZero7 .. => (0x80, 0x80)
  | .reservedZero6 .. => (0xC0, 0x40)
  | .reservedZero5 .. => (0xE0, 0x20)
  | .reservedInitNs .. => (0xEF, 0x08)
  | .reservedInitRs .. => (0xFF, 0x10)
  | .reservedReadNs .. => (0xEF, 0x0A)
  | .reservedMemreadNs .. => (0xEF, 0x0B)
  | .reservedMemreadRs .. => (0xFF, 0x13)
  | .reservedMemwriteNs .. => (0xEF, 0x0C)
  | .reservedMemwriteRs .. => (0xFF, 0x14)
  | .evArbl .. => (0x20, 0x20)
  | .evNackHeader .. => (0x3E, 0x14)
  | .evNackData => (0x3F, 0x17)
  | .evNackSent => (0x3F, 0x19)
  | .evHdrW => (0x3F, 0x05)
  | .evHdrR => (0x3F, 0x04)
  | .evTx => (0x3F, 0x07)
  | .evRxMore .. => (0x2F, 0x06)
  | .evRxLast .. => (0x2F, 0x06)
  | .evSent => (0x3F, 0x09)
  | .evIdle .. => (0x2C, 0x00)
  | .evIllegalSentRead .. => (0x2F, 0x08)
  | .evIllegalCode5 .. => (0x2E, 0x0A)
  | .evIllegalCode67 .. => (0x2C, 0x0C)
  | .clrEvent => (0xFFF, 0x000)
  | .start => (0xFFF, 0x100)
  | .restart => (0xFFF, 0x200)
  | .stop => (0xFFF, 0x300)
  | .setTx .. => (0xFFE, 0x400)
  | .setAck .. => (0xFFE, 0x500)
  | .writeData .. => (0xF00, 0x600)
  | .readData => (0xFFF, 0x700)
  | .wireS => (0xFFFF, 0x1000)
  | .wireSr => (0xFFFF, 0x2000)
  | .wireP => (0xFFFF, 0x3000)
  | .wireT .. => (0xFE00, 0x4000)
  | .wireR .. => (0xFE00, 0x5000)

/-- The code of the instruction is selected by its own row. -/
def TableRow.Statement (i : Instr) : Prop := firstWord (encode i) &&& (rowOf i).1 = (rowOf i).2

theorem TableRow.init : Statement .init := by
  dsimp only [Statement, encode, firstWord, rowOf]
  decide

theorem TableRow.write (ns rs : Bool) (addr : Byte) (data : List Byte) : Statement (.write ns rs addr data) := by
  dsimp only [Statement, encode, firstWord, rowOf]
  cases ns <;> cases rs <;> decide

theorem TableRow.read (rs : Bool) (addr len : Byte) : Statement (.read rs addr len) := by
  dsimp only [Statement, encode, firstWord, rowOf]
  cases rs <;> decide

theorem TableRow.memread (addr maddr len : Byte) : Statement (.memread addr maddr len) := by
  dsimp only [Statement, encode, firstWord, rowOf]
  decide

theorem TableRow.memwrite (addr maddr : Byte) (data : List Byte) : Statement (.memwrite addr maddr data) := by
  dsimp only [Statement, encode, firstWord, rowOf]
  decide

theorem TableRow.writeThenRead (ns rs : Bool) (ops : List Byte) : Statement (.writeThenRead ns rs ops) := by
  dsimp only [Statement, encode, firstWord, rowOf]
  cases ns <;> cases rs <;> decide

theorem TableRow.reservedOp67 (low ns rs : Bool) (ops : List Byte) : Statement (.reservedOp67 low ns rs ops) := by
  dsimp only [Statement, encode, firstWord, rowOf]
  cases low <;> cases ns <;> cases rs <;> decide

theorem TableRow.reservedZero7 (low : BitVec 7) (ops : List Byte) : Statement (.reservedZero7 low ops) := by
  have h : ∀ low : BitVec 7, (1#1 ++ low : BitVec 8).toNat &&& 0x80 = 0x80 := by decide +kernel
  exact h low

theorem TableRow.reservedZero6 (low : BitVec 6) (ops : List Byte) : Statement (.reservedZero6 low ops) := by
  have h : ∀ low : BitVec 6, (1#2 ++ low : BitVec 8).toNat &&& 0xC0 = 0x40 := by decide +kernel
  exact h low

theorem TableRow.reservedZero5 (low : BitVec 5) (ops : List Byte) : Statement (.reservedZero5 low ops) := by
  have h : ∀ low : BitVec 5, (1#3 ++ low : BitVec 8).toNat &&& 0xE0 = 0x20 := by decide +kernel
  exact h low

theorem TableRow.reservedInitNs (rs : Bool) (ops : List Byte) : Statement (.reservedInitNs rs ops) := by
  dsimp only [Statement, encode, firstWord, rowOf]
  cases rs <;> decide

theorem TableRow.reservedInitRs (ops : List Byte) : Statement (.reservedInitRs ops) := by
  dsimp only [Statement, encode, firstWord, rowOf]
  decide

theorem TableRow.reservedReadNs (rs : Bool) (ops : List Byte) : Statement (.reservedReadNs rs ops) := by
  dsimp only [Statement, encode, firstWord, rowOf]
  cases rs <;> decide

theorem TableRow.reservedMemreadNs (rs : Bool) (ops : List Byte) : Statement (.reservedMemreadNs rs ops) := by
  dsimp only [Statement, encode, firstWord, rowOf]
  cases rs <;> decide

theorem TableRow.reservedMemreadRs (ops : List Byte) : Statement (.reservedMemreadRs ops) := by
  dsimp only [Statement, encode, firstWord, rowOf]
  decide

theorem TableRow.reservedMemwriteNs (rs : Bool) (ops : List Byte) : Statement (.reservedMemwriteNs rs ops) := by
  dsimp only [Statement, encode, firstWord, rowOf]
  cases rs <;> decide

theorem TableRow.reservedMemwriteRs (ops : List Byte) : Statement (.reservedMemwriteRs ops) := by
  dsimp only [Statement, encode, firstWord, rowOf]
  decide

theorem TableRow.evArbl (nack : Bool) (step : Step) (dir : Direction) : Statement (.evArbl nack step dir) := by
  dsimp only [Statement, encode, firstWord, rowOf]
  cases nack <;> cases step <;> cases dir <;> decide

theorem TableRow.evNackHeader (dir : Direction) : Statement (.evNackHeader dir) := by
  dsimp only [Statement, encode, firstWord, rowOf]
  cases dir <;> decide

theorem TableRow.evNackData : Statement .evNackData := by
  dsimp only [Statement, encode, firstWord, rowOf]
  decide

theorem TableRow.evNackSent : Statement .evNackSent := by
  dsimp only [Statement, encode, firstWord, rowOf]
  decide

theorem TableRow.evHdrW : Statement .evHdrW := by
  dsimp only [Statement, encode, firstWord, rowOf]
  decide

theorem TableRow.evHdrR : Statement .evHdrR := by
  dsimp only [Statement, encode, firstWord, rowOf]
  decide

theorem TableRow.evTx : Statement .evTx := by
  dsimp only [Statement, encode, firstWord, rowOf]
  decide

theorem TableRow.evRxMore (nack : Bool) : Statement (.evRxMore nack) := by
  dsimp only [Statement, encode, firstWord, rowOf]
  cases nack <;> decide

theorem TableRow.evRxLast (nack : Bool) : Statement (.evRxLast nack) := by
  dsimp only [Statement, encode, firstWord, rowOf]
  cases nack <;> decide

theorem TableRow.evSent : Statement .evSent := by
  dsimp only [Statement, encode, firstWord, rowOf]
  decide

theorem TableRow.evIdle (nack ready : Bool) (dir : Direction) : Statement (.evIdle nack ready dir) := by
  dsimp only [Statement, encode, firstWord, rowOf]
  cases nack <;> cases ready <;> cases dir <;> decide

theorem TableRow.evIllegalSentRead (nack : Bool) : Statement (.evIllegalSentRead nack) := by
  dsimp only [Statement, encode, firstWord, rowOf]
  cases nack <;> decide

theorem TableRow.evIllegalCode5 (nack : Bool) (dir : Direction) : Statement (.evIllegalCode5 nack dir) := by
  dsimp only [Statement, encode, firstWord, rowOf]
  cases nack <;> cases dir <;> decide

theorem TableRow.evIllegalCode67 (nack low : Bool) (dir : Direction) : Statement (.evIllegalCode67 nack low dir) := by
  dsimp only [Statement, encode, firstWord, rowOf]
  cases nack <;> cases low <;> cases dir <;> decide

theorem TableRow.clrEvent : Statement .clrEvent := by
  dsimp only [Statement, encode, firstWord, rowOf]
  decide

theorem TableRow.start : Statement .start := by
  dsimp only [Statement, encode, firstWord, rowOf]
  decide

theorem TableRow.restart : Statement .restart := by
  dsimp only [Statement, encode, firstWord, rowOf]
  decide

theorem TableRow.stop : Statement .stop := by
  dsimp only [Statement, encode, firstWord, rowOf]
  decide

theorem TableRow.setTx (b : Bool) : Statement (.setTx b) := by
  dsimp only [Statement, encode, firstWord, rowOf]
  cases b <;> decide

theorem TableRow.setAck (a : Bool) : Statement (.setAck a) := by
  dsimp only [Statement, encode, firstWord, rowOf]
  cases a <;> decide

theorem TableRow.writeData (v : Byte) : Statement (.writeData v) := by
  revert v; unfold Statement; decide +kernel

theorem TableRow.readData : Statement .readData := by
  dsimp only [Statement, encode, firstWord, rowOf]
  decide

theorem TableRow.wireS : Statement .wireS := by
  dsimp only [Statement, encode, firstWord, rowOf]
  decide

theorem TableRow.wireSr : Statement .wireSr := by
  dsimp only [Statement, encode, firstWord, rowOf]
  decide

theorem TableRow.wireP : Statement .wireP := by
  dsimp only [Statement, encode, firstWord, rowOf]
  decide

theorem TableRow.wireT (v : Byte) (a : Bool) : Statement (.wireT v a) := by
  revert v a; unfold Statement; decide +kernel

theorem TableRow.wireR (v : Byte) (a : Bool) : Statement (.wireR v a) := by
  revert v a; unfold Statement; decide +kernel

end Sys2Proof.Laws
end

