-- ==== Sys2Proof/Laws/Sequencer.lean ====
section
/-! SUPPORT. Inversion of the sequencer's cases: what is known of the state before and after, when a case goes on.
Later proofs cite these and unfold no case. -/

namespace Sys2Proof.Machine

open Sys2Proof

/-- The port after a bus error: the event taken, the bus released. -/
def stoppedPort (p : Port) : Port :=
  { p with
    evFlag := false, arbLost := false, mst := false, inflight := if p.mst then .none else p.inflight }

/-- The P that a STOP puts on the wire, if the bus was owned. -/
def stopWire (p : Port) : List WireSym := if p.mst then [.p] else []

/-- The context after the transmit sub-path from a step `p` (R83, R85). -/
def sentCtx (p : Step) (c : Context) : Context :=
  { c with
    txCounter := c.txCounter + 1
    step := if c.txCounter + 1 = c.txLength then .dataSent else p }

/-- The byte the transmit sub-path hands over. -/
def nextByte (c : Context) : Byte := c.txBuffer.read c.txCounter.toNat

/-- The context after a received byte is stored (R86, R87), with the step it leaves. -/
def storedCtx (p : Step) (v : Byte) (c : Context) : Context :=
  { c with
    rxBuffer := c.rxBuffer.write c.rxCounter.toNat v
    rxCounter := c.rxCounter + 1
    step := p }

/-- The transmit sub-path needs the bus owned in transmit mode with nothing in flight (R127). -/
def canSend (p : Port) : Prop := p.mst = true ∧ p.txMode = true ∧ p.inflight = .none

/-- A data-register read is no misuse (R128). -/
def canRead (p : Port) : Prop := p.mst = false ∨ p.txMode = true ∨ p.inflight = .none

/-- What a data-register read leaves in flight (R128). -/
def readInflight (p : Port) : Inflight := if p.mst = true ∧ p.txMode = false then .rxb else p.inflight

theorem raise_acknowledged (s : State) : raiseBusError (acknowledged s) =
    .next (afterEvent s { s.ctx with step := .error } (stoppedPort s.port) [.stop] (stopWire s.port)) := by
  simp [raiseBusError_eq, acknowledged, logPort, afterEvent, stoppedPort, stopWire]

theorem evArbl_next {s t : State} {n : Bool} {p : Step} {d : Direction} (h : execEvArbl n p d s = .next t) :
    eventPending s ∧ keyIs true n p d s ∧
      t = afterEvent s { s.ctx with step := .error } (stoppedPort s.port) [.stop] (stopWire s.port) := by
  obtain ⟨h1, h2, -, h3⟩ := seqCase_eq_next.1 h
  rw [raise_acknowledged] at h3
  exact ⟨h1, h2, by cases h3; rfl⟩

theorem evNackHeader_next {s t : State} {d : Direction} (h : execEvNackHeader d s = .next t) :
    eventPending s ∧ keyIs false true .headerSent d s ∧
      t = afterEvent s { s.ctx with step := .error } (stoppedPort s.port) [.stop] (stopWire s.port) := by
  obtain ⟨h1, h2, -, h3⟩ := seqCase_eq_next.1 h
  rw [raise_acknowledged] at h3
  exact ⟨h1, h2, by cases h3; rfl⟩

theorem evNackData_next {s t : State} (h : execEvNackData s = .next t) :
    eventPending s ∧ keyIs false true .dataTransmission .write s ∧
      t = afterEvent s { s.ctx with step := .error } (stoppedPort s.port) [.stop] (stopWire s.port) := by
  obtain ⟨h1, h2, -, h3⟩ := seqCase_eq_next.1 h
  rw [raise_acknowledged] at h3
  exact ⟨h1, h2, by cases h3; rfl⟩

theorem evNackSent_next {s t : State} (h : execEvNackSent s = .next t) :
    eventPending s ∧ keyIs false true .dataSent .write s ∧
      t = afterEvent s { s.ctx with step := .error } (stoppedPort s.port) [.stop] (stopWire s.port) := by
  obtain ⟨h1, h2, -, h3⟩ := seqCase_eq_next.1 h
  rw [raise_acknowledged] at h3
  exact ⟨h1, h2, by cases h3; rfl⟩

/-- The transmit sub-path from an acknowledged event. -/
theorem sendNext_acknowledged {s t : State} {c : Context} (p : Step) (hc : c = { s.ctx with step := p })
    (h : sendNext { acknowledged s with ctx := c } = .next t) :
    canSend s.port ∧ t = afterEvent s (sentCtx p s.ctx)
      { s.port with
        evFlag := false, arbLost := false, dataReg := nextByte s.ctx, inflight := .txb (nextByte s.ctx) }
      [.writeData (nextByte s.ctx)] [] := by
  subst hc
  obtain ⟨h1, h2, h3, h4⟩ := sendNext_frame h
  rw [sendNext_eq h1 h2 h3 h4] at h
  cases h
  exact ⟨⟨h2, h3, h4⟩, by simp [afterEvent, sentCtx, nextByte, acknowledged, logPort]⟩

theorem evHdrW_next {s t : State} (h : execEvHdrW s = .next t) :
    eventPending s ∧ keyIs false false .headerSent .write s ∧ canSend s.port ∧
      t = afterEvent s (sentCtx .dataTransmission s.ctx)
        { s.port with
          evFlag := false, arbLost := false, dataReg := nextByte s.ctx, inflight := .txb (nextByte s.ctx) }
        [.writeData (nextByte s.ctx)] [] := by
  obtain ⟨h1, h2, -, h3⟩ := seqCase_eq_next.1 h
  exact ⟨h1, h2, sendNext_acknowledged _ rfl h3⟩

theorem evTx_next {s t : State} (h : execEvTx s = .next t) :
    eventPending s ∧ keyIs false false .dataTransmission .write s ∧ canSend s.port ∧
      t = afterEvent s (sentCtx .dataTransmission s.ctx)
        { s.port with
          evFlag := false, arbLost := false, dataReg := nextByte s.ctx, inflight := .txb (nextByte s.ctx) }
        [.writeData (nextByte s.ctx)] [] := by
  obtain ⟨h1, h2, -, h3⟩ := seqCase_eq_next.1 h
  refine ⟨h1, h2, sendNext_acknowledged (c := s.ctx) .dataTransmission ?_ h3⟩
  rw [← h2.2.2.1]

theorem evHdrR_next {s t : State} (h : execEvHdrR s = .next t) :
    eventPending s ∧ keyIs false false .headerSent .read s ∧ (s.port.mst = false ∨ s.port.inflight = .none) ∧
      t = afterEvent s { s.ctx with step := .dataTransmission }
        { s.port with
          evFlag := false, arbLost := false, txMode := false, ackCtl := decide (s.ctx.rxLength = 1)
          inflight := if s.port.mst then .rxb else s.port.inflight }
        [.setTx false, .setAck (decide (s.ctx.rxLength = 1)), .readData] [] := by
  obtain ⟨h1, h2, -, h3⟩ := seqCase_eq_next.1 h
  refine ⟨h1, h2, ?_⟩
  simp only [emit_setTx, emit_setAck, andThen_next] at h3
  obtain ⟨u, hu, h4⟩ := andThen_eq_next.1 h3
  have hc : s.port.mst = false ∨ s.port.inflight = .none := by
    obtain ⟨v, hv, -⟩ := andThen_eq_next.1 hu
    simp only [applyOp, readDataRegister] at hv
    split at hv
    · split at hv
      · rename_i hi; exact .inr hi
      · cases hv
    · rename_i hn; exact .inl (by simpa [logPort, acknowledged] using hn)
  rw [emit_readData (by rcases hc with hc | hc; exacts [.inl hc, .inr (.inr hc)])] at hu
  cases hu; cases h4
  exact ⟨hc, by simp [afterEvent, acknowledged, logPort]⟩

theorem evRxMore_next {s t : State} {n : Bool} (h : execEvRxMore n s = .next t) :
    eventPending s ∧ keyIs false n .dataTransmission .read s ∧ 2 ≤ s.ctx.rem.toNat ∧ canRead s.port ∧
      t = afterEvent s (storedCtx .dataTransmission s.port.dataReg s.ctx)
        { s.port with
          evFlag := false, arbLost := false, ackCtl := decide (s.ctx.rem.toNat = 2)
          inflight := readInflight s.port }
        [.setAck (decide (s.ctx.rem.toNat = 2)), .readData] [] := by
  obtain ⟨h1, h2, hc, h3⟩ := seqCase_eq_next.1 h
  refine ⟨h1, h2, by simpa using hc, ?_⟩
  simp only [emit_setAck, andThen_next] at h3
  obtain ⟨h4, h5⟩ := storeReceived_frame h3
  rw [storeReceived_eq h4 h5] at h3
  cases h3
  refine ⟨h5, ?_⟩
  simp [afterEvent, storedCtx, readInflight, acknowledged, logPort, show s.ctx.step = .dataTransmission from h2.2.2.1]
  rfl

theorem evRxLast_next {s t : State} {n : Bool} (h : execEvRxLast n s = .next t) :
    eventPending s ∧ keyIs false n .dataTransmission .read s ∧ s.ctx.rem.toNat = 1 ∧
      (s.ctx.noStopFlag = false ∧
          t = afterEvent s (storedCtx .ready s.port.dataReg s.ctx) (stoppedPort s.port)
            [.stop, .readData] (stopWire s.port) ∨
        s.ctx.noStopFlag = true ∧ canRead s.port ∧
          t = afterEvent s (storedCtx .ready s.port.dataReg s.ctx)
            { s.port with evFlag := false, arbLost := false, inflight := readInflight s.port } [.readData] []) := by
  obtain ⟨h1, h2, hc, h3⟩ := seqCase_eq_next.1 h
  refine ⟨h1, h2, by simpa using hc, ?_⟩
  simp only [stopUnlessHeld, acknowledged_ctx] at h3
  cases hn : s.ctx.noStopFlag with
  | false =>
    simp only [hn, Bool.false_eq_true, if_false, emit_stop, andThen_next] at h3
    obtain ⟨u, hu, h4⟩ := andThen_eq_next.1 h3
    obtain ⟨h5, h6⟩ := storeReceived_frame hu
    rw [storeReceived_eq h5 h6] at hu
    cases hu; cases h4
    exact .inl ⟨rfl, by simp [afterEvent, storedCtx, stoppedPort, stopWire, acknowledged, logPort]; exact ⟨rfl, rfl⟩⟩
  | true =>
    simp only [hn, if_true, andThen_next] at h3
    obtain ⟨u, hu, h4⟩ := andThen_eq_next.1 h3
    obtain ⟨h5, h6⟩ := storeReceived_frame hu
    rw [storeReceived_eq h5 h6] at hu
    cases hu; cases h4
    exact .inr ⟨rfl, h6, by simp [afterEvent, storedCtx, readInflight, acknowledged, logPort]; rfl⟩

theorem evSent_next {s t : State} (h : execEvSent s = .next t) :
    eventPending s ∧ keyIs false false .dataSent .write s ∧
      (s.ctx.noStopFlag = false ∧
          t = afterEvent s { s.ctx with step := .ready } { stoppedPort s.port with txMode := false }
            [.setTx false, .stop] (stopWire s.port) ∨
        s.ctx.noStopFlag = true ∧
          t = afterEvent s { s.ctx with step := .ready }
            { s.port with evFlag := false, arbLost := false, txMode := false } [.setTx false] []) := by
  obtain ⟨h1, h2, -, h3⟩ := seqCase_eq_next.1 h
  refine ⟨h1, h2, ?_⟩
  simp only [emit_setTx, andThen_next, stopUnlessHeld] at h3
  rw [show (logPort (.setTx false)
    { acknowledged s with port := { (acknowledged s).port with txMode := false } }).ctx = s.ctx from rfl] at h3
  cases hn : s.ctx.noStopFlag with
  | false =>
    simp only [hn, Bool.false_eq_true, if_false, emit_stop, andThen_next] at h3
    cases h3
    exact .inl ⟨rfl, by simp [afterEvent, stoppedPort, stopWire, acknowledged, logPort]⟩
  | true =>
    simp only [hn, if_true, andThen_next] at h3
    cases h3
    exact .inr ⟨rfl, by simp [afterEvent, acknowledged, logPort]⟩

theorem evIdle_next {s t : State} {n r : Bool} {d : Direction} (h : execEvIdle n r d s = .next t) :
    eventPending s ∧ keyIs false n (if r then .ready else .error) d s ∧
      t = afterEvent s s.ctx { s.port with evFlag := false, arbLost := false } [] [] := by
  obtain ⟨h1, h2, -, h3⟩ := seqCase_eq_next.1 h
  cases h3
  exact ⟨h1, h2, by simp [afterEvent, acknowledged, logPort]⟩

/-- A turn of the sequencer that goes on runs one of the cases of format EV (R80). -/
theorem seqTurn_next {s t : State} (h : agentTurn .seq s = .next t) : ∃ i, formatOf i = .ev ∧ exec i s = .next t := by
  simp only [agentTurn, seqTurn] at h
  split at h
  swap
  · cases h
  simp only [fetchEvent] at h
  cases hd : decodeEvent s.key s.ctx.rem with
  | error e => cases e <;> simp [hd, runDecoded] at h
  | ok i =>
    simp only [hd, runDecoded] at h
    refine ⟨i, ?_, h⟩
    obtain ⟨r, hm, _, hb⟩ := pickRow_ok hd
    simp only [eventRows, List.mem_append, List.mem_cons, List.not_mem_nil, or_false] at hm
    rcases hm with (rfl | rfl | rfl | rfl | rfl | rfl | rfl) | (rfl | rfl | rfl | rfl | rfl | rfl | rfl) <;>
      (simp only [Except.ok.injEq] at hb; subst hb; rfl)

end Sys2Proof.Machine
end

