-- ==== Sys2Proof/Tests/Slice0.lean ====
section
/-! SUPPORT. The model's own tests: ill-formed terms that the check refuses, a word of every row written out from the
spec's tables, single steps of the spec's vectors (`spec/95_test_vectors.md`), and for every statement with hypotheses a
witness that meets them. -/

namespace Sys2Proof.Tests

open Sys2Proof
open Sys2Proof.Machine

/-! ## Well-formedness: an ill-formed term for each check -/

/-- 256 data bytes do not fit the LEN byte (R64). -/
theorem test_wf_refuses_write_of_256 : (Instr.write false false 0x50 (List.replicate 256 0)).wf = false := by
  rw [Instr.wf, List.length_replicate]; decide

theorem test_wf_refuses_memwrite_of_256 : (Instr.memwrite 0x50 0x10 (List.replicate 256 0)).wf = false := by
  rw [Instr.wf, List.length_replicate]; decide

theorem test_wf_admits_write_of_255 : (Instr.write false false 0x50 (List.replicate 255 0)).wf = true := by
  rw [Instr.wf, List.length_replicate]; decide

/-- Each reserved command with operand bytes its `op` does not compute (R62). -/
theorem test_wf_refuses_reserved_operands :
    (Instr.reservedZero7 0b0000000 [0x00]).wf = false ∧
    (Instr.reservedZero6 0b000001 [0x50, 0x02, 0x10]).wf = false ∧
    (Instr.reservedZero5 0b00010 [0x50]).wf = false ∧
    (Instr.reservedInitNs false [0x00]).wf = false ∧
    (Instr.reservedInitRs [0x00]).wf = false ∧
    (Instr.reservedReadNs true [0x50]).wf = false ∧
    (Instr.reservedMemreadNs false [0x50, 0x10]).wf = false ∧
    (Instr.reservedMemreadRs []).wf = false ∧
    (Instr.reservedMemwriteNs false [0x50, 0x10, 0x01]).wf = false ∧
    (Instr.reservedMemwriteRs [0x50, 0x10, 0x00, 0xAA]).wf = false := by decide

/-! ## Decoding: one word of every row, written out from R61 to R73 -/

theorem test_decode_init : decode (.packet [0b00000000#8]) = .ok (.init) := by decide

theorem test_decode_write :
    decode (.packet [0b00001001#8, 0x50#8, 0x02#8, 0x10#8, 0xAA#8]) =
      .ok (.write true false 0x50#8 [0x10#8, 0xAA#8]) := by decide

theorem test_decode_read :
    decode (.packet [0b00010010#8, 0x50#8, 0x02#8]) = .ok (.read true 0x50#8 0x02#8) := by decide

theorem test_decode_memread :
    decode (.packet [0b00000011#8, 0x50#8, 0x10#8, 0x01#8]) = .ok (.memread 0x50#8 0x10#8 0x01#8) := by decide

theorem test_decode_memwrite :
    decode (.packet [0b00000100#8, 0x50#8, 0x10#8, 0x01#8, 0xAA#8]) =
      .ok (.memwrite 0x50#8 0x10#8 [0xAA#8]) := by decide

theorem test_decode_writeThenRead :
    decode (.packet [0b00010101#8, 0x50#8, 0x01#8]) = .ok (.writeThenRead false true [0x50#8, 0x01#8]) := by decide

theorem test_decode_reservedOp67 :
    decode (.packet [0b00001110#8]) = .ok (.reservedOp67 false true false []) := by decide

theorem test_decode_reservedZero7 :
    decode (.packet [0b10100000#8]) = .ok (.reservedZero7 0b0100000#7 []) := by decide

theorem test_decode_reservedZero6 :
    decode (.packet [0b01000010#8, 0x50#8, 0x01#8]) = .ok (.reservedZero6 0b000010#6 [0x50#8, 0x01#8]) := by decide

theorem test_decode_reservedZero5 :
    decode (.packet [0b00100010#8, 0x50#8, 0x01#8]) = .ok (.reservedZero5 0b00010#5 [0x50#8, 0x01#8]) := by decide

theorem test_decode_reservedInitNs : decode (.packet [0b00011000#8]) = .ok (.reservedInitNs true []) := by decide

theorem test_decode_reservedInitRs : decode (.packet [0b00010000#8]) = .ok (.reservedInitRs []) := by decide

theorem test_decode_reservedReadNs :
    decode (.packet [0b00001010#8, 0x50#8, 0x01#8]) = .ok (.reservedReadNs false [0x50#8, 0x01#8]) := by decide

theorem test_decode_reservedMemreadNs :
    decode (.packet [0b00001011#8, 0x50#8, 0x10#8, 0x01#8]) =
      .ok (.reservedMemreadNs false [0x50#8, 0x10#8, 0x01#8]) := by decide

theorem test_decode_reservedMemreadRs :
    decode (.packet [0b00010011#8, 0x50#8, 0x10#8, 0x01#8]) =
      .ok (.reservedMemreadRs [0x50#8, 0x10#8, 0x01#8]) := by decide

theorem test_decode_reservedMemwriteNs :
    decode (.packet [0b00011100#8, 0x50#8, 0x10#8, 0x00#8]) =
      .ok (.reservedMemwriteNs true [0x50#8, 0x10#8, 0x00#8]) := by decide

theorem test_decode_reservedMemwriteRs :
    decode (.packet [0b00010100#8, 0x50#8, 0x10#8, 0x00#8]) =
      .ok (.reservedMemwriteRs [0x50#8, 0x10#8, 0x00#8]) := by decide

theorem test_decode_evArbl : decode (.event 0b100111#6 0) = .ok (.evArbl false .dataTransmission .write) := by decide

theorem test_decode_evNackHeader : decode (.event 0b010100#6 0) = .ok (.evNackHeader .read) := by decide

theorem test_decode_evNackData : decode (.event 0b010111#6 0) = .ok (.evNackData) := by decide

theorem test_decode_evNackSent : decode (.event 0b011001#6 0) = .ok (.evNackSent) := by decide

theorem test_decode_evHdrW : decode (.event 0b000101#6 0) = .ok (.evHdrW) := by decide

theorem test_decode_evHdrR : decode (.event 0b000100#6 0) = .ok (.evHdrR) := by decide

theorem test_decode_evTx : decode (.event 0b000111#6 0) = .ok (.evTx) := by decide

theorem test_decode_evRxMore : decode (.event 0b000110#6 2) = .ok (.evRxMore false) := by decide

theorem test_decode_evRxLast : decode (.event 0b010110#6 1) = .ok (.evRxLast true) := by decide

theorem test_decode_evSent : decode (.event 0b001001#6 0) = .ok (.evSent) := by decide

theorem test_decode_evIdle : decode (.event 0b010011#6 0) = .ok (.evIdle true true .write) := by decide

theorem test_decode_evIllegalSentRead : decode (.event 0b011000#6 0) = .ok (.evIllegalSentRead true) := by decide

theorem test_decode_evIllegalCode5 : decode (.event 0b001011#6 0) = .ok (.evIllegalCode5 false .write) := by decide

theorem test_decode_evIllegalCode67 :
    decode (.event 0b011110#6 0) = .ok (.evIllegalCode67 true true .read) := by decide

theorem test_decode_clrEvent : decode (.port 0x000#12) = .ok (.clrEvent) := by decide

theorem test_decode_start : decode (.port 0x100#12) = .ok (.start) := by decide

theorem test_decode_restart : decode (.port 0x200#12) = .ok (.restart) := by decide

theorem test_decode_stop : decode (.port 0x300#12) = .ok (.stop) := by decide

theorem test_decode_setTx : decode (.port 0x401#12) = .ok (.setTx true) := by decide

theorem test_decode_setAck : decode (.port 0x501#12) = .ok (.setAck true) := by decide

theorem test_decode_writeData : decode (.port 0x6A1#12) = .ok (.writeData 0xA1#8) := by decide

theorem test_decode_readData : decode (.port 0x700#12) = .ok (.readData) := by decide

theorem test_decode_wireS : decode (.wire 0x1000#16) = .ok (.wireS) := by decide

theorem test_decode_wireSr : decode (.wire 0x2000#16) = .ok (.wireSr) := by decide

theorem test_decode_wireP : decode (.wire 0x3000#16) = .ok (.wireP) := by decide

theorem test_decode_wireT : decode (.wire 0x41A0#16) = .ok (.wireT 0xA0#8 true) := by decide

theorem test_decode_wireR : decode (.wire 0x5142#16) = .ok (.wireR 0x42#8 true) := by decide

/-- The spec's rejections: a packet of the wrong length (CV11), the receive key with nothing to store, a port code and a
wire kind that do not exist (R72, R73), a SET_TX operand that is neither 0 nor 1. -/
theorem test_decode_rejects :
    decode (.packet [0x01#8, 0x50#8, 0x02#8, 0x10#8]) = .error .malformed ∧
    decode (.packet []) = .error .malformed ∧
    decode (.event 0b000110#6 0) = .error .noEventRow ∧
    decode (.port 0x800#12) = .error .notAPortOperation ∧
    decode (.port 0x402#12) = .error .notAPortOperation ∧
    decode (.wire 0x6000#16) = .error .notAWireSymbol ∧
    decode (.wire 0x4200#16) = .error .notAWireSymbol := by decide

/-- The header vectors of R44: addresses 0x00, 0x29, 0x50 and 0x7F. -/
theorem test_header_vectors :
    header 0x00#7 false = 0x00 ∧ header 0x00#7 true = 0x01 ∧ header 0x29#7 false = 0x52 ∧
    header 0x29#7 true = 0x53 ∧ header 0x50#7 false = 0xA0 ∧ header 0x50#7 true = 0xA1 ∧
    header 0x7F#7 false = 0xFE ∧ header 0x7F#7 true = 0xFF := by decide

/-! ## Single steps of the spec's vectors -/

/-- What a next state shows; nothing of a stop. -/
def seen {α : Type} (f : State → α) : Result → Option α
  | .next t => some (f t)
  | .fault _ => none
  | .refused _ => none

/-- The fault of a step that ends in one. -/
def faultOf : Result → Option Fault
  | .next _ => none
  | .fault e => some e
  | .refused _ => none

/-- The refusal of a step that ends in one. -/
def refusalOf : Result → Option Refusal
  | .next _ => none
  | .fault _ => none
  | .refused e => some e

/-- "After INIT" of the vectors. -/
def ready : State :=
  { State.reset with ctx := { State.reset.ctx with step := .ready, initialised := true } }

/-- After INIT, with the bus held (vector HV1). -/
def held : State := { ready with port := { ready.port with mst := true } }

/-- A host in its spin with a command and a step. -/
def spinning (cmd : Command) (sub : Sub) (p : Step) (s : State) : State :=
  { s with ctx := { s.ctx with step := p }, host := { s.host with phase := .spin, cmd := cmd, sub := sub } }

/-- A packet presented to a state. -/
def given (bytes : List Byte) (s : State) : State := { s with inputs := [.packet bytes] }

/-- A hand-built context of the SV vectors, `txBuffer` = [1, 2, 3], with an event pending and the sequencer to move. -/
def sv (p : Step) (d : Direction) (len cnt : Byte) (noStop mst tx : Bool) (data : Byte) (arbl nack : Bool) : State :=
  { ready with
    ctx := { ready.ctx with
      step := p, direction := d, txBuffer := [(0, 1), (1, 2), (2, 3)], txLength := len, txCounter := cnt
      rxLength := len, rxCounter := cnt, noStopFlag := noStop }
    port := { ready.port with
      mst := mst, txMode := tx, dataReg := data, evFlag := true, arbLost := arbl, rxNack := nack }
    inputs := [.turn .seq] }

/-- What the SV vectors list: the step, both counters, the port operations, the wire. -/
def svSeen (t : State) : Step × Byte × List PortOp × List WireSym :=
  (t.ctx.step, t.ctx.txCounter, t.trace.port, t.trace.wire)

theorem test_sv1 :
    seen svSeen (step (sv .headerSent .write 3 0 false true true 0 false false)) =
      some (.dataTransmission, 1, [.clrEvent, .writeData 1], []) := by decide

theorem test_sv2 :
    seen svSeen (step (sv .headerSent .write 1 0 false true true 0 false false)) =
      some (.dataSent, 1, [.clrEvent, .writeData 1], []) := by decide

theorem test_sv3 :
    seen svSeen (step (sv .dataTransmission .write 3 1 false true true 0 false false)) =
      some (.dataTransmission, 2, [.clrEvent, .writeData 2], []) := by decide

theorem test_sv4 :
    seen svSeen (step (sv .dataTransmission .write 3 2 false true true 0 false false)) =
      some (.dataSent, 3, [.clrEvent, .writeData 3], []) := by decide

theorem test_sv5 :
    seen svSeen (step (sv .dataSent .write 2 2 false true true 0 false false)) =
      some (.ready, 2, [.clrEvent, .setTx false, .stop], [.p]) := by decide

theorem test_sv6 :
    seen svSeen (step (sv .dataSent .write 2 2 true true true 0 false false)) =
      some (.ready, 2, [.clrEvent, .setTx false], []) := by decide

theorem test_sv7 :
    seen svSeen (step (sv .dataSent .write 2 2 false true true 0 false true)) =
      some (.error, 2, [.clrEvent, .stop], [.p]) := by decide

theorem test_sv8 :
    seen svSeen (step (sv .dataTransmission .write 2 1 false true true 0 false true)) =
      some (.error, 1, [.clrEvent, .stop], [.p]) := by decide

theorem test_sv9 :
    seen svSeen (step (sv .headerSent .read 3 0 false true true 0 true true)) =
      some (.error, 0, [.clrEvent, .stop], [.p]) := by decide

theorem test_sv11 :
    seen svSeen (step (sv .ready .write 2 2 false false false 0 true false)) =
      some (.error, 2, [.clrEvent, .stop], []) := by decide

theorem test_sv13 :
    seen svSeen (step (sv .ready .write 0 0 false false false 0 false true)) =
      some (.ready, 0, [.clrEvent], []) := by decide

theorem test_sv16 :
    seen svSeen (step (sv .headerSent .read 2 0 false true true 0 false true)) =
      some (.error, 0, [.clrEvent, .stop], [.p]) := by decide

/-- What the receive vectors list beside: the buffer, the acknowledge control, the byte in flight. -/
def rxStored (t : State) : Step × Byte × Memory := (t.ctx.step, t.ctx.rxCounter, t.ctx.rxBuffer)

def rxPort (t : State) : Bool × Inflight × List PortOp := (t.port.ackCtl, t.port.inflight, t.trace.port)

theorem test_sv14 :
    seen rxStored (step (sv .headerSent .read 4 0 false true true 0x53 false false)) =
      some (.dataTransmission, 0, []) ∧
    seen rxPort (step (sv .headerSent .read 4 0 false true true 0x53 false false)) =
      some (false, .rxb, [.clrEvent, .setTx false, .setAck false, .readData]) := by decide

theorem test_sv15 :
    seen rxStored (step (sv .headerSent .read 1 0 false true true 0x53 false false)) =
      some (.dataTransmission, 0, []) ∧
    seen rxPort (step (sv .headerSent .read 1 0 false true true 0x53 false false)) =
      some (true, .rxb, [.clrEvent, .setTx false, .setAck true, .readData]) := by decide

theorem test_sv17 :
    seen rxStored (step (sv .dataTransmission .read 4 1 false true false 0x22 false false)) =
      some (.dataTransmission, 2, [(1, 0x22)]) ∧
    seen rxPort (step (sv .dataTransmission .read 4 1 false true false 0x22 false false)) =
      some (false, .rxb, [.clrEvent, .setAck false, .readData]) := by decide

theorem test_sv18 :
    seen rxStored (step (sv .dataTransmission .read 4 2 false true false 0x33 false false)) =
      some (.dataTransmission, 3, [(2, 0x33)]) ∧
    seen rxPort (step (sv .dataTransmission .read 4 2 false true false 0x33 false false)) =
      some (true, .rxb, [.clrEvent, .setAck true, .readData]) := by decide

theorem test_sv19 :
    seen rxStored (step (sv .dataTransmission .read 4 3 false true false 0x44 false true)) =
      some (.ready, 4, [(3, 0x44)]) ∧
    seen rxPort (step (sv .dataTransmission .read 4 3 false true false 0x44 false true)) =
      some (false, .none, [.clrEvent, .stop, .readData]) := by decide

theorem test_sv20 :
    seen rxStored (step (sv .dataTransmission .read 1 0 true true false 0x42 false true)) =
      some (.ready, 1, [(0, 0x42)]) ∧
    seen rxPort (step (sv .dataTransmission .read 1 0 true true false 0x42 false true)) =
      some (false, .rxb, [.clrEvent, .readData]) := by decide

/-- FV1 to FV5: ill-formed contexts fault, even with arbitration lost, and a misused port faults. -/
theorem test_fv1_to_fv5 :
    faultOf (step (sv .dataTransmission .write 2 2 false true true 0 false false)) = some .illFormedContext ∧
    faultOf (step (sv .dataSent .read 2 1 false true false 0 false false)) = some .illFormedContext ∧
    faultOf (step (sv .code5 .write 2 1 false true true 0 true false)) = some .illFormedContext ∧
    faultOf (step (sv .headerSent .read 0 0 false true true 0 false false)) = some .illFormedContext ∧
    faultOf (step (sv .headerSent .write 2 0 false true false 0 false false)) =
      some (.portMisuse .writeDataNotTransmitting) := by decide

/-- FV6 to FV8. -/
theorem test_fv6_to_fv8 :
    faultOf (exec .start held) = some (.portMisuse .startWhileOwned) ∧
    faultOf (exec .restart ready) = some (.portMisuse .restartWhileNotOwned) ∧
    faultOf (exec .readData { held with port := { held.port with inflight := .rxb } }) =
      some (.portMisuse .readDataWhileBusy) := by decide

/-- An operation's symbol driven directly. -/
def driven (sym : BitVec 12) (p : Port) : Result := step { ready with port := p, inputs := [.portOp sym] }

/-- OV1 to OV7. -/
theorem test_ov1_to_ov7 :
    seen (fun t => (t.port.evFlag, t.port.arbLost, t.port.rxNack))
      (driven 0x000 { ready.port with evFlag := true, arbLost := true, rxNack := true }) = some (false, false, true) ∧
    seen (fun t => (t.port.mst, t.trace.wire)) (driven 0x100 ready.port) = some (true, [.s]) ∧
    seen (fun t => (t.port.mst, t.trace.wire)) (driven 0x200 held.port) = some (true, [.sr]) ∧
    seen (fun t => (t.port, t.trace.wire)) (driven 0x300 { held.port with inflight := .rxb }) =
      some (ready.port, [.p]) ∧
    seen (fun t => (t.port, t.trace.wire, t.trace.port)) (driven 0x300 ready.port) =
      some (ready.port, [], [.stop]) ∧
    seen (fun t => t.port.txMode) (driven 0x401 ready.port) = some true ∧
    seen (fun t => t.port.ackCtl) (driven 0x501 ready.port) = some true := by decide

/-- OV8 to OV11. -/
theorem test_ov8_to_ov11 :
    seen (fun t => (t.port.dataReg, t.port.inflight)) (driven 0x6A0 { held.port with txMode := true }) =
      some (0xA0, .txb 0xA0) ∧
    seen (fun t => (t.port.dataReg, t.port.inflight)) (driven 0x700 { held.port with dataReg := 0x11 }) =
      some (0x11, .rxb) ∧
    seen (fun t => t.port) (driven 0x700 { ready.port with dataReg := 0x44 }) =
      some { ready.port with dataReg := 0x44 } ∧
    seen (fun t => t.port.inflight) (driven 0x700 { held.port with txMode := true }) = some .none := by decide

/-- The bus's step with a draw. -/
def onBus (p : Port) (d : BusDraw) : Result := step { ready with port := p, draws := [d], inputs := [.turn .bus] }

/-- BV1 to BV5. -/
theorem test_bv1_to_bv5 :
    seen (fun t => (t.trace.wire, t.port.rxNack, t.port.arbLost, t.port.evFlag, t.draws))
      (onBus { held.port with inflight := .txb 0xA0 } ⟨false, false, 0⟩) =
        some ([.t 0xA0 false], false, false, true, []) ∧
    seen (fun t => (t.trace.wire, t.port.rxNack))
      (onBus { held.port with inflight := .txb 0xA0 } ⟨true, false, 0⟩) = some ([.t 0xA0 true], true) ∧
    seen (fun t => (t.trace.wire, t.port.rxNack, t.port.dataReg))
      (onBus { held.port with inflight := .rxb, ackCtl := true } ⟨false, false, 0x42⟩) =
        some ([.r 0x42 true], true, 0x42) ∧
    seen (fun t => (t.trace.wire, t.port.arbLost))
      (onBus { held.port with inflight := .rxb } ⟨false, true, 0x02⟩) = some ([.r 0x02 false], true) ∧
    refusalOf (onBus ready.port ⟨false, false, 0⟩) = some (.notEnabled .bus) := by decide

/-- Wire symbols driven directly: T(A0,N), R(42,N), and the three conditions. -/
theorem test_wire_symbols :
    seen (fun t => (t.port.rxNack, t.port.evFlag, t.trace.wire))
      (step { held with
        port := { held.port with inflight := .txb 0xA0 }, draws := [BusDraw.ack], inputs := [.wire 0x41A0] }) =
      some (true, true, [.t 0xA0 true]) ∧
    seen (fun t => (t.port.dataReg, t.trace.wire))
      (step { held with
        port := { held.port with inflight := .rxb, ackCtl := true }, draws := [BusDraw.ack]
        inputs := [.wire 0x5142] }) = some (0x42, [.r 0x42 true]) ∧
    seen (fun t => (t.port.mst, t.trace.port, t.trace.wire)) (exec .wireS ready) = some (true, [], [.s]) ∧
    seen (fun t => (t.port.mst, t.trace.wire)) (exec .wireSr held) = some (true, [.sr]) ∧
    seen (fun t => (t.port.mst, t.trace.wire)) (exec .wireP held) = some (false, [.p]) := by decide

/-- CV1 and the INIT of the vectors. -/
theorem test_cv1_init : step (given [0x00] State.reset) = .next { ready with
    host := { ready.host with result := some [0x01] } } := by rfl

/-- CV2: the issue of WRITE 0x50, [0x10, 0xAA] (program 1, row 2). -/
theorem test_cv2_write : seen (fun t => (t.ctx.step, t.ctx.txBuffer, t.trace.port, t.trace.wire))
    (step (given [0x01, 0x50, 0x02, 0x10, 0xAA] ready)) =
      some (.headerSent, [(0, 0x10), (1, 0xAA)], [.setTx true, .start, .writeData 0xA0], [.s]) := by decide

/-- CV5: a READ of CAP bytes (the address byte is 0xA1). -/
theorem test_cv5_read : seen (fun t => (t.ctx.rxLength, t.port.inflight, t.host.phase))
    (step (given [0x02, 0x50, 0x10] ready)) = some (0x10, .txb 0xA1, .spin) := by decide

/-- CV13: MEMWRITE of no data sends the offset alone. -/
theorem test_cv13_memwrite : seen (fun t => (t.ctx.txLength, t.ctx.txBuffer))
    (step (given [0x04, 0x50, 0x10, 0x00] ready)) = some (1, [(0, 0x10)]) := by decide

/-- Program 3, rows 1 and 6: MEMREAD's first transfer, and its second once the first has succeeded. -/
theorem test_memread_issue : seen (fun t => (t.ctx.noStopFlag, t.ctx.restartFlag, t.trace.port))
    (step (given [0x03, 0x50, 0x10, 0x01] ready)) =
      some (true, false, [.setTx true, .start, .writeData 0xA0]) := by decide

theorem test_memread_second : seen (fun t => (t.ctx.noStopFlag, t.ctx.restartFlag, t.trace.port, t.trace.wire))
    (step { held with
      host := { held.host with phase := .spin, cmd := memreadCommand 0x50 0x10 1 }, inputs := [.turn .host] }) =
      some (false, true, [.setTx true, .restart, .writeData 0xA1], [.sr]) := by decide

/-- CV4, CV6, CV10 to CV12, CV14, CV17, CV19, CV20: the reason of the first check that fails. -/
theorem test_cv_refusals :
    refusalOf (step (given [0x02, 0x50, 0x00] ready)) = some .badLength ∧
    refusalOf (step (given [0x02, 0x50, 0x11] ready)) = some .badLength ∧
    refusalOf (step (given [0x02, 0xD0, 0x01] ready)) = some .badAddress ∧
    refusalOf (step (given [0x01, 0x50, 0x02, 0x10] ready)) = some .malformed ∧
    refusalOf (step (given [0x12, 0x50, 0x02] ready)) = some .busOwnershipMismatch ∧
    refusalOf (step (given (0x04 :: 0x50 :: 0x10 :: 0x10 :: List.replicate 16 0) ready)) = some .badLength ∧
    refusalOf (step (given [0x01, 0x50, 0x01, 0x00] State.reset)) = some .notInitialised ∧
    refusalOf (step (given [0x01, 0x50, 0x01, 0x10] held)) = some .busOwnershipMismatch ∧
    refusalOf (step (given [0x02, 0xD0, 0x11] ready)) = some .badAddress := by decide

/-- CV7 to CV9, CV15, CV16: reserved encodings. -/
theorem test_cv_reserved :
    refusalOf (step (given [0x0A, 0x50, 0x01] ready)) = some .reservedEncoding ∧
    refusalOf (step (given [0x05, 0x50, 0x01] ready)) = some .reservedEncoding ∧
    refusalOf (step (given [0x22, 0x50, 0x01] ready)) = some .reservedEncoding ∧
    refusalOf (step (given [0x0B, 0x50, 0x10, 0x01] ready)) = some .reservedEncoding ∧
    refusalOf (step (given [0x08] ready)) = some .reservedEncoding := by decide

/-- CV18: a busy host refuses INIT and READ. -/
theorem test_cv18_busy :
    refusalOf (exec .init { ready with host := { ready.host with phase := .spin } }) = some .hostBusy ∧
    refusalOf (exec (.read false 0x50 1) { ready with host := { ready.host with phase := .spin } }) =
      some .hostBusy := by decide

/-- V7 (b): after an INIT applied in mid-transfer a plain WRITE is refused until the port is quiescent. -/
theorem test_v7b_not_quiescent : refusalOf (exec (.write false false 0x50 [0x10])
    { held with port := { held.port with inflight := .txb 0xA0 } }) = some .portNotQuiescent := by decide

/-- Program 2, row 13: the response carries the received bytes. -/
theorem test_read_response : seen (fun t => (t.host.result, t.host.phase))
    (step { ready with
      ctx := { ready.ctx with rxBuffer := [(0, 0x11), (1, 0x22), (2, 0x33), (3, 0x44)] }
      host := { ready.host with phase := .spin, cmd := readCommand false 0x29 4 }, inputs := [.turn .host] }) =
      some (some [0x01, 0x11, 0x22, 0x33, 0x44], .idle) := by decide

/-- HV7: MEMREAD's failed second transfer clears `restartFlag`, answers the status alone, and leaves `host.sub` 1
(R24). -/
theorem test_hv7_response : seen (fun t => (t.host.result, t.ctx.restartFlag, t.host.sub))
    (step { ready with
      ctx := { ready.ctx with step := .error, direction := .read, rxLength := 2, restartFlag := true }
      host := { ready.host with phase := .spin, cmd := memreadCommand 0x50 0x10 2, sub := .second }
      inputs := [.turn .host] }) = some (some [0x00], false, .first) := by decide

/-- HV9: the host polls while the byte is in flight, and nothing changes. -/
theorem test_hv9_poll : step { sv .headerSent .read 1 0 false true true 0 false false with
    host := { ready.host with phase := .spin }, inputs := [.turn .host] } =
    .next { sv .headerSent .read 1 0 false true true 0 false false with
      host := { ready.host with phase := .spin }, inputs := [] } := by rfl

/-- An event before the first INIT is taken with the named values of reset, step ERROR (log entry 3). -/
theorem test_event_before_init : seen (fun t => (t.ctx.step, t.port.evFlag, t.trace.port))
    (step { State.reset with port := { State.reset.port with evFlag := true }, inputs := [.turn .seq] }) =
      some (.error, false, [.clrEvent]) := by decide

/-- The next command of the program is taken when the host is idle (R106). -/
theorem test_call_is_taken : seen (fun t => (t.inputs.length, t.host.result))
    (step { ready with inputs := [.call [0x00]] }) = some (0, some [0x01]) := by decide

/-- It waits while the host spins (R106): the only agent with a step is the host, it polls, and the call stays. -/
theorem test_call_waits : step
    { spinning (readCommand false 0x50 1) .first .headerSent held with inputs := [.call [0x00]] } =
      .next { spinning (readCommand false 0x50 1) .first .headerSent held with
        inputs := [.call [0x00]], freeIndex := 1 } := by
  cases h : Config.freeTurn 0 <;>
    simp [step, runInputs, freeStep, chosenAgent, agentTurn, hostTurn, hostPoll, agentEnabled, spinning, held, ready,
      State.reset, Port.reset, Config.standard, Inflight.isNone, inTransfer, Step.code, HostState.reset, h]

/-- A table word placed where the next step fetches runs (log entry 11): START, T(A0,A) is not enabled, EV.HDR_W is
the case the key selects. -/
theorem test_placed_words :
    seen (fun t => t.port.mst) (step (State.reset.withFetchWord 12 0x100)) = some true ∧
    seen (fun t => t.ctx.step) (step (State.reset.withFetchWord 8 0x00)) = some .ready ∧
    refusalOf (step (State.reset.withFetchWord 16 0x40A0)) = some (.notEnabled .bus) ∧
    seen (fun t => t.ctx.step) (step (held.withFetchWord 6 0b000100)) = some .dataTransmission ∧
    seen (fun t => t.ctx.step) (step (State.reset.withFetchWord 6 0b100000)) = some .error := by decide

/-! ## Witnesses: for every statement with hypotheses, states and operands that meet them

A witness names its statement; where the statement has several clauses over one input, each clause has its own, at the
ends of its range. -/

theorem test_witness_DecodeOfEncodeIsIdentity :
    (Instr.write true true 0x7F (List.replicate 255 0xFF)).wf = true ∧ (Instr.reservedZero5 31 []).wf = true ∧
    (Instr.evRxLast true).wf = true ∧ (Instr.writeData 0xFF).wf = true ∧ (Instr.wireR 0 true).wf = true := by
  refine ⟨?_, by decide⟩
  rw [Instr.wf, List.length_replicate]; decide

theorem test_witness_DecodedPacketEncodesBack :
    decodePacket [0x01, 0x00, 0x00] = .ok (.write false false 0x00 []) ∧
    decodePacket [0xFF] = .ok (.reservedZero7 127 []) := by decide

theorem test_witness_DecodedSymbolEncodesBack :
    decodePort 0x6FF = .ok (.writeData 0xFF) ∧ decodeWire 0x51FF = .ok (.wireR 0xFF true) ∧
    decodeEvent 0b111111 0 = .ok (.evArbl true .code7 .write) ∧
    decodeEvent 0b000110 255 = .ok (.evRxMore false) := by decide

theorem test_witness_MalformedExactlyWhenTheLengthIsWrong :
    (given [0x01] ready).inputs = .packet [0x01] :: [] ∧
    operandsFit (0x01#8 |>.extractLsb' 0 3) [] = false ∧
    operandsFit (0x01#8 |>.extractLsb' 0 3) [0x50, 0x01, 0xAA] = true := by decide

theorem test_witness_UnselectedByteZeroIsReserved :
    (given [0x0A, 0x50, 0x01] ready).inputs = .packet [0x0A, 0x50, 0x01] :: [] ∧
    operandsFit (0x0A#8 |>.extractLsb' 0 3) [0x50, 0x01] = true ∧
    0x0A#8 &&& 0xFF#8 ≠ 0x00#8 ∧ 0x0A#8 &&& 0xE7#8 ≠ 0x01#8 ∧ 0x0A#8 &&& 0xEF#8 ≠ 0x02#8 ∧
    0x0A#8 &&& 0xFF#8 ≠ 0x03#8 ∧ 0x0A#8 &&& 0xFF#8 ≠ 0x04#8 := by decide

/-- The nine clauses: a packet, a program's command with the host idle and in its spin, a port symbol, a wire symbol, and a turn of each agent. -/
theorem test_witness_StepRunsTheDecodedInstruction :
    (given [0x00] ready).inputs = .packet [0x00] :: [] ∧ decodePacket [0x00] = .ok .init ∧
    { ready with inputs := [.call [0x00]] }.inputs = .call [0x00] :: [] ∧ ready.host.phase = .idle ∧
    { spinning (readCommand false 0x50 1) .first .headerSent held with inputs := [.call [0x00]] }.inputs =
      .call [0x00] :: [] ∧
    (spinning (readCommand false 0x50 1) .first .headerSent held).host.phase = .spin ∧
    { ready with inputs := [.portOp 0x100] }.inputs = .portOp 0x100 :: [] ∧ decodePort 0x100 = .ok .start ∧
    { ready with inputs := [.wire 0x3000] }.inputs = .wire 0x3000 :: [] ∧ decodeWire 0x3000 = .ok .wireP ∧
    (sv .headerSent .write 1 0 false true true 0 false false).inputs = .turn .seq :: [] ∧
    (sv .headerSent .write 1 0 false true true 0 false false).port.evFlag = true ∧
    decodeEvent (eventKey false false .headerSent .write) (1 - 0) = .ok .evHdrW ∧
    { ready with inputs := [.turn .bus], port := { ready.port with inflight := .txb 7 } }.port.inflight = .txb 7 ∧
    { ready with inputs := [.turn .bus], port := { ready.port with inflight := .rxb } }.port.inflight = .rxb ∧
    { ready with inputs := [.turn .host] }.inputs = .turn .host :: [] := by decide

theorem test_witness_UnaskedStepIsOfAnEnabledAgent :
    ready.inputs = [] ∧ agentEnabled ready .seq = false ∧
    agentEnabled { ready with port := { ready.port with evFlag := true } } .seq = true := by decide

theorem test_witness_PlacedWordRuns :
    decodeTableWord 8 0x00 = some .init ∧ formatOf .init ≠ .ev ∧
    decodeTableWord 12 0x7 = none ∧ decodeTableWord 12 0x300 = some .stop ∧ formatOf .stop ≠ .ev ∧
    decodeTableWord 16 0x51FF = some (.wireR 0xFF true) ∧ formatOf (.wireR 0xFF true) ≠ .ev := by decide

theorem test_witness_InitResetsTheContextOnly :
    State.reset.host.phase = .idle ∧ { ready.host with phase := .spin }.phase ≠ .idle := by decide

theorem test_witness_InitTwiceIsInitOnce : exec .init held = .next { held with
    ctx := { held.ctx with step := .ready }, host := { held.host with result := some [0x01] } } := by rfl

/-- No check fails, at both ends of the length; and each check fails alone. -/
theorem test_witness_AcceptanceChecksInOrder :
    firstFailing (acceptanceTable 0x7F 1 16 1 false ready) = none ∧
    firstFailing (acceptanceTable 0x7F 1 16 16 false ready) = none ∧
    firstFailing (acceptanceTable 0x80 1 16 1 false ready) = some .badAddress ∧
    firstFailing (acceptanceTable 0x7F 1 16 0 false ready) = some .badLength ∧
    firstFailing (acceptanceTable 0x7F 1 16 17 false ready) = some .badLength ∧
    firstFailing (acceptanceTable 0x7F 1 16 1 false { ready with host := { ready.host with phase := .spin } }) =
      some .hostBusy ∧
    firstFailing (acceptanceTable 0x7F 1 16 1 false State.reset) = some .notInitialised ∧
    firstFailing (acceptanceTable 0x7F 1 16 1 false { ready with ctx := { ready.ctx with step := .headerSent } }) =
      some .transferInFlight ∧
    firstFailing (acceptanceTable 0x7F 1 16 1 false { ready with port := { ready.port with evFlag := true } }) =
      some .portNotQuiescent ∧
    firstFailing (acceptanceTable 0x7F 1 16 1 true ready) = some .busOwnershipMismatch := by decide

theorem ready_launches : launchReady false ready := ⟨⟨rfl, rfl, rfl⟩, rfl, rfl, rfl⟩

theorem held_launches : launchReady true held := ⟨⟨rfl, rfl, rfl⟩, rfl, rfl, rfl⟩

/-- Both kinds of bus ownership, and both ends of the length. -/
theorem test_witness_WriteIssueStartsTheTransfer :
    launchReady false ready ∧ launchReady true held ∧ (0x7F#8).toNat < 128 ∧
    1 ≤ [0xAA#8].length ∧ (List.replicate 16 0xAA#8).length ≤ ready.cfg.cap :=
  ⟨ready_launches, held_launches, by decide, by decide, by decide⟩

theorem test_witness_ReadIssueStartsTheTransfer :
    launchReady false ready ∧ launchReady true held ∧ (0x7F#8).toNat < 128 ∧
    1 ≤ (0x01#8).toNat ∧ (0x10#8).toNat ≤ ready.cfg.cap :=
  ⟨ready_launches, held_launches, by decide, by decide, by decide⟩

theorem test_witness_MemreadIssueWritesTheOffset :
    launchReady false ready ∧ (0x00#8).toNat < 128 ∧ 1 ≤ (0x01#8).toNat ∧ (0x10#8).toNat ≤ ready.cfg.cap :=
  ⟨ready_launches, by decide, by decide, by decide⟩

theorem test_witness_MemwriteIssueIsOneWrite :
    launchReady false ready ∧ (0x50#8).toNat < 128 ∧ ([] : List Byte).length + 1 ≤ ready.cfg.cap ∧
    (List.replicate 15 0xAA#8).length + 1 ≤ ready.cfg.cap :=
  ⟨ready_launches, by decide, by decide, by decide⟩

theorem test_witness_CopyInFillsFromIndexZero :
    ready.ctx.txBuffer.wf ∧ seen (fun t => t.ctx.txBuffer) (exec (.write false false 0x50 [0x10, 0x00]) ready) =
      some [(0, 0x10)] := by decide

theorem test_witness_PollChangesNothing :
    (spinning (readCommand false 0x50 1) .first .headerSent ready).host.phase = .spin ∧
    (spinning (readCommand false 0x50 1) .first .headerSent ready).ctx.step ≠ .error ∧
    (spinning (readCommand false 0x50 1) .first .headerSent ready).ctx.step ≠ .ready ∧
    ready.cfg.spinLimit = none := by decide

theorem test_witness_WriteCompletionAnswersTheStatus :
    (spinning (writeCommand false false 0x50 [1]) .first .ready ready).host.phase = .spin ∧
    (spinning (writeCommand false false 0x50 [1]) .first .ready ready).host.cmd.op = .write ∧
    (spinning (memwriteCommand 0x50 0x10 []) .first .error ready).host.cmd.op = .memwrite ∧
    (spinning (memwriteCommand 0x50 0x10 []) .first .error ready).ctx.step = .error := by decide

theorem test_witness_ReadCompletionCopiesOut :
    (spinning (readCommand false 0x50 16) .first .ready ready).host.cmd.op = .read ∧
    (spinning (readCommand false 0x50 16) .first .ready ready).host.cmd.length.toNat ≤ ready.cfg.cap ∧
    (spinning (readCommand false 0x50 16) .first .ready ready).ctx.step = .ready ∧
    (spinning (readCommand false 0x50 1) .first .error ready).ctx.step = .error := by decide

theorem test_witness_MemreadCompletionsFollowBothTransfers :
    (spinning (memreadCommand 0x50 0x10 1) .first .error ready).host.cmd.op = .memread ∧
    (spinning (memreadCommand 0x50 0x10 1) .first .error ready).host.sub = .first ∧
    (spinning (memreadCommand 0x50 0x10 1) .first .ready held).port.mst = true ∧
    (spinning (memreadCommand 0x50 0x10 1) .first .ready held).port.inflight = .none ∧
    (spinning (memreadCommand 0x50 0x10 1) .first .ready ready).port.mst = false ∧
    (spinning (memreadCommand 0x50 0x10 16) .second .ready ready).host.sub = .second ∧
    (spinning (memreadCommand 0x50 0x10 16) .second .ready ready).host.cmd.length.toNat ≤ ready.cfg.cap ∧
    (spinning (memreadCommand 0x50 0x10 16) .second .error ready).ctx.step = .error := by decide

/-- The events below are pending in well-formed contexts. -/
theorem pending {s : State} (h : s.port.evFlag = true ∧ s.ctx.wf s.cfg.cap = true) : eventPending s := h

theorem keyed {a n : Bool} {p : Step} {d : Direction} {s : State}
    (h : s.port.arbLost = a ∧ s.port.rxNack = n ∧ s.ctx.step = p ∧ s.ctx.direction = d) : keyIs a n p d s := h

theorem test_witness_ArbitrationLossForcesStopAndError :
    eventPending (sv .dataSent .write 16 16 true true true 0 true true) ∧
    keyIs true true .dataSent .write (sv .dataSent .write 16 16 true true true 0 true true) ∧
    eventPending (sv .ready .read 0 0 false false false 0 true false) ∧
    keyIs true false .ready .read (sv .ready .read 0 0 false false false 0 true false) :=
  ⟨pending (by decide), keyed (by decide), pending (by decide), keyed (by decide)⟩

/-- The three cases: the address byte of a READ, a data byte, the last data byte. -/
theorem test_witness_MissingAcknowledgeForcesStopAndError :
    eventPending (sv .headerSent .read 1 0 false true true 0 false true) ∧
    keyIs false true .headerSent .read (sv .headerSent .read 1 0 false true true 0 false true) ∧
    eventPending (sv .dataTransmission .write 2 1 true true true 0 false true) ∧
    keyIs false true .dataTransmission .write (sv .dataTransmission .write 2 1 true true true 0 false true) ∧
    eventPending (sv .dataSent .write 1 1 false true true 0 false true) ∧
    keyIs false true .dataSent .write (sv .dataSent .write 1 1 false true true 0 false true) :=
  ⟨pending (by decide), keyed (by decide), pending (by decide), keyed (by decide), pending (by decide),
    keyed (by decide)⟩

/-- Both clauses: a transmitting port, at both ends of the length, and one that is not transmitting. -/
theorem test_witness_WriteHeaderSendsTheFirstByte :
    eventPending (sv .headerSent .write 1 0 false true true 0 false false) ∧
    keyIs false false .headerSent .write (sv .headerSent .write 1 0 false true true 0 false false) ∧
    eventPending (sv .headerSent .write 16 0 false true true 0 false false) ∧
    ((sv .headerSent .write 1 0 false true true 0 false false).port.mst = true ∧
      (sv .headerSent .write 1 0 false true true 0 false false).port.txMode = true ∧
      (sv .headerSent .write 1 0 false true true 0 false false).port.inflight = .none) ∧
    eventPending (sv .headerSent .write 1 0 false true false 0 false false) ∧
    (sv .headerSent .write 1 0 false true false 0 false false).port.txMode ≠ true :=
  ⟨pending (by decide), keyed (by decide), pending (by decide), by decide, pending (by decide), by decide⟩

/-- An owned bus with nothing in flight, one not owned, and one owned with a byte in flight. -/
theorem test_witness_ReadHeaderStartsTheFirstReception :
    eventPending (sv .headerSent .read 1 0 false true true 0 false false) ∧
    keyIs false false .headerSent .read (sv .headerSent .read 1 0 false true true 0 false false) ∧
    (sv .headerSent .read 1 0 false true true 0 false false).port.inflight = .none ∧
    eventPending (sv .headerSent .read 16 0 false false true 0 false false) ∧
    (sv .headerSent .read 16 0 false false true 0 false false).port.mst = false ∧
    eventPending { sv .headerSent .read 1 0 false true true 0 false false with
      port := { (sv .headerSent .read 1 0 false true true 0 false false).port with inflight := .rxb } } :=
  ⟨pending (by decide), keyed (by decide), by decide, pending (by decide), by decide, pending (by decide)⟩

/-- Both clauses; the first at the step that stays and at the step that ends in DATA_SENT. -/
theorem test_witness_TransmitSendsTheNextByte :
    eventPending (sv .dataTransmission .write 16 1 false true true 0 false false) ∧
    eventPending (sv .dataTransmission .write 16 15 false true true 0 false false) ∧
    keyIs false false .dataTransmission .write (sv .dataTransmission .write 16 15 false true true 0 false false) ∧
    ((sv .dataTransmission .write 16 15 false true true 0 false false).port.mst = true ∧
      (sv .dataTransmission .write 16 15 false true true 0 false false).port.txMode = true ∧
      (sv .dataTransmission .write 16 15 false true true 0 false false).port.inflight = .none) ∧
    eventPending (sv .dataTransmission .write 2 1 false false true 0 false false) ∧
    (sv .dataTransmission .write 2 1 false false true 0 false false).port.mst ≠ true :=
  ⟨pending (by decide), pending (by decide), keyed (by decide), by decide, pending (by decide), by decide⟩

/-- Both clauses; the first with two bytes still to store and with more. -/
theorem test_witness_ReceiveStoresAndDecidesOneByteEarly :
    eventPending (sv .dataTransmission .read 2 0 false true false 0x42 false true) ∧
    keyIs false true .dataTransmission .read (sv .dataTransmission .read 2 0 false true false 0x42 false true) ∧
    (sv .dataTransmission .read 2 0 false true false 0x42 false true).ctx.rxCounter.toNat + 2 ≤
      (sv .dataTransmission .read 2 0 false true false 0x42 false true).ctx.rxLength.toNat ∧
    (sv .dataTransmission .read 2 0 false true false 0x42 false true).port.inflight = .none ∧
    eventPending (sv .dataTransmission .read 16 0 false true false 0x42 false false) ∧
    eventPending { sv .dataTransmission .read 3 1 false true false 0x42 false false with
      port := { (sv .dataTransmission .read 3 1 false true false 0x42 false false).port with inflight := .rxb } } :=
  ⟨pending (by decide), keyed (by decide), by decide, by decide, pending (by decide), pending (by decide)⟩

/-- The three clauses: `noStopFlag` clear, set with a read that is no misuse, and set with a byte in flight. -/
theorem test_witness_LastReceiveStopsStoresAndIsReady :
    eventPending (sv .dataTransmission .read 16 15 false true false 0x42 false true) ∧
    keyIs false true .dataTransmission .read (sv .dataTransmission .read 16 15 false true false 0x42 false true) ∧
    (sv .dataTransmission .read 16 15 false true false 0x42 false true).ctx.rxCounter.toNat + 1 =
      (sv .dataTransmission .read 16 15 false true false 0x42 false true).ctx.rxLength.toNat ∧
    (sv .dataTransmission .read 16 15 false true false 0x42 false true).ctx.noStopFlag = false ∧
    eventPending (sv .dataTransmission .read 1 0 true true false 0x42 false true) ∧
    (sv .dataTransmission .read 1 0 true true false 0x42 false true).ctx.noStopFlag = true ∧
    (sv .dataTransmission .read 1 0 true true false 0x42 false true).port.inflight = .none ∧
    eventPending { sv .dataTransmission .read 1 0 true true false 0x42 false true with
      port := { (sv .dataTransmission .read 1 0 true true false 0x42 false true).port with inflight := .rxb } } :=
  ⟨pending (by decide), keyed (by decide), by decide, by decide, pending (by decide), by decide, by decide,
    pending (by decide)⟩

theorem test_witness_SentStopsUnlessHeldAndIsReady :
    eventPending (sv .dataSent .write 1 1 false true true 0 false false) ∧
    keyIs false false .dataSent .write (sv .dataSent .write 1 1 false true true 0 false false) ∧
    (sv .dataSent .write 1 1 false true true 0 false false).ctx.noStopFlag = false ∧
    eventPending (sv .dataSent .write 16 16 true true true 0 false false) ∧
    (sv .dataSent .write 16 16 true true true 0 false false).ctx.noStopFlag = true :=
  ⟨pending (by decide), keyed (by decide), by decide, pending (by decide), by decide⟩

theorem test_witness_IdleEventIsOnlyAcknowledged :
    eventPending (sv .ready .write 0 0 false true false 0 false true) ∧
    keyIs false true (if true then .ready else .error) .write (sv .ready .write 0 0 false true false 0 false true) ∧
    eventPending (sv .error .read 1 3 false false true 0 false false) ∧
    keyIs false false (if false then .ready else .error) .read (sv .error .read 1 3 false false true 0 false false) :=
  ⟨pending (by decide), keyed (by decide), pending (by decide), keyed (by decide)⟩

theorem test_witness_SequencerNeedsAnEventAndAWellFormedContext :
    ready.port.evFlag = false ∧ formatOf .evTx = .ev ∧ isIllegalEvent .evTx = false ∧
    (sv .code5 .write 2 1 false true true 0 true false).port.evFlag = true ∧
    (sv .code5 .write 2 1 false true true 0 true false).ctx.wf ready.cfg.cap = false ∧
    (sv .dataTransmission .write 2 2 false true true 0 false false).ctx.wf ready.cfg.cap = false := by decide

theorem test_witness_WellFormedEventSelectsOneCase :
    eventPending (sv .dataTransmission .read 2 1 false true false 0 false true) := pending (by decide)

theorem test_witness_StepMovesOnlyAlongTheTable :
    seen (fun t => t.ctx.step) (exec .evHdrW (sv .headerSent .write 1 0 false true true 0 false false)) =
      some .dataSent ∧
    seen (fun t => t.ctx.step) (exec .evHdrW (sv .headerSent .write 2 0 false true true 0 false false)) =
      some .dataTransmission ∧
    seen (fun t => t.ctx.step) (exec (.evRxLast false) (sv .dataTransmission .read 1 0 false true false 0 false false)) =
      some .ready ∧
    seen (fun t => t.ctx.step) (agentTurn .seq (sv .headerSent .write 1 0 false true true 0 false false)) =
      some .dataSent ∧
    seen (fun t => t.ctx.step)
      (agentTurn .bus { held with port := { held.port with inflight := .txb 0 }, draws := [BusDraw.ack] }) =
      some .ready ∧
    seen (fun t => (t.ctx.step, t.host.sub))
      (agentTurn .host (spinning (memreadCommand 0x50 0x10 1) .first .ready held)) =
      some (.headerSent, .second) := by decide

theorem test_witness_SequencerMovesForward :
    seen (fun t => t.ctx.step) (agentTurn .seq (sv .dataTransmission .write 3 2 false true true 0 false false)) =
      some .dataSent := by decide

theorem test_witness_EntryToErrorChangesNothingElse :
    (sv .dataSent .write 2 2 true true true 0 false true).ctx.step ≠ .error ∧
    seen (fun t => t.ctx.step) (agentTurn .seq (sv .dataSent .write 2 2 true true true 0 false true)) =
      some .error := by decide

theorem test_witness_SequencerWritesOnlyItsOwn :
    formatOf (.evRxMore false) = .ev ∧
    seen (fun t => t.ctx.rxBuffer)
      (exec (.evRxMore false) (sv .dataTransmission .read 4 1 false true false 0x22 false false)) =
      some [(1, 0x22)] ∧
    storesByte (.evRxMore false) = true ∧ storesByte .evTx = false ∧ sendsByte .evTx = true ∧ formatOf .evTx = .ev ∧
    seen (fun t => (t.ctx.txCounter, t.ctx.rxCounter, t.ctx.rxBuffer))
      (exec .evTx (sv .dataTransmission .write 3 1 false true true 0 false false)) = some (2, 1, []) ∧
    sendsByte .evSent = false := by decide

theorem test_witness_OnlyTheSequencerWritesDuringATransfer :
    inTransfer Step.headerSent = true ∧ formatOf .stop ≠ .ev ∧ Instr.stop ≠ .init ∧
    seen (fun t => t.ctx.step) (exec .stop (spinning (readCommand false 0x50 1) .first .headerSent held)) =
      some .headerSent ∧
    seen (fun t => t.ctx.step)
      (agentTurn .host (spinning (readCommand false 0x50 1) .first .headerSent held)) = some .headerSent ∧
    seen (fun t => t.ctx.step) (agentTurn .bus
      { spinning (readCommand false 0x50 1) .first .headerSent held with
        port := { held.port with inflight := .txb 0xA1 }, draws := [BusDraw.ack] }) = some .headerSent := by decide

/-- Both clauses, with the acknowledge and with the not-acknowledge. -/
theorem test_witness_AcknowledgeIsNackExactlyForTheLastByte :
    seen (fun t => t.port.ackCtl) (exec .evHdrR (sv .headerSent .read 1 0 false true true 0 false false)) =
      some true ∧
    seen (fun t => t.port.ackCtl) (exec .evHdrR (sv .headerSent .read 2 0 false true true 0 false false)) =
      some false ∧
    seen (fun t => t.port.ackCtl)
      (exec (.evRxMore true) (sv .dataTransmission .read 2 0 false true false 0 false true)) = some true ∧
    seen (fun t => t.port.ackCtl)
      (exec (.evRxMore true) (sv .dataTransmission .read 3 0 false true false 0 false true)) = some false := by decide

theorem test_witness_StartTakesAndRestartKeepsTheBus :
    ready.port.mst = false ∧ ready.port.inflight = .none ∧ held.port.mst = true ∧ held.port.inflight = .none ∧
    { held.port with inflight := .rxb }.inflight ≠ .none := by decide

theorem test_witness_StopReleasesTheBus : held.port.mst = true ∧ ready.port.mst = false := by decide

theorem test_witness_DataRegisterAccessesStartBytes :
    { held.port with txMode := true }.txMode = true ∧ held.port.mst = true ∧ held.port.txMode = false ∧
    held.port.inflight = .none ∧ ready.port.mst = false ∧ { held.port with inflight := .rxb }.inflight ≠ .none := by
  decide

theorem test_witness_PortOperationsTouchOnlyThePort : formatOf .readData = .p ∧ formatOf (.writeData 0) = .p := by decide

theorem test_witness_BusCompletesATransmittedByte :
    { held.port with inflight := .txb 0xA0 }.inflight = .txb 0xA0 ∧ held.port.inflight ≠ .txb 0xA0 := by decide

theorem test_witness_BusCompletesAReceivedByte :
    { held.port with inflight := .rxb, ackCtl := true }.inflight = .rxb ∧
    { held.port with inflight := .rxb, ackCtl := true }.ackCtl = true ∧ held.port.inflight ≠ .rxb ∧
    held.port.ackCtl ≠ true := by decide

theorem test_witness_WireConditionsFollowTheirRules :
    ready.port.mst = false ∧ ready.port.inflight = .none ∧ held.port.mst = true ∧ held.port.inflight = .none ∧
    exec .wireS held = .fault (.portMisuse .startWhileOwned) ∧
    exec .wireS { ready with port := { ready.port with inflight := .rxb } } = .fault (.portMisuse .startWhileOwned) ∧
    exec .wireSr ready = .fault (.portMisuse .restartWhileNotOwned) ∧
    exec .wireSr { held with port := { held.port with inflight := .txb 0 } } =
      .fault (.portMisuse .restartWhileNotOwned) := ⟨rfl, rfl, rfl, rfl, rfl, rfl, rfl, rfl⟩

theorem test_witness_BusStepRaisesOneEvent :
    ready.port.inflight = .none ∧ { held.port with inflight := .txb 0 }.inflight ≠ .none := by decide

theorem test_witness_StepKeepsTheBuffersCanonical :
    BuffersCanonical (sv .dataTransmission .read 4 1 false true false 0x22 false false) ∧
    seen (fun t => t.ctx.rxBuffer) (step (sv .dataTransmission .read 4 1 false true false 0x22 false false)) =
      some [(1, 0x22)] :=
  ⟨⟨by decide, by decide, by decide, by decide⟩, by decide⟩

/-- MEMREAD's first transfer with its event pending, as the command layer reaches it. -/
def memreadFirstEvent (p : Step) (cnt : Byte) : State :=
  { spinning (memreadCommand 0x50 0x10 1) .first p held with
    ctx := { held.ctx with
      step := p, direction := .write, txBuffer := [(0, 0x10)], txLength := 1, txCounter := cnt, noStopFlag := true }
    port := { held.port with txMode := true, evFlag := true }
    inputs := [.turn .seq] }

theorem memreadFirstEvent_inv : CommandInv (memreadFirstEvent .headerSent 0) where
  cap := ⟨by decide, by decide⟩
  unbounded := rfl
  buffers := ⟨by decide, by decide, by decide, by decide⟩
  commands := by decide
  fresh := by decide
  wellFormed := by decide
  counters := by decide
  oneEvent := by decide
  quiet := by decide
  active := by decide
  mode := by decide
  readStops := by decide
  memreadFirst := by decide
  subOne := by decide
  readLength := by decide

/-- A read in its terminal step, with the host to complete it. -/
def readEnded : State := { spinning (readCommand false 0x50 1) .first .ready ready with inputs := [.turn .host] }

theorem readEnded_inv : CommandInv readEnded where
  cap := ⟨by decide, by decide⟩
  unbounded := rfl
  buffers := ⟨by decide, by decide, by decide, by decide⟩
  commands := by decide
  fresh := by decide
  wellFormed := by decide
  counters := by decide
  oneEvent := by decide
  quiet := by decide
  active := by decide
  mode := by decide
  readStops := by decide
  memreadFirst := by decide
  subOne := by decide
  readLength := by decide

theorem test_witness_StepKeepsTheCommandInvariant :
    CommandInv (memreadFirstEvent .headerSent 0) ∧
    seen (fun t => t.ctx.step) (step (memreadFirstEvent .headerSent 0)) = some .dataSent :=
  ⟨memreadFirstEvent_inv, by decide⟩

theorem test_witness_CommandLayerNeverFaults : CommandInv readEnded := readEnded_inv

theorem test_witness_SpinningHostIsNeverStuck :
    CommandInv (memreadFirstEvent .headerSent 0) ∧ (memreadFirstEvent .headerSent 0).host.phase = .spin ∧
    inTransfer (memreadFirstEvent .headerSent 0).ctx.step = true ∧
    CommandInv readEnded ∧ readEnded.host.phase = .spin ∧ inTransfer readEnded.ctx.step = false :=
  ⟨memreadFirstEvent_inv, by decide, by decide, readEnded_inv, by decide, by decide⟩

theorem test_witness_MemreadHoldsTheBusBetweenTransfers :
    CommandInv (memreadFirstEvent .headerSent 0) ∧ (memreadFirstEvent .headerSent 0).host.phase = .spin ∧
    (memreadFirstEvent .headerSent 0).host.cmd.op = .memread ∧ (memreadFirstEvent .headerSent 0).host.sub = .first ∧
    inTransfer (memreadFirstEvent .headerSent 0).ctx.step = true ∧
    seen (fun t => t.ctx.step) (agentTurn .seq (memreadFirstEvent .headerSent 0)) = some .dataSent :=
  ⟨memreadFirstEvent_inv, by decide, by decide, by decide, by decide, by decide⟩

theorem test_witness_AcknowledgedWriteCompletes :
    capLegal ready.cfg ∧ ready.ctx.txBuffer.wf ∧ launchReady true { held with draws := [.ack, .ack] } ∧
    (0x7F#8).toNat < 128 ∧ 1 ≤ [0xAA#8].length ∧ [0xAA#8].length ≤ ready.cfg.cap ∧
    { held with draws := [.ack, .ack] }.draws = List.replicate ([0xAA#8].length + 1) BusDraw.ack ++ [] :=
  ⟨⟨by decide, by decide⟩, by decide, ⟨⟨rfl, rfl, rfl⟩, rfl, rfl, rfl⟩, by decide, by decide, by decide, rfl⟩

theorem test_witness_AcknowledgedReadReturnsTheBytes :
    capLegal ready.cfg ∧ ready.ctx.rxBuffer.wf ∧ launchReady false { ready with draws := [.ack, .rx 0x42] } ∧
    (0x50#8).toNat < 128 ∧ ([] : List Byte).length + 1 ≤ ready.cfg.cap ∧
    { ready with draws := [.ack, .rx 0x42] }.draws = BusDraw.ack :: (([] : List Byte) ++ [0x42]).map BusDraw.rx ++ [] :=
  ⟨⟨by decide, by decide⟩, by decide, ⟨⟨rfl, rfl, rfl⟩, rfl, rfl, rfl⟩, by decide, by decide, rfl⟩

end Sys2Proof.Tests
end

section
/-! SUPPORT. What a step can do, said once for each agent: the sequencer's moves (R81 to R89), the issue of a command
(R101 to R105), the host's own moves (R100), the completion of a byte (R129, R130), and where a step fetches. -/

namespace Sys2Proof.Machine

open Sys2Proof

/-! ## The fields of the two states that steps end in -/

section
variable (s : State) (c : Context) (p : Port) (ops : List PortOp) (wire : List WireSym)

@[simp] theorem afterEvent_ctx : (afterEvent s c p ops wire).ctx = c := rfl
@[simp] theorem afterEvent_port : (afterEvent s c p ops wire).port = p := rfl
@[simp] theorem afterEvent_host : (afterEvent s c p ops wire).host = s.host := rfl
@[simp] theorem afterEvent_cfg : (afterEvent s c p ops wire).cfg = s.cfg := rfl
@[simp] theorem afterEvent_inputs : (afterEvent s c p ops wire).inputs = s.inputs := rfl

end

section
variable (s : State) (c : Context) (cmd : Command) (rs : Bool) (hdr : Byte)

@[simp] theorem afterIssue_ctx : (afterIssue s c cmd rs hdr).ctx = c := rfl
@[simp] theorem afterIssue_cfg : (afterIssue s c cmd rs hdr).cfg = s.cfg := rfl
@[simp] theorem afterIssue_inputs : (afterIssue s c cmd rs hdr).inputs = s.inputs := rfl
@[simp] theorem afterIssue_port : (afterIssue s c cmd rs hdr).port =
    { s.port with mst := true, txMode := true, dataReg := hdr, inflight := .txb hdr } := rfl
@[simp] theorem afterIssue_host : (afterIssue s c cmd rs hdr).host =
    { s.host with cmd := cmd, sub := .first, phase := .spin, spins := 0 } := rfl

end

/-! ## The sequencer -/

/-- What a sequencer step that goes on can do (R81 to R89): the eleven rows that are not EV.ILLEGAL, those with
the same effect taken together. -/
inductive SeqMove (s : State) : State → Prop
  /-- EV.ARBL and EV.NACK. -/
  | busError : SeqMove s (afterEvent s { s.ctx with step := .error } (stoppedPort s.port) [.stop] (stopWire s.port))
  /-- EV.HDR_W and EV.TX. -/
  | send (hs : s.ctx.step = .headerSent ∨ s.ctx.step = .dataTransmission) (hd : s.ctx.direction = .write)
      (hp : canSend s.port) :
      SeqMove s (afterEvent s (sentCtx .dataTransmission s.ctx)
        { s.port with
          evFlag := false, arbLost := false, dataReg := nextByte s.ctx, inflight := .txb (nextByte s.ctx) }
        [.writeData (nextByte s.ctx)] [])
  /-- EV.HDR_R. -/
  | startReception (hs : s.ctx.step = .headerSent) (hd : s.ctx.direction = .read) :
      SeqMove s (afterEvent s { s.ctx with step := .dataTransmission }
        { s.port with
          evFlag := false, arbLost := false, txMode := false, ackCtl := decide (s.ctx.rxLength = 1)
          inflight := if s.port.mst then .rxb else s.port.inflight }
        [.setTx false, .setAck (decide (s.ctx.rxLength = 1)), .readData] [])
  /-- EV.RX_MORE. -/
  | storeMore (hs : s.ctx.step = .dataTransmission) (hd : s.ctx.direction = .read) (hr : 2 ≤ s.ctx.rem.toNat) :
      SeqMove s (afterEvent s (storedCtx .dataTransmission s.port.dataReg s.ctx)
        { s.port with
          evFlag := false, arbLost := false, ackCtl := decide (s.ctx.rem.toNat = 2)
          inflight := readInflight s.port }
        [.setAck (decide (s.ctx.rem.toNat = 2)), .readData] [])
  /-- EV.RX_LAST with the STOP. -/
  | storeLastStop (hs : s.ctx.step = .dataTransmission) (hd : s.ctx.direction = .read) (hr : s.ctx.rem.toNat = 1)
      (hn : s.ctx.noStopFlag = false) :
      SeqMove s (afterEvent s (storedCtx .ready s.port.dataReg s.ctx) (stoppedPort s.port) [.stop, .readData]
        (stopWire s.port))
  /-- EV.RX_LAST with the bus held. -/
  | storeLastHeld (hs : s.ctx.step = .dataTransmission) (hd : s.ctx.direction = .read) (hr : s.ctx.rem.toNat = 1)
      (hn : s.ctx.noStopFlag = true) :
      SeqMove s (afterEvent s (storedCtx .ready s.port.dataReg s.ctx)
        { s.port with evFlag := false, arbLost := false, inflight := readInflight s.port } [.readData] [])
  /-- EV.SENT with the STOP. -/
  | sentStop (hs : s.ctx.step = .dataSent) (hd : s.ctx.direction = .write) (hn : s.ctx.noStopFlag = false) :
      SeqMove s (afterEvent s { s.ctx with step := .ready } { stoppedPort s.port with txMode := false }
        [.setTx false, .stop] (stopWire s.port))
  /-- EV.SENT with the bus held. -/
  | sentHeld (hs : s.ctx.step = .dataSent) (hd : s.ctx.direction = .write) (hn : s.ctx.noStopFlag = true) :
      SeqMove s (afterEvent s { s.ctx with step := .ready }
        { s.port with evFlag := false, arbLost := false, txMode := false } [.setTx false] [])
  /-- EV.IDLE. -/
  | idle (hs : inTransfer s.ctx.step = false) :
      SeqMove s (afterEvent s s.ctx { s.port with evFlag := false, arbLost := false } [] [])

/-- Every sequencer case that goes on is one of the moves, from a pending event in a well-formed context (R80). -/
theorem exec_event_move {i : Instr} {s t : State} (hf : formatOf i = .ev) (h : exec i s = .next t) :
    eventPending s ∧ SeqMove s t := by
  cases i with
  | evArbl n p d =>
    obtain ⟨hp, -, rfl⟩ := evArbl_next h
    exact ⟨hp, .busError⟩
  | evNackHeader d =>
    obtain ⟨hp, -, rfl⟩ := evNackHeader_next h
    exact ⟨hp, .busError⟩
  | evNackData =>
    obtain ⟨hp, -, rfl⟩ := evNackData_next h
    exact ⟨hp, .busError⟩
  | evNackSent =>
    obtain ⟨hp, -, rfl⟩ := evNackSent_next h
    exact ⟨hp, .busError⟩
  | evHdrW =>
    obtain ⟨hp, ⟨-, -, hs, hd⟩, hc, rfl⟩ := evHdrW_next h
    exact ⟨hp, .send (.inl hs) hd hc⟩
  | evHdrR =>
    obtain ⟨hp, ⟨-, -, hs, hd⟩, -, rfl⟩ := evHdrR_next h
    exact ⟨hp, .startReception hs hd⟩
  | evTx =>
    obtain ⟨hp, ⟨-, -, hs, hd⟩, hc, rfl⟩ := evTx_next h
    exact ⟨hp, .send (.inr hs) hd hc⟩
  | evRxMore n =>
    obtain ⟨hp, ⟨-, -, hs, hd⟩, hr, -, rfl⟩ := evRxMore_next h
    exact ⟨hp, .storeMore hs hd hr⟩
  | evRxLast n =>
    obtain ⟨hp, ⟨-, -, hs, hd⟩, hr, ⟨hn, rfl⟩ | ⟨hn, -, rfl⟩⟩ := evRxLast_next h
    · exact ⟨hp, .storeLastStop hs hd hr hn⟩
    · exact ⟨hp, .storeLastHeld hs hd hr hn⟩
  | evSent =>
    obtain ⟨hp, ⟨-, -, hs, hd⟩, ⟨hn, rfl⟩ | ⟨hn, rfl⟩⟩ := evSent_next h
    · exact ⟨hp, .sentStop hs hd hn⟩
    · exact ⟨hp, .sentHeld hs hd hn⟩
  | evIdle n r d =>
    obtain ⟨hp, ⟨-, -, hs, -⟩, rfl⟩ := evIdle_next h
    exact ⟨hp, .idle (by rw [hs]; cases r <;> decide)⟩
  | _ => nomatch hf, h

/-- The sequencer's own step is one of the moves (R80). -/
theorem seqTurn_move {s t : State} (h : agentTurn .seq s = .next t) : eventPending s ∧ SeqMove s t := by
  obtain ⟨i, hf, hi⟩ := seqTurn_next h
  exact exec_event_move hf hi

/-! ## The issue of a command -/

/-- What the issue of a transfer command that is accepted does (R102 to R105): a WRITE transfer, which is also what
MEMWRITE and MEMREAD's first transfer are, or a READ transfer. -/
inductive Issued (s : State) : State → Prop
  | write (ns rs : Bool) (data : List Byte) (cmd : Command) (hdr : Byte) (hr : launchReady rs s)
      (hl : lengthOk s.cfg.cap data.length = true) (hop : cmd.op ≠ .read)
      (hm : cmd.op = .memread → ns = true ∧ lengthOk s.cfg.cap cmd.length.toNat = true) :
      Issued s (afterIssue s (writeCtx ns rs data s.ctx) cmd rs hdr)
  | read (rs : Bool) (cmd : Command) (hdr : Byte) (hr : launchReady rs s)
      (hl : lengthOk s.cfg.cap cmd.length.toNat = true) (hop : cmd.op = .read) :
      Issued s (afterIssue s (readCtx rs cmd.length s.ctx) cmd rs hdr)

/-- A command that goes on is INIT or issues a transfer; the reserved patterns never go on (R67). -/
theorem exec_command_next {i : Instr} {s t : State} (hf : formatOf i = .c) (h : exec i s = .next t) :
    i = .init ∨ Issued s t := by
  cases i with
  | init => exact .inl rfl
  | write ns rs addr data =>
    obtain ⟨-, hl, hr, rfl⟩ := execWrite_next h
    exact .inr (.write ns rs data _ _ hr hl (nofun) (nofun))
  | read rs addr len =>
    obtain ⟨-, hl, hr, rfl⟩ := execRead_next h
    exact .inr (.read rs (readCommand rs addr len) _ hr hl rfl)
  | memread addr maddr len =>
    obtain ⟨-, hl, hr, rfl⟩ := execMemread_next h
    have h1 : lengthOk s.cfg.cap [maddr].length = true := by
      obtain ⟨h1, h2⟩ := lengthOk_iff.1 hl
      exact lengthOk_iff.2 ⟨Nat.le_refl 1, h1.trans h2⟩
    exact .inr (.write true false [maddr] _ _ hr h1 (nofun) fun _ => ⟨rfl, hl⟩)
  | memwrite addr maddr data =>
    obtain ⟨-, hl, hr, rfl⟩ := execMemwrite_next h
    exact .inr (.write false false (maddr :: data) _ _ hr hl (nofun) (nofun))
  | _ => nomatch hf, h

/-! ## The host's own step -/

/-- What the host's step in its spin can do (R100, R102 to R106): poll, respond (after clearing `restartFlag` in a
MEMREAD), or open MEMREAD's second transfer. -/
inductive HostMove (s : State) : State → Prop
  | poll (n : Nat) (hs : inTransfer s.ctx.step = true) : HostMove s { s with host := { s.host with spins := n } }
  | respond (packet : List Byte) (restart : Bool) (hs : inTransfer s.ctx.step = false) :
      HostMove s { s with
        ctx := { s.ctx with restartFlag := restart }
        host := { s.host with result := some packet, phase := .idle, sub := .first } }
  | secondTransfer (hop : s.host.cmd.op = .memread) (hs : s.ctx.step = .ready) (hm : s.port.mst = true) :
      HostMove s { s with
        ctx := readCtx true s.host.cmd.length s.ctx
        port := { s.port with
          mst := true, txMode := true, dataReg := header s.host.cmd.address true
          inflight := .txb (header s.host.cmd.address true) }
        trace :=
          { port := s.trace.port ++ [.setTx true, .restart, .writeData (header s.host.cmd.address true)]
            wire := s.trace.wire ++ [.sr] }
        host := { s.host with sub := .second, spins := 0 } }

theorem hostPoll_next {s t : State} (h : hostPoll s = .next t) :
    ∃ n, t = { s with host := { s.host with spins := n } } := by
  unfold hostPoll at h
  split at h
  · cases h; exact ⟨s.host.spins, rfl⟩
  · split at h
    · cases h; exact ⟨_, rfl⟩
    · cases h

/-- A trigger that goes on found the bus as the flag asks and nothing in flight (R122, R123). -/
theorem trigger_ready {a : BitVec 7} {rw : Bool} {s t : State} (h : trigger a rw s = .next t) :
    s.port.mst = s.ctx.restartFlag ∧ s.port.inflight = .none := by
  simp only [trigger, emit_setTx, andThen_next, logPort_ctx] at h
  obtain ⟨u, hu, -⟩ := andThen_eq_next.1 h
  obtain ⟨v, hv, -⟩ := andThen_eq_next.1 hu
  cases hr : s.ctx.restartFlag with
  | false =>
    simp only [hr, Bool.false_eq_true, if_false, applyOp, startCondition] at hv
    split at hv
    · assumption
    · cases hv
  | true =>
    simp only [hr, if_true, applyOp, restartCondition] at hv
    split at hv
    · assumption
    · cases hv

theorem completeMemreadFirst_move {s t : State} (hop : s.host.cmd.op = .memread)
    (hs : inTransfer s.ctx.step = false) (h : completeMemreadFirst s = .next t) : HostMove s t := by
  obtain he | hr := (not_inTransfer_iff _).1 hs
  · rw [completeMemreadFirst, if_pos he] at h
    cases h; exact .respond _ s.ctx.restartFlag hs
  · obtain ⟨hm, hi⟩ : s.port.mst = true ∧ s.port.inflight = .none := by
      have h' := h
      rw [completeMemreadFirst, if_neg (by simp [hr])] at h'
      obtain ⟨u, hu, -⟩ := andThen_eq_next.1 h'
      exact trigger_ready hu
    rw [completeMemreadFirst_ready hr hm hi] at h
    cases h; exact .secondTransfer hop hr hm

/-- The host's completion is a response or the opening of MEMREAD's second transfer (R100). -/
theorem hostComplete_move {s t : State} (hs : inTransfer s.ctx.step = false) (h : hostComplete s = .next t) :
    HostMove s t := by
  unfold hostComplete at h
  split at h
  · cases h; exact .respond _ s.ctx.restartFlag hs
  · cases h; exact .respond _ s.ctx.restartFlag hs
  · obtain ⟨packet, rfl⟩ := completeRead_next h
    exact .respond packet s.ctx.restartFlag hs
  · split at h
    · exact completeMemreadFirst_move ‹_› hs h
    · obtain ⟨packet, rfl⟩ := completeRead_next h
      exact .respond packet false hs

/-- The host's own step needs the spin, and is one of the moves (R100). -/
theorem hostTurn_move {s t : State} (h : agentTurn .host s = .next t) : s.host.phase = .spin ∧ HostMove s t := by
  simp only [agentTurn, hostTurn] at h
  cases hp : s.host.phase with
  | idle => rw [if_pos hp] at h; cases h
  | spin =>
    refine ⟨rfl, ?_⟩
    rw [if_neg (by simp [hp])] at h
    cases hs : inTransfer s.ctx.step with
    | true =>
      rw [if_pos hs] at h
      obtain ⟨n, rfl⟩ := hostPoll_next h
      exact .poll n hs
    | false =>
      rw [if_neg (by simp [hs])] at h
      exact hostComplete_move hs h

/-! ## The bus, the port operations and the wire conditions -/

/-- The state after the bus has completed the byte in flight with the wire symbol `w` (R129, R130): the event is
raised, and of the port only the data register and the event's bits may change besides. -/
structure ByteCompleted (w : WireSym) (s t : State) : Prop where
  wasInflight : s.port.inflight ≠ .none
  port  : t.port = { s.port with
    dataReg := t.port.dataReg, rxNack := t.port.rxNack, arbLost := t.port.arbLost
    inflight := .none, evFlag := true }
  trace : t.trace = { s.trace with wire := s.trace.wire ++ [w] }
  ctx : t.ctx = s.ctx
  host : t.host = s.host
  cfg : t.cfg = s.cfg
  inputs : t.inputs = s.inputs

theorem completeTransmit_next {v : Byte} {a : Bool} {s t : State} (h : completeTransmit v a s = .next t) :
    ByteCompleted (.t v a) s t := by
  unfold completeTransmit at h
  split at h
  · rename_i hi
    cases h
    constructor <;> simp [hi, logWire]
  · cases h

theorem completeReceive_next {v : Byte} {a : Bool} {s t : State} (h : completeReceive v a s = .next t) :
    ByteCompleted (.r v a) s t := by
  unfold completeReceive at h
  split at h
  · rename_i hi
    cases h
    constructor <;> simp [hi, logWire]
  · cases h

/-- The bus's step goes on exactly by completing a byte (R33, R145). -/
theorem busTurn_next {s t : State} (h : agentTurn .bus s = .next t) : ∃ w, ByteCompleted w s t := by
  simp only [agentTurn, busTurn] at h
  split at h
  · cases h
  · exact ⟨_, completeTransmit_next h⟩
  · exact ⟨_, completeReceive_next h⟩

/-- With a byte in flight the bus's step goes on (R129, R130). -/
theorem busTurn_goes_on {s : State} (h : s.port.inflight ≠ .none) : ∃ t, agentTurn .bus s = .next t := by
  simp only [agentTurn, busTurn]
  split
  · contradiction
  · exact ⟨_, if_pos ‹_›⟩
  · exact ⟨_, if_pos ⟨‹_›, rfl⟩⟩

/-- Of the frame of a port operation (R120): neither the context nor the configuration is written. -/
theorem emit_ctx_cfg (op : PortOp) {s t : State} (h : emit op s = .next t) : t.ctx = s.ctx ∧ t.cfg = s.cfg := by
  obtain ⟨-, hc, -, hg, -⟩ := emit_frame h
  exact ⟨hc, hg⟩

/-- The same of the effect without its port symbol, which is what a wire condition is (R122 to R124). -/
theorem applyOp_ctx_cfg (op : PortOp) {s t : State} (h : applyOp op s = .next t) :
    t.ctx = s.ctx ∧ t.cfg = s.cfg :=
  emit_ctx_cfg (t := logPort op t) op (by rw [emit, h, andThen_next])

/-- A port operation or wire symbol driven directly writes neither the context nor the configuration (R120, R133). -/
theorem exec_direct_frame {i : Instr} {s t : State} (hf : formatOf i = .p ∨ formatOf i = .w)
    (h : exec i s = .next t) : t.ctx = s.ctx ∧ t.cfg = s.cfg := by
  cases i with
  | clrEvent => exact emit_ctx_cfg .clrEvent h
  | start => exact emit_ctx_cfg .start h
  | restart => exact emit_ctx_cfg .restart h
  | stop => exact emit_ctx_cfg .stop h
  | setTx b => exact emit_ctx_cfg (.setTx b) h
  | setAck a => exact emit_ctx_cfg (.setAck a) h
  | writeData v => exact emit_ctx_cfg (.writeData v) h
  | readData => exact emit_ctx_cfg .readData h
  | wireS => exact applyOp_ctx_cfg .start h
  | wireSr => exact applyOp_ctx_cfg .restart h
  | wireP => exact applyOp_ctx_cfg .stop h
  | wireT v a => exact ⟨(completeTransmit_next h).ctx, (completeTransmit_next h).cfg⟩
  | wireR v a => exact ⟨(completeReceive_next h).ctx, (completeReceive_next h).cfg⟩
  | _ => simp [formatOf] at hf

/-! ## Where a step fetches -/

/-- The state with the inputs still to come and the free index replaced, which is what fetching changes (log entry
6). -/
def fetched (inputs : List Input) (freeIndex : Nat) (s : State) : State :=
  { s with inputs := inputs, freeIndex := freeIndex }

/-- A decoded input that goes on runs its instruction. -/
theorem runDecoded_next {d : Except Reject Instr} {s t : State} (h : runDecoded d s = .next t) :
    ∃ i, d = .ok i ∧ exec i s = .next t := by
  unfold runDecoded at h
  split at h
  · exact ⟨_, rfl, h⟩
  all_goals cases h

/-- A packet decodes to a command of format C (R60, R66, R67). -/
theorem decodePacket_format {bytes : List Byte} {i : Instr} (h : decodePacket bytes = .ok i) : formatOf i = .c := by
  cases bytes with
  | nil => cases h
  | cons b0 ops =>
    rw [decodePacket_cons] at h
    split at h
    · obtain ⟨r, hm, -, hb⟩ := pickRow_ok h
      simp only [commandRows, List.mem_append, List.mem_cons, List.not_mem_nil, or_false] at hm
      rcases hm with (rfl|rfl|rfl|rfl|rfl)|(rfl|rfl|rfl|rfl|rfl|rfl|rfl|rfl|rfl|rfl|rfl|rfl) <;>
        dsimp only at hb <;> (repeat' split at hb) <;> cases hb <;> rfl
    · cases h

/-- What a step can be: an agent's turn, a command of format C, or, where such an input stands in the state, an
operation driven directly. -/
theorem step_next {s t : State} (h : step s = .next t) :
    ∃ (inputs : List Input) (n : Nat), inputs ⊆ s.inputs ∧
      ((∃ a, agentTurn a (fetched inputs n s) = .next t) ∨
       ∃ i, exec i (fetched inputs n s) = .next t ∧
        (formatOf i = .c ∨ ∃ x ∈ s.inputs, commandInput x = false)) := by
  have hfree (hf : freeStep s = .next t) : ∃ a, agentTurn a (fetched s.inputs (s.freeIndex + 1) s) = .next t := by
    unfold freeStep at hf
    split at hf
    · exact ⟨_, hf⟩
    · cases hf
  have hpacket {bytes : List Byte} {u : State} (hp : runDecoded (decodePacket bytes) u = .next t) :
      ∃ i, exec i u = .next t ∧ formatOf i = .c := by
    obtain ⟨i, hd, hi⟩ := runDecoded_next hp
    exact ⟨i, hi, decodePacket_format hd⟩
  unfold step runInputs at h
  split at h
  case h_1 => exact ⟨_, _, List.Subset.refl _, .inl (hfree h)⟩
  case h_2 bytes rest hin =>
    split at h
    · obtain ⟨i, hi, hc⟩ := hpacket h
      exact ⟨rest, s.freeIndex, by simp [hin], .inr ⟨i, hi, .inl hc⟩⟩
    · exact ⟨_, _, List.Subset.refl _, .inl (hfree h)⟩
  case h_3 bytes rest hin =>
    obtain ⟨i, hi, hc⟩ := hpacket h
    exact ⟨rest, s.freeIndex, by simp [hin], .inr ⟨i, hi, .inl hc⟩⟩
  case h_4 a rest hin => exact ⟨rest, s.freeIndex, by simp [hin], .inl ⟨a, h⟩⟩
  case h_5 sym rest hin =>
    obtain ⟨i, -, hi⟩ := runDecoded_next h
    exact ⟨rest, s.freeIndex, by simp [hin], .inr ⟨i, hi, .inr ⟨.portOp sym, by simp [hin], rfl⟩⟩⟩
  case h_6 sym rest hin =>
    obtain ⟨i, -, hi⟩ := runDecoded_next h
    exact ⟨rest, s.freeIndex, by simp [hin], .inr ⟨i, hi, .inr ⟨.wire sym, by simp [hin], rfl⟩⟩⟩

end Sys2Proof.Machine
end

section
/-! SUPPORT. A sequencer step moves forward (R13, R14), and during a transfer nothing else writes the context (R21);
the bus's step (R33, R145). -/

namespace Sys2Proof.Machine

open Sys2Proof

/-- Settles O36: of the moves of the sequencer none writes `direction`, and each ends the transfer or goes from its
step to one no earlier. -/
theorem sequencerMovesForward : Obligations.SequencerMovesForward := by
  unfold Obligations.SequencerMovesForward
  intro s t h
  obtain ⟨-, hm⟩ := seqTurn_move h
  cases hm with
  | busError => exact ⟨rfl, .inl rfl⟩
  | send hs _ _ =>
    refine ⟨rfl, .inr (.inr ?_)⟩
    simp only [afterEvent_ctx, sentCtx]
    obtain hs | hs := hs <;> rw [hs] <;> split <;> decide
  | startReception hs _ => exact ⟨rfl, .inr (.inr (by simp only [afterEvent_ctx, hs]; decide))⟩
  | storeMore hs _ _ => exact ⟨rfl, .inr (.inr (by simp only [afterEvent_ctx, storedCtx, hs]; decide))⟩
  | storeLastStop | storeLastHeld | sentStop | sentHeld => exact ⟨rfl, .inr (.inl rfl)⟩
  | idle => exact ⟨rfl, .inr (.inr (Nat.le_refl _))⟩

/-- No transfer command is accepted during a transfer (R110 check 7). -/
theorem Issued.not_inTransfer {s t : State} (h : Issued s t) : inTransfer s.ctx.step = false := by
  cases h with
  | write ns rs data cmd hdr hr =>
    obtain ⟨-, -, hs, -⟩ := hr
    exact hs
  | read rs cmd hdr hr =>
    obtain ⟨-, -, hs, -⟩ := hr
    exact hs

/-- During a transfer no command but INIT goes on, and the operations driven directly leave the context as it is. -/
theorem exec_ctx_of_inTransfer {i : Instr} {s t : State} (hs : inTransfer s.ctx.step = true) (hf : formatOf i ≠ .ev)
    (hi : i ≠ .init) (h : exec i s = .next t) : t.ctx = s.ctx := by
  cases hfi : formatOf i with
  | c =>
    obtain hinit | hiss := exec_command_next hfi h
    · exact absurd hinit hi
    · simp [hiss.not_inTransfer] at hs
  | ev => exact absurd hfi hf
  | p => exact (exec_direct_frame (.inl hfi) h).1
  | w => exact (exec_direct_frame (.inr hfi) h).1

/-- During a transfer the host's own step is a poll, which leaves the context as it is (R106). -/
theorem hostTurn_ctx_of_inTransfer {s t : State} (hs : inTransfer s.ctx.step = true)
    (h : agentTurn .host s = .next t) : t.ctx = s.ctx := by
  obtain ⟨-, hm⟩ := hostTurn_move h
  cases hm with
  | poll => rfl
  | respond _ _ hn => simp [hn] at hs
  | secondTransfer _ hr => simp [hr, inTransfer_iff] at hs

/-- Settles O39, by the frames of the three kinds of step. -/
theorem onlyTheSequencerWritesDuringATransfer : Obligations.OnlyTheSequencerWritesDuringATransfer := by
  unfold Obligations.OnlyTheSequencerWritesDuringATransfer
  intro s t hs
  refine ⟨fun i hf hi h => exec_ctx_of_inTransfer hs hf hi h, hostTurn_ctx_of_inTransfer hs, fun h => ?_⟩
  obtain ⟨_, hb⟩ := busTurn_next h
  exact hb.ctx

/-- Settles O49: with a byte in flight the bus's step completes it, and `ByteCompleted` says what that leaves. -/
theorem busStepRaisesOneEvent : Obligations.BusStepRaisesOneEvent := by
  unfold Obligations.BusStepRaisesOneEvent
  intro s
  refine ⟨fun hi => by simp [agentTurn, busTurn, hi], fun hi => ?_⟩
  obtain ⟨t, ht⟩ := busTurn_goes_on hi
  obtain ⟨w, hb⟩ := busTurn_next ht
  have hp := hb.port
  have htr := hb.trace
  exact ⟨t, w, ht, by rw [hp], by rw [hp], by rw [htr], by rw [htr], hb.ctx, hb.host, hb.cfg, hb.inputs,
    by rw [hp], by rw [hp], by rw [hp]⟩

end Sys2Proof.Machine
end

section
/-! SUPPORT. Every step keeps the buffers canonical and inside 0 to CAP-1 (R15, R40, R47). -/

namespace Sys2Proof.Machine

open Sys2Proof

/-- Of a state the canonical form asks only for the buffers and the capacity. -/
theorem BuffersCanonical.congr {s t : State} (h : BuffersCanonical s) (htx : t.ctx.txBuffer = s.ctx.txBuffer)
    (hrx : t.ctx.rxBuffer = s.ctx.rxBuffer) (hcfg : t.cfg = s.cfg) : BuffersCanonical t where
  txForm := htx ▸ h.txForm
  rxForm := hrx ▸ h.rxForm
  txWithin := htx ▸ hcfg ▸ h.txWithin
  rxWithin := hrx ▸ hcfg ▸ h.rxWithin

theorem BuffersCanonical.of_ctx {s t : State} (h : BuffersCanonical s) (hctx : t.ctx = s.ctx) (hcfg : t.cfg = s.cfg) :
    BuffersCanonical t :=
  h.congr (congrArg Context.txBuffer hctx) (congrArg Context.rxBuffer hctx) hcfg

/-- In a well-formed READ transfer the next byte is stored below the length, and so below the capacity (R17, R41). -/
theorem rxCounter_lt_of_wf {cap : Nat} {c : Context} (hw : c.wf cap = true) (hs : c.step = .dataTransmission)
    (hd : c.direction = .read) : c.rxCounter.toNat < c.rxLength.toNat ∧ c.rxLength.toNat ≤ cap := by
  have hrx := wf_read hw hd (by rw [hs]; decide)
  simp only [Context.rxWf, Bool.and_eq_true, decide_eq_true_eq] at hrx
  obtain ⟨⟨⟨-, hcap⟩, hlt⟩, -⟩ := hrx
  exact ⟨hlt, hcap⟩

/-- A byte stored in a READ transfer keeps the canonical form. -/
theorem BuffersCanonical.stored {s : State} (h : BuffersCanonical s) (hw : s.ctx.wf s.cfg.cap = true)
    (hs : s.ctx.step = .dataTransmission) (hd : s.ctx.direction = .read) (p : Step) (v : Byte) (port : Port)
    (ops : List PortOp) (wire : List WireSym) :
    BuffersCanonical (afterEvent s (storedCtx p v s.ctx) port ops wire) := by
  obtain ⟨hlt, hcap⟩ := rxCounter_lt_of_wf hw hs hd
  exact ⟨h.txForm, Memory.write_wf _ _ h.rxForm, h.txWithin, Memory.write_within _ (hlt.trans_le hcap) h.rxWithin⟩

theorem SeqMove.buffersCanonical {s t : State} (hm : SeqMove s t) (hw : s.ctx.wf s.cfg.cap = true)
    (h : BuffersCanonical s) : BuffersCanonical t := by
  cases hm with
  | busError | send | startReception | sentStop | sentHeld | idle => exact h.congr rfl rfl rfl
  | storeMore hs hd | storeLastStop hs hd | storeLastHeld hs hd => exact h.stored hw hs hd ..

/-- Copy-in of data whose length was accepted keeps the canonical form (R41, R42). -/
theorem Issued.buffersCanonical {s t : State} (hm : Issued s t) (h : BuffersCanonical s) : BuffersCanonical t := by
  cases hm with
  | write ns rs data cmd hdr _ hl =>
    have hfit : 0 + data.length ≤ s.cfg.cap := by have := (lengthOk_iff.1 hl).2; omega
    exact ⟨Memory.copyIn_wf _ _ h.txForm, h.rxForm, Memory.copyIn_within _ _ hfit h.txWithin, h.rxWithin⟩
  | read => exact h.congr rfl rfl rfl

theorem exec_buffersCanonical {i : Instr} {s t : State} (h : BuffersCanonical s) (he : exec i s = .next t) :
    BuffersCanonical t := by
  cases hf : formatOf i with
  | c =>
    obtain rfl | hm := exec_command_next hf he
    · obtain ⟨-, rfl⟩ := execInit_next he
      exact h.congr rfl rfl rfl
    · exact hm.buffersCanonical h
  | ev =>
    obtain ⟨⟨-, hw⟩, hm⟩ := exec_event_move hf he
    exact hm.buffersCanonical hw h
  | p =>
    obtain ⟨hctx, hcfg⟩ := exec_direct_frame (.inl hf) he
    exact h.of_ctx hctx hcfg
  | w =>
    obtain ⟨hctx, hcfg⟩ := exec_direct_frame (.inr hf) he
    exact h.of_ctx hctx hcfg

theorem agentTurn_buffersCanonical {a : Agent} {s t : State} (h : BuffersCanonical s)
    (ha : agentTurn a s = .next t) : BuffersCanonical t := by
  cases a with
  | host =>
    obtain ⟨-, hm⟩ := hostTurn_move ha
    cases hm <;> exact h.congr rfl rfl rfl
  | seq =>
    obtain ⟨⟨-, hw⟩, hm⟩ := seqTurn_move ha
    exact hm.buffersCanonical hw h
  | bus =>
    obtain ⟨_, hb⟩ := busTurn_next ha
    exact h.of_ctx hb.ctx hb.cfg

/-- Settles O51: fetching touches no buffer, and every instruction and every agent's turn keeps the form. -/
theorem stepKeepsTheBuffersCanonical : Obligations.StepKeepsTheBuffersCanonical := by
  unfold Obligations.StepKeepsTheBuffersCanonical
  intro s t h hstep
  obtain ⟨inputs, n, -, hrun⟩ := step_next hstep
  have hf : BuffersCanonical (fetched inputs n s) := h.congr rfl rfl rfl
  obtain ⟨a, ha⟩ | ⟨i, hi, -⟩ := hrun
  · exact agentTurn_buffersCanonical hf ha
  · exact exec_buffersCanonical hf hi

end Sys2Proof.Machine
end

section
/-! SUPPORT. Every step of a machine driven through its command layer keeps the command invariant (R17, R22, R24,
R134, R176). The invariant is taken apart into what holds outside a transfer, what holds in one, and what it says of
the host's command; each move of an agent is then shown to end in one of the two kinds of state. -/

namespace Sys2Proof.Machine

open Sys2Proof

/-! ## The parts of the invariant -/

/-- Outside a transfer: the port is quiescent, and before the first INIT nothing has started. -/
structure Terminal (s : State) : Prop where
  step : inTransfer s.ctx.step = false
  noEvent : s.port.evFlag = false
  noByte : s.port.inflight = .none
  fresh : s.ctx.initialised = false → s.host.phase = .idle ∧ s.port.mst = false

/-- In a transfer: the context is well-formed, the host spins, the bus is owned, and either an event is pending or a
byte is in flight. -/
structure Transferring (s : State) : Prop where
  step : inTransfer s.ctx.step = true
  wellFormed : s.ctx.wf s.cfg.cap = true
  initialised : s.ctx.initialised = true
  spinning : s.host.phase = .spin
  owned : s.port.mst = true
  oneByte : s.port.evFlag = true ∧ s.port.inflight = .none ∨ s.port.evFlag = false ∧ s.port.inflight ≠ .none
  mode : s.port.txMode = true ↔ s.ctx.step = .headerSent ∨ s.ctx.direction = .write
  readStops : s.ctx.direction = .read → s.ctx.noStopFlag = false

/-- What the invariant says of the host's command. -/
structure CommandHeld (s : State) : Prop where
  memreadFirst : s.host.phase = .spin → s.host.cmd.op = .memread → s.host.sub = .first →
    s.ctx.direction = .write ∧ s.ctx.noStopFlag = true ∧ (s.ctx.step = .ready → s.port.mst = true)
  subOne : s.host.phase = .idle ∨ s.host.cmd.op ≠ .memread → s.host.sub = .first
  readLength : s.host.phase = .spin → (s.host.cmd.op = .read ∨ s.host.cmd.op = .memread) →
    lengthOk s.cfg.cap s.host.cmd.length.toNat = true

theorem CommandInv.terminal {s : State} (h : CommandInv s) (hs : inTransfer s.ctx.step = false) : Terminal s := by
  obtain ⟨he, hi⟩ := h.quiet hs
  refine ⟨hs, he, hi, fun hf => ?_⟩
  obtain ⟨hp, -, hm⟩ := h.fresh hf
  exact ⟨hp, hm⟩

theorem CommandInv.transferring {s : State} (h : CommandInv s) (hs : inTransfer s.ctx.step = true) :
    Transferring s where
  step := hs
  wellFormed := h.wellFormed
  initialised := by
    by_contra hf
    obtain ⟨-, hn, -⟩ := h.fresh (by simpa using hf)
    simp [hn] at hs
  spinning := (h.active hs).1
  owned := (h.active hs).2.1
  oneByte := by
    obtain ⟨-, -, he | hi⟩ := h.active hs
    · exact .inl ⟨he, h.oneEvent he⟩
    · exact .inr ⟨by simpa using fun he => hi (h.oneEvent he), hi⟩
  mode := h.mode hs
  readStops := h.readStops hs

theorem CommandInv.commandHeld {s : State} (h : CommandInv s) : CommandHeld s :=
  ⟨h.memreadFirst, h.subOne, h.readLength⟩

/-- With an event pending or a byte in flight the machine is in a transfer (R176). -/
theorem CommandInv.transferring_of_port {s : State} (h : CommandInv s)
    (hp : s.port.evFlag = true ∨ s.port.inflight ≠ .none) : Transferring s := by
  refine h.transferring ?_
  by_contra hs
  have hq := h.terminal (by simpa using hs)
  simp [hq.noEvent, hq.noByte] at hp

/-- A context outside a transfer is well-formed (R22). -/
theorem wf_of_not_inTransfer {cap : Nat} {c : Context} (hs : inTransfer c.step = false) : c.wf cap = true := by
  obtain he | hr := (not_inTransfer_iff _).1 hs
  · simp [Context.wf, he, isStep, inTransfer, Step.code]
  · simp [Context.wf, hr, isStep, inTransfer, Step.code]

/-- The invariant from its parts, for a state with the configuration and the inputs of one that meets it. -/
theorem CommandInv.of_parts {s t : State} (h : CommandInv s) (hcfg : t.cfg = s.cfg) (hin : t.inputs = s.inputs)
    (hb : BuffersCanonical t)
    (hc : t.ctx.txCounter.toNat ≤ t.ctx.txLength.toNat ∧ t.ctx.rxCounter.toNat ≤ t.ctx.rxLength.toNat)
    (hh : CommandHeld t) (hp : Terminal t ∨ Transferring t) : CommandInv t where
  cap := hcfg ▸ h.cap
  unbounded := hcfg ▸ h.unbounded
  buffers := hb
  commands := hin ▸ h.commands
  counters := hc
  memreadFirst := hh.memreadFirst
  subOne := hh.subOne
  readLength := hh.readLength
  fresh hf := by
    obtain hp | hp := hp
    · exact ⟨(hp.fresh hf).1, hp.step, (hp.fresh hf).2⟩
    · simp [hp.initialised] at hf
  wellFormed := by
    obtain hp | hp := hp
    · exact wf_of_not_inTransfer hp.step
    · exact hp.wellFormed
  oneEvent he := by
    obtain hp | hp := hp
    · exact hp.noByte
    · simpa [he] using hp.oneByte
  quiet hs := by
    obtain hp | hp := hp
    · exact ⟨hp.noEvent, hp.noByte⟩
    · simp [hp.step] at hs
  active hs := by
    obtain hp | hp := hp
    · simp [hp.step] at hs
    · exact ⟨hp.spinning, hp.owned, hp.oneByte.imp And.left And.right⟩
  mode hs := by
    obtain hp | hp := hp
    · simp [hp.step] at hs
    · exact hp.mode
  readStops hs := by
    obtain hp | hp := hp
    · simp [hp.step] at hs
    · exact hp.readStops

/-- Fetching keeps the invariant: it takes inputs away and advances the free index. -/
theorem CommandInv.fetched {s : State} (h : CommandInv s) {inputs : List Input} (n : Nat) (hsub : inputs ⊆ s.inputs) :
    CommandInv (fetched inputs n s) where
  cap := h.cap
  unbounded := h.unbounded
  buffers := h.buffers.congr rfl rfl rfl
  commands := List.all_eq_true.2 fun x hx => List.all_eq_true.1 h.commands x (hsub hx)
  fresh := h.fresh
  wellFormed := h.wellFormed
  counters := h.counters
  oneEvent := h.oneEvent
  quiet := h.quiet
  active := h.active
  mode := h.mode
  readStops := h.readStops
  memreadFirst := h.memreadFirst
  subOne := h.subOne
  readLength := h.readLength

/-! ## The counters of a well-formed transfer (R17, R22) -/

/-- In a WRITE transfer the context is well-formed if its transmit part is. -/
theorem wf_of_txWf {cap : Nat} {c : Context} (hs : isStep c.step = true) (hd : c.direction = .write)
    (h : c.txWf cap = true) : c.wf cap = true := by simp [Context.wf, hs, hd, h]

/-- In a READ transfer the context is well-formed if its receive part is. -/
theorem wf_of_rxWf {cap : Nat} {c : Context} (hs : isStep c.step = true) (hd : c.direction = .read)
    (h : c.rxWf cap = true) : c.wf cap = true := by simp [Context.wf, hs, hd, h]

/-- While a WRITE transfer sends, its counter is below its length. -/
theorem txCounter_lt_of_wf {cap : Nat} {c : Context} (hw : c.wf cap = true) (hd : c.direction = .write)
    (hs : c.step = .headerSent ∨ c.step = .dataTransmission) :
    c.txCounter.toNat < c.txLength.toNat ∧ c.txLength.toNat ≤ cap := by
  have htx := wf_write hw hd (by obtain hs | hs := hs <;> rw [hs] <;> decide)
  obtain hs | hs := hs <;> simp [Context.txWf, hs] at htx <;> omega

@[simp] theorem sentCtx_step (p : Step) (c : Context) :
    (sentCtx p c).step = if c.txCounter + 1 = c.txLength then .dataSent else p := rfl
@[simp] theorem sentCtx_direction (p : Step) (c : Context) : (sentCtx p c).direction = c.direction := rfl
@[simp] theorem sentCtx_txLength (p : Step) (c : Context) : (sentCtx p c).txLength = c.txLength := rfl
@[simp] theorem sentCtx_txCounter (p : Step) (c : Context) : (sentCtx p c).txCounter = c.txCounter + 1 := rfl

/-- Sending a byte leaves the context well-formed: DATA_SENT exactly when the counter has reached the length. -/
theorem sentCtx_wf {cap : Nat} {c : Context} (hw : c.wf cap = true) (hd : c.direction = .write)
    (hs : c.step = .headerSent ∨ c.step = .dataTransmission) : (sentCtx .dataTransmission c).wf cap = true := by
  obtain ⟨hlt, hcap⟩ := txCounter_lt_of_wf hw hd hs
  have hadd := add_one_toNat hlt
  by_cases heq : c.txCounter + 1 = c.txLength
  · have hstep : (sentCtx .dataTransmission c).step = .dataSent := if_pos heq
    have hlen := (add_one_eq_iff hlt).1 heq
    refine wf_of_txWf (by rw [hstep]; rfl) hd ?_
    simp only [Context.txWf, hstep, Bool.and_eq_true, decide_eq_true_eq]
    rw [sentCtx_txLength, sentCtx_txCounter]
    omega
  · have hstep : (sentCtx .dataTransmission c).step = .dataTransmission := if_neg heq
    have hlen := mt (add_one_eq_iff hlt).2 heq
    refine wf_of_txWf (by rw [hstep]; rfl) hd ?_
    simp only [Context.txWf, hstep, Bool.and_eq_true, decide_eq_true_eq]
    rw [sentCtx_txLength, sentCtx_txCounter]
    omega

/-- The first reception leaves the context well-formed (R84). -/
theorem startReception_wf {cap : Nat} {c : Context} (hw : c.wf cap = true) (hd : c.direction = .read)
    (hs : c.step = .headerSent) : Context.wf cap { c with step := .dataTransmission } = true := by
  have hrx := wf_read hw hd (by rw [hs]; decide)
  simp only [Context.rxWf, Bool.and_eq_true, decide_eq_true_eq] at hrx
  obtain ⟨hrange, -⟩ := hrx
  exact wf_of_rxWf rfl hd (by simpa [Context.rxWf] using hrange)

/-- Storing a byte that is not the last leaves the context well-formed (R86). -/
theorem storedCtx_wf {cap : Nat} {c : Context} (v : Byte) (hw : c.wf cap = true) (hd : c.direction = .read)
    (hs : c.step = .dataTransmission) (hr : 2 ≤ c.rem.toNat) : (storedCtx .dataTransmission v c).wf cap = true := by
  obtain ⟨hlt, hcap⟩ := rxCounter_lt_of_wf hw hs hd
  rw [rem_toNat hlt.le] at hr
  have hadd := add_one_toNat hlt
  simp only [Context.wf, Context.rxWf, storedCtx, hd, hadd, isStep]
  simp; omega

/-! ## The sequencer -/

/-- A sequencer step keeps what the invariant says of the host's command, if the success of MEMREAD's first transfer
leaves the bus owned (R104). -/
theorem CommandHeld.afterEvent {s : State} (h : CommandHeld s) {c : Context} {port : Port} {ops : List PortOp}
    {wire : List WireSym} (hd : c.direction = s.ctx.direction) (hn : c.noStopFlag = s.ctx.noStopFlag)
    (hm : s.ctx.direction = .write → s.ctx.noStopFlag = true → c.step = .ready → port.mst = true) :
    CommandHeld (afterEvent s c port ops wire) where
  memreadFirst hp hop hsub := by
    obtain ⟨hdir, hns, -⟩ := h.memreadFirst hp hop hsub
    exact ⟨hd.trans hdir, hn.trans hns, hm hdir hns⟩
  subOne := h.subOne
  readLength := h.readLength

/-- A port left with neither an event nor a byte, after the transfer's end. -/
theorem Transferring.terminal_afterEvent {s : State} (h : Transferring s) {c : Context} {port : Port}
    {ops : List PortOp} {wire : List WireSym} (hs : inTransfer c.step = false)
    (hi : c.initialised = s.ctx.initialised) (he : port.evFlag = false) (hb : port.inflight = .none) :
    Terminal (afterEvent s c port ops wire) :=
  ⟨hs, he, hb, fun hf => by simp [hi, h.initialised] at hf⟩

theorem SeqMove.commandInv {s t : State} (hm : SeqMove s t) (h : CommandInv s) (he : s.port.evFlag = true) :
    CommandInv t := by
  have hT := h.transferring_of_port (.inl he)
  have hidle : s.port.inflight = .none := h.oneEvent he
  have hb := hm.buffersCanonical h.wellFormed h.buffers
  have hh := h.commandHeld
  obtain ⟨htx, hrx⟩ := h.counters
  have hstop : (stoppedPort s.port).inflight = .none := by simp [stoppedPort, hT.owned]
  cases hm with
  | busError =>
    exact h.of_parts rfl rfl hb ⟨htx, hrx⟩ (hh.afterEvent rfl rfl nofun)
      (.inl (hT.terminal_afterEvent rfl rfl rfl hstop))
  | send hs hd hp =>
    obtain ⟨hlt, -⟩ := txCounter_lt_of_wf h.wellFormed hd hs
    refine h.of_parts rfl rfl hb ⟨(add_one_toNat hlt).trans_le hlt, hrx⟩ (hh.afterEvent rfl rfl ?_) (.inr ?_)
    · intro _ _ hready
      rw [sentCtx_step] at hready
      split at hready <;> cases hready
    · exact
      { step := by rw [afterEvent_ctx, sentCtx_step]; split <;> rfl
        wellFormed := sentCtx_wf h.wellFormed hd hs
        initialised := hT.initialised
        spinning := hT.spinning
        owned := hT.owned
        oneByte := .inr ⟨rfl, nofun⟩
        mode := ⟨fun _ => .inr hd, fun _ => hp.2.1⟩
        readStops := hT.readStops }
  | startReception hs hd =>
    refine h.of_parts rfl rfl hb ⟨htx, hrx⟩ (hh.afterEvent rfl rfl nofun) (.inr ?_)
    exact
      { step := rfl
        wellFormed := startReception_wf h.wellFormed hd hs
        initialised := hT.initialised
        spinning := hT.spinning
        owned := hT.owned
        oneByte := .inr ⟨rfl, by simp [hT.owned]⟩
        mode := by simp [hd]
        readStops := hT.readStops }
  | storeMore hs hd hr =>
    obtain ⟨hlt, -⟩ := rxCounter_lt_of_wf h.wellFormed hs hd
    have hrecv : s.port.txMode = false := by simpa [hs, hd] using hT.mode
    refine h.of_parts rfl rfl hb ⟨htx, (add_one_toNat hlt).trans_le hlt⟩ (hh.afterEvent rfl rfl nofun) (.inr ?_)
    exact
      { step := rfl
        wellFormed := storedCtx_wf _ h.wellFormed hd hs hr
        initialised := hT.initialised
        spinning := hT.spinning
        owned := hT.owned
        oneByte := .inr ⟨rfl, by simp [readInflight, hT.owned, hrecv]⟩
        mode := by simp [storedCtx, hrecv, hd]
        readStops := hT.readStops }
  | storeLastStop hs hd hr hn =>
    obtain ⟨hlt, -⟩ := rxCounter_lt_of_wf h.wellFormed hs hd
    exact h.of_parts rfl rfl hb ⟨htx, (add_one_toNat hlt).trans_le hlt⟩
      (hh.afterEvent rfl rfl fun hw => by simp [hd] at hw) (.inl (hT.terminal_afterEvent rfl rfl rfl hstop))
  | storeLastHeld hs hd hr hn => simp [hT.readStops hd] at hn
  | sentStop hs hd hn =>
    exact h.of_parts rfl rfl hb ⟨htx, hrx⟩ (hh.afterEvent rfl rfl fun _ hf => by simp [hn] at hf)
      (.inl (hT.terminal_afterEvent rfl rfl rfl hstop))
  | sentHeld hs hd hn =>
    exact h.of_parts rfl rfl hb ⟨htx, hrx⟩ (hh.afterEvent rfl rfl fun _ _ _ => hT.owned)
      (.inl (hT.terminal_afterEvent rfl rfl rfl hidle))
  | idle hs => simp [hT.step] at hs

/-! ## The bus -/

theorem ByteCompleted.commandInv {w : WireSym} {s t : State} (hb : ByteCompleted w s t) (h : CommandInv s) :
    CommandInv t := by
  have hT := h.transferring_of_port (.inr hb.wasInflight)
  have hh := h.commandHeld
  obtain ⟨-, hport, -, hctx, hhost, hcfg, hin⟩ := hb
  refine h.of_parts hcfg hin (h.buffers.of_ctx hctx hcfg) (hctx ▸ h.counters) ?_ (.inr ?_)
  · constructor
    · rw [hhost, hctx, hport]; exact hh.memreadFirst
    · rw [hhost]; exact hh.subOne
    · rw [hhost, hcfg]; exact hh.readLength
  · exact
    { step := hctx ▸ hT.step
      wellFormed := by rw [hctx, hcfg]; exact hT.wellFormed
      initialised := hctx ▸ hT.initialised
      spinning := hhost ▸ hT.spinning
      owned := by rw [hport]; exact hT.owned
      oneByte := .inl (by rw [hport]; exact ⟨rfl, rfl⟩)
      mode := by rw [hport, hctx]; exact hT.mode
      readStops := hctx ▸ hT.readStops }

/-! ## The host -/

/-- With the host idle and `host.sub` 1, nothing is asked of the command. -/
theorem CommandHeld.of_idle {s : State} (hp : s.host.phase = .idle) (hs : s.host.sub = .first) : CommandHeld s where
  memreadFirst hn := by simp [hp] at hn
  subOne _ := hs
  readLength hn := by simp [hp] at hn

/-- INIT, accepted with the host idle and so outside a transfer, ends in READY with the port quiescent (R101). -/
theorem execInit_commandInv {s t : State} (h : CommandInv s) (he : execInit s = .next t) : CommandInv t := by
  obtain ⟨hp, rfl⟩ := execInit_next he
  have hs : inTransfer s.ctx.step = false := by
    by_contra hs
    have hspin := (h.transferring (by simpa using hs)).spinning
    simp [hp] at hspin
  obtain ⟨-, hev, hby, -⟩ := h.terminal hs
  exact h.of_parts rfl rfl (h.buffers.congr rfl rfl rfl) ⟨le_rfl, le_rfl⟩ (.of_idle rfl rfl)
    (.inl ⟨rfl, hev, hby, nofun⟩)

/-- The context of a WRITE transfer set up with an accepted length is well-formed. -/
theorem writeCtx_wf {cfg : Config} {data : List Byte} (hcap : capLegal cfg) (hl : lengthOk cfg.cap data.length = true)
    (ns rs : Bool) (c : Context) : (writeCtx ns rs data c).wf cfg.cap = true := by
  obtain ⟨hmin, hmax⟩ := lengthOk_iff.1 hl
  have hlen := lenByte_toNat (data := data) (by have := hcap.2; omega)
  exact wf_of_txWf rfl rfl (by simp [Context.txWf, writeCtx, hlen, hmin, hmax])

/-- The context of a READ transfer set up with an accepted length is well-formed. -/
theorem readCtx_wf {cap : Nat} {len : Byte} (hl : lengthOk cap len.toNat = true) (rs : Bool) (c : Context) :
    (readCtx rs len c).wf cap = true := by
  obtain ⟨hmin, hmax⟩ := lengthOk_iff.1 hl
  refine wf_of_rxWf rfl rfl ?_
  simp only [Context.rxWf, Bool.and_eq_true, decide_eq_true_eq]
  exact ⟨⟨⟨hmin, hmax⟩, hmin⟩, rfl⟩

theorem Issued.commandInv {s t : State} (hm : Issued s t) (h : CommandInv s) : CommandInv t := by
  have hb := hm.buffersCanonical h.buffers
  obtain ⟨htx, hrx⟩ := h.counters
  cases hm with
  | write ns rs data cmd hdr hr hl hop hmem =>
    obtain ⟨⟨-, hev, -⟩, hinit, -, -⟩ := hr
    refine h.of_parts rfl rfl hb ⟨Nat.zero_le _, hrx⟩ ?_ (.inr ?_)
    · exact
      { memreadFirst := fun _ hmr _ => ⟨rfl, (hmem hmr).1, nofun⟩
        subOne := fun _ => rfl
        readLength := fun _ hrd => (hmem (hrd.resolve_left hop)).2 }
    · exact
      { step := rfl
        wellFormed := writeCtx_wf h.cap hl ..
        initialised := hinit
        spinning := rfl
        owned := rfl
        oneByte := .inr ⟨hev, nofun⟩
        mode := by simp [writeCtx]
        readStops := nofun }
  | read rs cmd hdr hr hl hop =>
    obtain ⟨⟨-, hev, -⟩, hinit, -, -⟩ := hr
    refine h.of_parts rfl rfl hb ⟨htx, Nat.zero_le _⟩ ?_ (.inr ?_)
    · exact
      { memreadFirst := fun _ hmr => by simp [hop] at hmr
        subOne := fun _ => rfl
        readLength := fun _ _ => hl }
    · exact
      { step := rfl
        wellFormed := readCtx_wf hl ..
        initialised := hinit
        spinning := rfl
        owned := rfl
        oneByte := .inr ⟨hev, nofun⟩
        mode := by simp [readCtx]
        readStops := fun _ => rfl }

theorem HostMove.commandInv {s t : State} (hm : HostMove s t) (hp : s.host.phase = .spin) (h : CommandInv s) :
    CommandInv t := by
  have hb : BuffersCanonical t := by cases hm <;> exact h.buffers.congr rfl rfl rfl
  obtain ⟨htx, hrx⟩ := h.counters
  cases hm with
  | poll n hs =>
    have hT := h.transferring hs
    have hh := h.commandHeld
    exact h.of_parts rfl rfl hb ⟨htx, hrx⟩ ⟨hh.memreadFirst, hh.subOne, hh.readLength⟩
      (.inr { hT with spinning := hp })
  | respond packet restart hs =>
    obtain ⟨-, hev, hby, hfresh⟩ := h.terminal hs
    exact h.of_parts rfl rfl hb ⟨htx, hrx⟩ (.of_idle rfl rfl)
      (.inl ⟨hs, hev, hby, fun hf => ⟨rfl, (hfresh hf).2⟩⟩)
  | secondTransfer hop hs hm =>
    have hterm := h.terminal (by rw [hs]; rfl)
    have hl := h.readLength hp (.inr hop)
    refine h.of_parts rfl rfl hb ⟨htx, Nat.zero_le _⟩ ?_ (.inr ?_)
    · exact
      { memreadFirst := fun _ _ => nofun
        subOne := fun hout => by simp [hp, hop] at hout
        readLength := fun _ _ => hl }
    · exact
      { step := rfl
        wellFormed := readCtx_wf hl ..
        initialised := by
          by_contra hf
          obtain ⟨hidle, -⟩ := hterm.fresh (by simpa [readCtx] using hf)
          simp [hp] at hidle
        spinning := hp
        owned := rfl
        oneByte := .inr ⟨hterm.noEvent, nofun⟩
        mode := by simp [readCtx]
        readStops := fun _ => rfl }

/-! ## The step -/

theorem agentTurn_commandInv {a : Agent} {s t : State} (h : CommandInv s) (ha : agentTurn a s = .next t) :
    CommandInv t := by
  cases a with
  | host =>
    obtain ⟨hp, hm⟩ := hostTurn_move ha
    exact hm.commandInv hp h
  | seq =>
    obtain ⟨⟨he, -⟩, hm⟩ := seqTurn_move ha
    exact hm.commandInv h he
  | bus =>
    obtain ⟨_, hb⟩ := busTurn_next ha
    exact hb.commandInv h

theorem exec_command_commandInv {i : Instr} {s t : State} (h : CommandInv s) (hf : formatOf i = .c)
    (he : exec i s = .next t) : CommandInv t := by
  obtain rfl | hm := exec_command_next hf he
  · exact execInit_commandInv h he
  · exact hm.commandInv h

/-- Settles O52: fetching keeps the invariant, no operation driven directly can be fetched, and the commands and each
agent's turn keep it. -/
theorem stepKeepsTheCommandInvariant : Obligations.StepKeepsTheCommandInvariant := by
  unfold Obligations.StepKeepsTheCommandInvariant
  intro s t h hstep
  obtain ⟨inputs, n, hsub, hrun⟩ := step_next hstep
  have hf := h.fetched n hsub
  obtain ⟨a, ha⟩ | ⟨i, hi, hc | ⟨x, hx, hdirect⟩⟩ := hrun
  · exact agentTurn_commandInv hf ha
  · exact exec_command_commandInv hf hc hi
  · simp [List.all_eq_true.1 h.commands x hx] at hdirect

end Sys2Proof.Machine
end

section
/-! SUPPORT. Copy-in from index 0 and what a WRITE leaves in the two buffers (R42, R46); a step with nothing asked of
the machine (R51, R160). -/

namespace Sys2Proof.Machine

open Sys2Proof

/-! ## Copy-in from index 0 -/

/-- Below the length a buffer reads as the data copied in (R42). -/
theorem Memory.read_copyIn_zero_of_lt {m : Memory} {data : List Byte} {j : Nat} (hm : m.wf) (h : j < data.length) :
    (m.copyIn 0 data).read j = data[j] := by
  simp [Memory.read_copyIn 0 data j hm, h]

/-- At the length and above a buffer reads as before the copy-in (R46). -/
theorem Memory.read_copyIn_zero_of_le {m : Memory} {data : List Byte} {j : Nat} (hm : m.wf) (h : data.length ≤ j) :
    (m.copyIn 0 data).read j = m.read j := by
  simp [Memory.read_copyIn 0 data j hm, h]

/-- Settles O19: a WRITE that is accepted copies its data in at index 0 and leaves the receive buffer alone. -/
theorem copyInFillsFromIndexZero : Obligations.CopyInFillsFromIndexZero := by
  unfold Obligations.CopyInFillsFromIndexZero
  intro s t ns rs addr data hw h
  obtain ⟨-, -, -, rfl⟩ := execWrite_next h
  exact ⟨fun _ hj => Memory.read_copyIn_zero_of_lt hw hj, fun _ hj => Memory.read_copyIn_zero_of_le hw hj, rfl⟩

/-! ## A step in the free order -/

/-- With no input left the step is one in the free order (log entry 6). -/
theorem step_of_inputs_nil {s : State} (h : s.inputs = []) : step s = freeStep s := by
  simp [step, runInputs, h]

/-- A step in the free order is one of an agent that has a step; it is refused when no agent has (R51, R160). -/
theorem freeStep_cases (s : State) :
    (∃ a, agentEnabled s a = true ∧ freeStep s = agentTurn a { s with freeIndex := s.freeIndex + 1 }) ∨
    ((∀ a, agentEnabled s a = false) ∧ freeStep s = .refused (.notEnabled .host)) := by
  cases hc : chosenAgent s with
  | some a => exact .inl ⟨a, chosenAgent_enabled hc, by simp [freeStep, hc]⟩
  | none => exact .inr ⟨chosenAgent_eq_none.1 hc, by simp [freeStep, hc]⟩

/-- Settles O10: by the agent the free order chooses. -/
theorem unaskedStepIsOfAnEnabledAgent : Obligations.UnaskedStepIsOfAnEnabledAgent := by
  unfold Obligations.UnaskedStepIsOfAnEnabledAgent
  intro s h
  rw [step_of_inputs_nil h]
  exact freeStep_cases s

end Sys2Proof.Machine
end

section
/-! SUPPORT. Decoding and encoding are inverse to each other in each of the four formats (R61 to R73). -/

namespace Sys2Proof

open Sys2Proof.Machine
open Sys2Proof.Laws

/-! ## Rows that exclude each other -/

/-- Two rows that differ on a bit both of them fix. -/
def Row.Apart {w : Nat} {Operands : Type} (r r' : Row w Operands) : Prop :=
  r.pattern &&& r'.mask ≠ r'.pattern &&& r.mask

/-- No word selects two rows that are apart. -/
theorem Row.Apart.not_selects {w : Nat} {Operands : Type} {r r' : Row w Operands} (h : Row.Apart r r')
    {word : BitVec w} {ops : Operands} (hr : r.selects word ops = true) : r'.selects word ops = false := by
  by_contra hr'
  simp only [Row.selects, Bool.and_eq_true, beq_iff_eq, Bool.not_eq_false] at hr hr'
  refine h ?_
  rw [← hr.1, ← hr'.1, BitVec.and_assoc, BitVec.and_assoc, BitVec.and_comm r.mask]

/-- Of rows that are apart the one selected is the one picked, wherever it stands. -/
theorem pickRow_of_apart {w : Nat} {Operands : Type} {e : Reject} {word : BitVec w} {ops : Operands}
    {rows : List (Row w Operands)} {r : Row w Operands} (h : rows.Pairwise Row.Apart) (hr : r ∈ rows)
    (hs : r.selects word ops = true) : pickRow e word ops rows = r.build word ops := by
  induction rows with
  | nil => cases hr
  | cons r' rows ih =>
    obtain ⟨hhead, htail⟩ := List.pairwise_cons.1 h
    obtain rfl | hr := List.mem_cons.1 hr
    · simp [pickRow, hs]
    · have hn : r'.selects word ops = false := by
        by_contra hs'
        simp [(hhead r hr).not_selects (by simpa using hs')] at hs
      simpa [pickRow, hn] using ih htail hr

/-- The row whose mask and match the word meets, read as numbers as `TableRow` reads them, is the one picked (R66). -/
theorem pickRow_of_toNat {w : Nat} {Operands : Type} {e : Reject} {word : BitVec w} {ops : Operands}
    {rows : List (Row w Operands)} {r : Row w Operands} (h : rows.Pairwise Row.Apart) (hr : r ∈ rows)
    (hc : r.cond ops = true) (hs : word.toNat &&& r.mask.toNat = r.pattern.toNat) :
    pickRow e word ops rows = r.build word ops := by
  have hw : word &&& r.mask = r.pattern := BitVec.eq_of_toNat_eq hs
  exact pickRow_of_apart h hr (by simp [Row.selects, hw, hc])

/-- The rows of formats C, P and W exclude each other (R66, R67, R72, R73), by their masks and matches alone. Of format
EV the two receive rows share theirs (R70). -/
theorem commandRows_apart : commandRows.Pairwise Row.Apart := by unfold Row.Apart; decide
theorem portRows_apart : portRows.Pairwise Row.Apart := by unfold Row.Apart; decide
theorem wireRows_apart : wireRows.Pairwise Row.Apart := by unfold Row.Apart; decide

/-! ## Words put together again from the fields a mask leaves free -/

/-- A word whose high bits are fixed is those bits with the low bits behind them. -/
theorem exists_low_of_mask {a b : Nat} {w : BitVec (a + b)} {high : BitVec a}
    (h : w &&& (BitVec.allOnes a ++ 0#b) = high ++ 0#b) : ∃ low : BitVec b, w = high ++ low := by
  refine ⟨w.extractLsb' 0 b, ?_⟩
  ext i hi
  have hbit := congrArg (·.getLsbD i) h
  by_cases hib : i < b
  · simp [BitVec.getElem_append, hib, BitVec.getLsbD_eq_getElem hi]
  · have hia : i - b < a := by omega
    simpa [BitVec.getLsbD_append, BitVec.getElem_append, hib, hia, BitVec.getLsbD_eq_getElem hi] using hbit

/-- A word all of whose bits are fixed. -/
theorem eq_of_full_mask {w : Nat} {word mask pattern : BitVec w} (hm : mask = BitVec.allOnes w)
    (h : word &&& mask = pattern) : pattern = word := by
  rw [← h, hm, BitVec.and_allOnes]

/-- Byte 0 from its `op` and the two flags that the mask of WRITE leaves free (R66). -/
theorem byte0_of_flags_free : ∀ (op : BitVec 3) (b : Byte), b &&& 0xE7 = byte0 op false false →
    byte0 op (b.getLsbD 3) (b.getLsbD 4) = b := by decide +kernel

/-- Byte 0 from its `op` and `NS` and the flag `RS` that the mask of READ leaves free (R66). -/
theorem byte0_of_rs_free : ∀ (op : BitVec 3) (ns : Bool) (b : Byte), b &&& 0xEF = byte0 op ns false →
    byte0 op ns (b.getLsbD 4) = b := by decide +kernel

/-- The operation field of a byte 0 (R61). -/
@[simp] theorem byte0_op (op : BitVec 3) (ns rs : Bool) : (byte0 op ns rs).extractLsb' 0 3 = op := by
  revert op ns rs; decide

/-! ## Format C -/

/-- The row of the command table that byte 0 selects decides what the packet stands for (R66, R67). -/
theorem decodeCommand_of_row {b0 : Byte} {r : Row 8 (List Byte)} (hr : r ∈ commandRows)
    (hs : b0.toNat &&& r.mask.toNat = r.pattern.toNat) (ops : List Byte) :
    decodeCommand b0 ops = r.build b0 ops :=
  pickRow_of_toNat commandRows_apart hr (congrFun (commandRows_unconditional r hr) ops) hs

/-- Operand bytes that fit the code of a command are what its well-formedness asks for (R62, R64). -/
theorem wf_of_encode {i : Instr} {b0 : Byte} {ops : List Byte} (h : encode i = .packet (b0 :: ops)) :
    i.wf = operandsFit (b0.extractLsb' 0 3) ops := by
  have hlen (data : List Byte) : decide (data.length < 256) = (data.length == (lenByte data).toNat) := by
    rw [Bool.eq_iff_iff]; simp [lenByte]; omega
  cases i with
  | write ns rs addr data => cases h; rw [byte0_op]; exact hlen data
  | memwrite addr maddr data => cases h; rw [byte0_op]; exact hlen data
  | reservedOp67 low => cases h; rw [byte0_op]; cases low <;> rfl
  | reservedZero7 low | reservedZero6 low | reservedZero5 low =>
    cases h; rw [BitVec.extractLsb'_append_eq_of_add_le (by decide)]; rfl
  | init | read | memread | writeThenRead => cases h; rw [byte0_op]; rfl
  | reservedInitNs | reservedInitRs | reservedReadNs | reservedMemreadNs | reservedMemreadRs | reservedMemwriteNs
  | reservedMemwriteRs => cases h; rw [byte0_op]; rfl
  | _ => cases h

/-- The row of a command's byte 0 builds the command from its code. -/
theorem decodeCommand_encode {i : Instr} {b0 : Byte} {ops : List Byte} (h : encode i = .packet (b0 :: ops)) :
    decodeCommand b0 ops = .ok i := by
  cases i with
  | init | memread | memwrite | reservedInitRs | reservedMemreadRs | reservedMemwriteRs => cases h; rfl
  | read rs | reservedInitNs rs | reservedReadNs rs | reservedMemreadNs rs | reservedMemwriteNs rs =>
    cases h; cases rs <;> rfl
  | write ns rs | writeThenRead ns rs => cases h; cases ns <;> cases rs <;> rfl
  | reservedOp67 low ns rs => cases h; cases low <;> cases ns <;> cases rs <;> rfl
  | reservedZero7 low =>
    cases h
    rw [decodeCommand_of_row (r := commandRows[7]) (List.getElem_mem _) (TableRow.reservedZero7 low ops)]
    exact congrArg (Except.ok <| Instr.reservedZero7 · ops) BitVec.extractLsb'_append_eq_right
  | reservedZero6 low =>
    cases h
    rw [decodeCommand_of_row (r := commandRows[8]) (List.getElem_mem _) (TableRow.reservedZero6 low ops)]
    exact congrArg (Except.ok <| Instr.reservedZero6 · ops) BitVec.extractLsb'_append_eq_right
  | reservedZero5 low =>
    cases h
    rw [decodeCommand_of_row (r := commandRows[9]) (List.getElem_mem _) (TableRow.reservedZero5 low ops)]
    exact congrArg (Except.ok <| Instr.reservedZero5 · ops) BitVec.extractLsb'_append_eq_right
  | _ => cases h

/-- The code of a well-formed command passes the length check and decodes to the command. -/
theorem decodePacket_encode {i : Instr} {b0 : Byte} {ops : List Byte} (h : encode i = .packet (b0 :: ops))
    (hw : i.wf = true) : decodePacket (b0 :: ops) = .ok i := by
  rw [decodePacket_cons, ← wf_of_encode h, if_pos hw, decodeCommand_encode h]

/-- The LEN byte of data is the byte that counts them (R64). -/
theorem lenByte_of_length {data : List Byte} {len : Byte} (h : data.length = len.toNat) : lenByte data = len := by
  simp [lenByte, h]

/-- The rows of the reserved patterns (R67). -/
def reservedRows : List (Row 8 (List Byte)) := commandRows.drop 5

/-- The command table is the five rows of R66 and the reserved patterns of R67. -/
theorem mem_commandRows {r : Row 8 (List Byte)} : r ∈ commandRows ↔ r ∈ commandRows.take 5 ∨ r ∈ reservedRows := by
  rw [← List.mem_append, reservedRows, List.take_append_drop]

/-- A reserved pattern keeps byte 0 in its fields and every operand byte (R67). -/
theorem encode_of_reservedRow {r : Row 8 (List Byte)} {b0 : Byte} {ops : List Byte} {i : Instr}
    (hr : r ∈ reservedRows) (hs : b0 &&& r.mask = r.pattern) (hb : r.build b0 ops = .ok i) :
    encode i = .packet (b0 :: ops) := by
  simp only [reservedRows, commandRows, List.cons_append, List.nil_append, List.drop_succ_cons, List.drop_zero,
    List.mem_cons, List.not_mem_nil, or_false] at hr
  -- in each row what is left says that byte 0 is made of its fields, for the 256 bytes
  obtain rfl|rfl|rfl|rfl|rfl|rfl|rfl|rfl|rfl|rfl|rfl|rfl := hr <;> cases hb <;>
    refine congrArg (Code.packet <| · :: ops) ?_ <;> revert b0 <;> decide +kernel

/-- A packet with operands that fit is the code of the command its row builds: no byte is dropped (R61 to R67). -/
theorem encode_of_decodeCommand {b0 : Byte} {ops : List Byte} {i : Instr}
    (hfit : operandsFit (b0.extractLsb' 0 3) ops = true) (h : decodeCommand b0 ops = .ok i) :
    encode i = .packet (b0 :: ops) := by
  obtain ⟨r, hm, hs, hb⟩ := pickRow_ok h
  simp only [Row.selects, commandRows_unconditional r hm, Bool.and_true, beq_iff_eq] at hs
  obtain hm | hm := mem_commandRows.1 hm
  swap
  · exact encode_of_reservedRow hm hs hb
  simp only [commandRows, List.cons_append, List.take_succ_cons, List.take_zero, List.mem_cons, List.not_mem_nil,
    or_false] at hm
  obtain rfl|rfl|rfl|rfl|rfl := hm <;> dsimp only at hs hb
  · -- INIT
    obtain rfl := eq_of_full_mask rfl hs
    obtain rfl : ops = [] := by simpa [operandsFit] using hfit
    cases hb; rfl
  · -- WRITE
    have hb0 := byte0_of_flags_free 1 b0 hs
    split at hb
    · rw [← hb0, byte0_op] at hfit
      cases hb; rw [encode, hb0, lenByte_of_length (by simpa [operandsFit] using hfit)]
    · cases hb
  · -- READ
    split at hb
    · cases hb; rw [encode, byte0_of_rs_free 2 false b0 hs]
    · cases hb
  · -- MEMREAD
    obtain rfl := eq_of_full_mask rfl hs
    split at hb
    · cases hb; rfl
    · cases hb
  · -- MEMWRITE
    obtain rfl := eq_of_full_mask rfl hs
    split at hb
    · cases hb; rw [encode, lenByte_of_length (by simpa [operandsFit] using hfit)]; rfl
    · cases hb

/-- Settles O4: the row that a packet selects gives its bytes back, and their number fits. -/
theorem decodedPacketEncodesBack : Obligations.DecodedPacketEncodesBack := by
  unfold Obligations.DecodedPacketEncodesBack
  intro bytes i h
  cases bytes with
  | nil => cases h
  | cons b0 ops =>
    have hf := decodePacket_format h
    rw [decodePacket_cons] at h
    split at h
    · have he := encode_of_decodeCommand ‹_› h
      exact ⟨(wf_of_encode he).trans ‹_›, hf, he⟩
    · cases h

/-! ## Format EV -/

/-- The extra condition that a case's row puts on the bytes still to store (R70). -/
def caseCond : Instr → Byte → Bool
  | .evRxMore _, rem => 2 ≤ rem.toNat
  | .evRxLast _, rem => rem.toNat = 1
  | _, _ => true

/-- A key selects the case whose code has it, under the case's extra condition (R69 to R71). -/
theorem decodeEvent_of_encode {i : Instr} {key : BitVec 6} {count rem : Byte} (h : encode i = .event key count)
    (hc : caseCond i rem = true) : decodeEvent key rem = .ok i := by
  cases i with
  | evArbl nack step dir => cases h; cases nack <;> cases step <;> cases dir <;> rfl
  | evNackHeader dir => cases h; cases dir <;> rfl
  | evRxMore nack => cases h; cases nack <;> exact if_pos hc
  | evRxLast nack =>
    have hmore : ¬ decide (2 ≤ rem.toNat) = true := by simp [caseCond] at hc ⊢; omega
    cases h; cases nack <;> exact (if_neg hmore).trans (if_pos hc)
  | evIdle nack ready dir => cases h; cases nack <;> cases ready <;> cases dir <;> rfl
  | evIllegalSentRead nack => cases h; cases nack <;> rfl
  | evIllegalCode5 nack dir => cases h; cases nack <;> cases dir <;> rfl
  | evIllegalCode67 nack low dir => cases h; cases nack <;> cases low <;> cases dir <;> rfl
  | evNackData | evNackSent | evHdrW | evHdrR | evTx | evSent => cases h; rfl
  | _ => cases h

/-- A key that decodes is the key of the case it selects, under the case's extra condition (R69 to R71). -/
theorem encode_of_decodeEvent {key : BitVec 6} {rem : Byte} {i : Instr} (h : decodeEvent key rem = .ok i) :
    formatOf i = .ev ∧ caseCond i rem = true ∧ ∃ count, encode i = .event key count := by
  obtain ⟨r, hm, hs, hb⟩ := pickRow_ok h
  clear h
  simp only [Row.selects, Bool.and_eq_true, beq_iff_eq] at hs
  obtain ⟨hmask, hcond⟩ := hs
  simp only [eventRows, List.mem_append, List.mem_cons, List.not_mem_nil, or_false] at hm
  -- in each row what is left says that the key is made of its fields, for the 64 keys
  obtain (rfl|rfl|rfl|rfl|rfl|rfl|rfl)|(rfl|rfl|rfl|rfl|rfl|rfl|rfl) := hm <;> cases hb <;>
    refine ⟨rfl, hcond, _, congrArg (Code.event · _) ?_⟩ <;> clear hcond <;> revert key <;> decide +kernel

/-! ## Formats P and W -/

/-- A wire symbol holds its byte and its acknowledge bit where R73 places them. -/
theorem wireSymbol_fields (kind : BitVec 4) (a : Bool) (v : Byte) :
    (wireSymbol kind a v).extractLsb' 0 8 = v ∧ (wireSymbol kind a v).getLsbD 8 = a := by
  refine ⟨BitVec.extractLsb'_append_eq_right, ?_⟩
  rw [wireSymbol, BitVec.getLsbD_append, BitVec.append_ofBool]
  simp

/-- The symbol of a port operation decodes to it (R72). -/
theorem decodePort_encode {i : Instr} {sym : BitVec 12} (h : encode i = .port sym) : decodePort sym = .ok i := by
  cases i with
  | clrEvent | start | restart | stop | readData => cases h; rfl
  | setTx b | setAck b => cases h; cases b <;> rfl
  | writeData v =>
    cases h
    refine (pickRow_of_toNat (r := portRows[6]) portRows_apart (List.getElem_mem _) rfl (TableRow.writeData v)).trans ?_
    exact congrArg (Except.ok <| Instr.writeData ·) BitVec.extractLsb'_append_eq_right
  | _ => cases h

/-- The symbol of a wire instruction decodes to it (R73). -/
theorem decodeWire_encode {i : Instr} {sym : BitVec 16} (h : encode i = .wire sym) : decodeWire sym = .ok i := by
  cases i with
  | wireS | wireSr | wireP => cases h; rfl
  | wireT v a =>
    cases h
    refine (pickRow_of_toNat (r := wireRows[3]) wireRows_apart (List.getElem_mem _) rfl (TableRow.wireT v a)).trans ?_
    obtain ⟨hv, ha⟩ := wireSymbol_fields 4 a v
    exact congrArg₂ (Except.ok <| Instr.wireT · ·) hv ha
  | wireR v a =>
    cases h
    refine (pickRow_of_toNat (r := wireRows[4]) wireRows_apart (List.getElem_mem _) rfl (TableRow.wireR v a)).trans ?_
    obtain ⟨hv, ha⟩ := wireSymbol_fields 5 a v
    exact congrArg₂ (Except.ok <| Instr.wireR · ·) hv ha
  | _ => cases h

/-- A symbol that decodes is the symbol of its port operation (R72). -/
theorem encode_of_decodePort {sym : BitVec 12} {i : Instr} (h : decodePort sym = .ok i) :
    formatOf i = .p ∧ encode i = .port sym := by
  obtain ⟨r, hm, hs, hb⟩ := pickRow_ok h
  clear h
  simp only [portRows, List.mem_cons, List.not_mem_nil, or_false] at hm
  obtain rfl|rfl|rfl|rfl|rfl|rfl|rfl|rfl := hm <;> cases hb <;> refine ⟨rfl, congrArg Code.port ?_⟩ <;>
    simp only [Row.selects, Bool.and_true, beq_iff_eq] at hs
  · exact eq_of_full_mask rfl hs -- CLR_EVENT
  · exact eq_of_full_mask rfl hs -- START
  · exact eq_of_full_mask rfl hs -- RESTART
  · exact eq_of_full_mask rfl hs -- STOP
  · -- SET_TX
    obtain ⟨low, rfl⟩ := exists_low_of_mask (a := 11) (b := 1) (high := 0x200) hs
    revert low; decide
  · -- SET_ACK
    obtain ⟨low, rfl⟩ := exists_low_of_mask (a := 11) (b := 1) (high := 0x280) hs
    revert low; decide
  · -- WRITE_DATA
    obtain ⟨low, rfl⟩ := exists_low_of_mask (a := 4) (b := 8) (high := 6) hs
    exact congrArg (6#4 ++ ·) BitVec.extractLsb'_append_eq_right
  · exact eq_of_full_mask rfl hs -- READ_DATA

/-- A symbol that decodes is the symbol of its wire instruction (R73). -/
theorem encode_of_decodeWire {sym : BitVec 16} {i : Instr} (h : decodeWire sym = .ok i) :
    formatOf i = .w ∧ encode i = .wire sym := by
  obtain ⟨r, hm, hs, hb⟩ := pickRow_ok h
  clear h
  simp only [wireRows, List.mem_cons, List.not_mem_nil, or_false] at hm
  obtain rfl|rfl|rfl|rfl|rfl := hm <;> cases hb <;> refine ⟨rfl, congrArg Code.wire ?_⟩ <;>
    simp only [Row.selects, Bool.and_true, beq_iff_eq] at hs
  · exact eq_of_full_mask rfl hs -- S
  · exact eq_of_full_mask rfl hs -- Sr
  · exact eq_of_full_mask rfl hs -- P
  · -- T
    obtain ⟨low, rfl⟩ := exists_low_of_mask (a := 7) (b := 9) (high := 0x20) hs
    revert low; decide +kernel
  · -- R
    obtain ⟨low, rfl⟩ := exists_low_of_mask (a := 7) (b := 9) (high := 0x28) hs
    revert low; decide +kernel

/-- Settles O5, by the rows of formats P, W and EV. -/
theorem decodedSymbolEncodesBack : Obligations.DecodedSymbolEncodesBack := by
  unfold Obligations.DecodedSymbolEncodesBack
  refine ⟨fun _ _ => encode_of_decodePort, fun _ _ => encode_of_decodeWire, fun _ _ _ h => ?_⟩
  obtain ⟨hf, -, hc⟩ := encode_of_decodeEvent h
  exact ⟨hf, hc⟩

/-- Settles O3, by the four formats: the code of an instruction is selected by its own row, which reads the operands
back. -/
theorem decodeOfEncodeIsIdentity : Obligations.DecodeOfEncodeIsIdentity := by
  unfold Obligations.DecodeOfEncodeIsIdentity
  intro i hw
  cases hc : encode i with
  | packet bytes =>
    cases bytes with
    | nil => cases i <;> cases hc
    | cons b0 ops => exact decodePacket_encode hc hw
  | event key count => exact decodeEvent_of_encode hc (by cases i <;> cases hc <;> rfl)
  | port sym => exact decodePort_encode hc
  | wire sym => exact decodeWire_encode hc

end Sys2Proof
end

section
/-! SUPPORT. What a presented packet of the wrong length, a reserved command and a placed word lead to (R62, R67, R110
to R112). -/

namespace Sys2Proof.Machine

open Sys2Proof

/-- Settles O2, by running the decoder on each word. -/
theorem handWrittenWordsDecode : Obligations.HandWrittenWordsDecode := by
  unfold Obligations.HandWrittenWordsDecode
  decide

/-- Settles O8: none of these arms reads the state. -/
theorem reservedRowsStop : Obligations.ReservedRowsStop := by
  unfold Obligations.ReservedRowsStop
  intros
  exact ⟨rfl, rfl, rfl, rfl, rfl, rfl, rfl, rfl, rfl, rfl, rfl, rfl, rfl, rfl, rfl⟩

/-! ## Packets -/

/-- A packet presented is decoded and run at once (R110, R163). -/
theorem step_of_packet {s : State} {bytes : List Byte} {rest : List Input} (h : s.inputs = .packet bytes :: rest) :
    step s = runDecoded (decodePacket bytes) { s with inputs := rest } := by
  simp only [step, runInputs, h]

/-- The checks from the third on have other reasons than `Malformed` (R110, R112). -/
theorem acceptance_ne_malformed (addr : Byte) (ok rs : Bool) (s : State) :
    acceptance addr ok rs s ≠ some .malformed := by
  unfold acceptance
  split_ifs <;> simp

theorem issue_ne_malformed {cmd : Command} {addr : Byte} {ok rs rw : Bool} {setup : State → State} {s : State}
    {c : Context} (hs : setup s = { s with ctx := c }) (hr : c.restartFlag = rs) :
    issue cmd addr ok rs rw setup s ≠ .refused .malformed := by
  obtain ⟨r, ha, hi⟩ | ⟨-, -, -, hi⟩ := issue_cases (cmd := cmd) (addr := addr) (ok := ok) (rw := rw) hs hr
  · rw [hi]
    rintro ⟨⟩
    exact acceptance_ne_malformed _ _ _ _ ha
  · rw [hi]; nofun

/-- A command that has been decoded is not refused `Malformed`: check 1 of R110 is the decoder's. -/
theorem exec_command_ne_malformed {i : Instr} (hf : formatOf i = .c) (s : State) :
    exec i s ≠ .refused .malformed := by
  cases i with
  | init =>
    simp only [exec, execInit, respond_eq]
    split <;> nofun
  | write ns rs addr data => exact issue_ne_malformed (setupWrite_eq ns rs data s) rfl
  | read rs addr len => exact issue_ne_malformed (setupRead_eq rs len s) rfl
  | memread addr maddr len => exact issue_ne_malformed (setupWrite_eq true false [maddr] s) rfl
  | memwrite addr maddr data => exact issue_ne_malformed (setupWrite_eq false false (maddr :: data) s) rfl
  | _ => exact fun h => nomatch hf, h

/-- Settles O6: the decoder refuses a packet whose operands do not fit, and a packet that decodes is not refused
`Malformed` when it is issued. -/
theorem malformedExactlyWhenTheLengthIsWrong : Obligations.MalformedExactlyWhenTheLengthIsWrong := by
  unfold Obligations.MalformedExactlyWhenTheLengthIsWrong
  intro s bytes rest h
  rw [step_of_packet h]
  cases bytes with
  | nil => simp [decodePacket, runDecoded]
  | cons b0 ops =>
    cases hfit : operandsFit (b0.extractLsb' 0 3) ops with
    | false => simp [decodePacket_cons, hfit, runDecoded]
    | true =>
      obtain ⟨i, hi⟩ := decodeCommand_total hfit
      have hd : decodePacket (b0 :: ops) = .ok i := by rw [decodePacket_cons, if_pos hfit, hi]
      have hne := exec_command_ne_malformed (decodePacket_format hd) { s with inputs := rest }
      simp [hd, runDecoded, hne, hfit]

/-- What the row of a reserved pattern builds is refused `ReservedEncoding` (R67, R111). -/
theorem exec_of_reservedRow {r : Row 8 (List Byte)} {b0 : Byte} {ops : List Byte} {i : Instr}
    (hr : r ∈ reservedRows) (hb : r.build b0 ops = .ok i) (s : State) : exec i s = .refused .reservedEncoding := by
  simp only [reservedRows, commandRows, List.cons_append, List.nil_append, List.drop_succ_cons, List.drop_zero,
    List.mem_cons, List.not_mem_nil, or_false] at hr
  obtain rfl|rfl|rfl|rfl|rfl|rfl|rfl|rfl|rfl|rfl|rfl|rfl := hr <;> cases hb <;> rfl

/-- Settles O7: a byte 0 that the five rows of R66 do not select is selected by the row of a reserved pattern. -/
theorem unselectedByteZeroIsReserved : Obligations.UnselectedByteZeroIsReserved := by
  unfold Obligations.UnselectedByteZeroIsReserved
  intro s b0 ops rest h hfit hinit hwrite hread hmemread hmemwrite
  obtain ⟨i, hi⟩ := decodeCommand_total hfit
  rw [step_of_packet h, decodePacket_cons, if_pos hfit, hi, runDecoded]
  obtain ⟨r, hm, hs, hb⟩ := pickRow_ok hi
  simp only [Row.selects, commandRows_unconditional r hm, Bool.and_true, beq_iff_eq] at hs
  obtain hm | hm := mem_commandRows.1 hm
  · simp only [commandRows, List.cons_append, List.take_succ_cons, List.take_zero, List.mem_cons, List.not_mem_nil,
      or_false] at hm
    obtain rfl|rfl|rfl|rfl|rfl := hm
    · exact absurd hs hinit
    · exact absurd hs hwrite
    · exact absurd hs hread
    · exact absurd hs hmemread
    · exact absurd hs hmemwrite
  · exact exec_of_reservedRow hm hb _

/-! ## Placed words -/

/-- A packet or a symbol that is placed is the next input, and runs as the instruction it decodes to (log entry 11). -/
theorem step_placeCode {c : Code} {i : Instr} (s : State) (hd : decode c = .ok i) (hf : formatOf i ≠ .ev) :
    step (placeCode c s) = exec i s := by
  cases c with
  | packet bytes => exact congrArg (runDecoded · s) hd
  | port sym => exact congrArg (runDecoded · s) hd
  | wire sym => exact congrArg (runDecoded · s) hd
  | event key rem => exact absurd (encode_of_decodeEvent hd).1 hf

/-- Settles O11: a table word that decodes is placed as the code it decodes from. -/
theorem placedWordRuns : Obligations.PlacedWordRuns := by
  unfold Obligations.PlacedWordRuns
  intro s nbits w i hd hf
  refine step_placeCode s ?_ hf
  unfold decodeTableWord at hd
  split at hd
  · cases hd; assumption
  · cases hd

end Sys2Proof.Machine
end

section
/-! SUPPORT. In a well-formed context the dispatch key selects exactly one case of the sequencer (R70, R71, R80). -/

namespace Sys2Proof.Machine

open Sys2Proof

/-! ## A selected case is not refused -/

/-- An outcome that is a next state or a fault. -/
def NotRefused (r : Result) : Prop := ∀ e, r ≠ .refused e

theorem NotRefused.next (s : State) : NotRefused (.next s) := nofun

theorem NotRefused.emit (op : PortOp) (s : State) : NotRefused (emit op s) := by
  obtain ⟨t, h⟩ | ⟨m, h⟩ := emit_cases op s <;> rw [h] <;> nofun

theorem NotRefused.andThen {r : Result} {f : State → Result} (hr : NotRefused r) (hf : ∀ t, NotRefused (f t)) :
    NotRefused (andThen r f) := by
  cases r with
  | next s => exact hf s
  | fault e => nofun
  | refused e => exact absurd rfl (hr e)

theorem NotRefused.atIndex {n : Nat} {s : State} {r : Result} (hr : NotRefused r) : NotRefused (atIndex n s r) := by
  unfold Machine.atIndex
  split
  · exact hr
  · nofun

theorem NotRefused.raiseBusError (s : State) : NotRefused (raiseBusError s) := by rw [raiseBusError_eq]; nofun

theorem NotRefused.sendNext (s : State) : NotRefused (sendNext s) := .atIndex (.andThen (.emit _ _) fun _ => .next _)

theorem NotRefused.storeReceived (s : State) : NotRefused (storeReceived s) :=
  .atIndex (.andThen (.emit _ _) fun _ => .next _)

theorem NotRefused.stopUnlessHeld (s : State) : NotRefused (stopUnlessHeld s) := by
  unfold Machine.stopUnlessHeld
  split
  · exact .next s
  · exact .emit .stop s

/-- A case of format EV that is not EV.ILLEGAL runs, under the key of its code and its extra condition, a body that is
not refused (R70, R80). -/
theorem exec_eq_seqCase {i : Instr} (hf : formatOf i = .ev) (hl : isIllegalEvent i = false) (s : State) :
    ∃ a n p d count body, encode i = .event (eventKey a n p d) count ∧
      exec i s = seqCase (eventKey a n p d) (caseCond i s.ctx.rem) body s ∧ ∀ t, NotRefused (body t) := by
  cases i with
  | evArbl | evNackHeader | evNackData | evNackSent => exact ⟨_, _, _, _, _, _, rfl, rfl, .raiseBusError⟩
  | evHdrW => exact ⟨_, _, _, _, _, _, rfl, rfl, fun _ => .sendNext _⟩
  | evTx => exact ⟨_, _, _, _, _, _, rfl, rfl, .sendNext⟩
  | evHdrR =>
    exact ⟨_, _, _, _, _, _, rfl, rfl, fun _ => .andThen (.emit _ _) fun _ => .andThen (.emit _ _) fun _ =>
      .andThen (.emit _ _) fun _ => .next _⟩
  | evRxMore => exact ⟨_, _, _, _, _, _, rfl, rfl, fun _ => .andThen (.emit _ _) .storeReceived⟩
  | evRxLast =>
    exact ⟨_, _, _, _, _, _, rfl, rfl, fun _ => .andThen (.stopUnlessHeld _) fun _ =>
      .andThen (.storeReceived _) fun _ => .next _⟩
  | evSent =>
    exact ⟨_, _, _, _, _, _, rfl, rfl, fun _ => .andThen (.emit _ _) fun _ =>
      .andThen (.stopUnlessHeld _) fun _ => .next _⟩
  | evIdle => exact ⟨_, _, _, _, _, _, rfl, rfl, .next⟩
  | evIllegalSentRead | evIllegalCode5 | evIllegalCode67 => cases hl
  | _ => cases hf

/-- With an event pending in a well-formed context, the case that is fetched is not refused, and any other is refused
`notSelected` (R70, R80). -/
theorem exec_event_cases {i : Instr} {s : State} (hp : eventPending s) (hf : formatOf i = .ev)
    (hl : isIllegalEvent i = false) :
    fetchEvent s = .ok i ∧ NotRefused (exec i s) ∨ fetchEvent s ≠ .ok i ∧ exec i s = .refused .notSelected := by
  obtain ⟨a, n, p, d, count, body, hc, he, hb⟩ := exec_eq_seqCase hf hl s
  by_cases hk : keyIs a n p d s ∧ caseCond i s.ctx.rem = true
  · obtain ⟨hkey, hcond⟩ := hk
    refine .inl ⟨decodeEvent_of_encode (by rw [key_eq_iff.2 hkey, hc]) hcond, ?_⟩
    rw [he, seqCase_of_selected hp hkey hcond]
    exact hb _
  · refine .inr ⟨fun hd => hk ?_, he.trans (seqCase_not_selected hp hk)⟩
    obtain ⟨-, hcond, count', hc'⟩ := encode_of_decodeEvent hd
    obtain ⟨hkey, -⟩ := Code.event.inj (hc'.symm.trans hc)
    exact ⟨key_eq_iff.1 hkey, hcond⟩

/-! ## One case is selected -/

/-- A key of a step and direction that a well-formed context may hold selects a case that is not EV.ILLEGAL (R70,
R71). -/
theorem decodeEvent_total {p : Step} {d : Direction} {rem : Byte} (a n : Bool) (hs : isStep p = true)
    (hsent : p = .dataSent → d = .write) (hrx : p = .dataTransmission → d = .read → 1 ≤ rem.toNat) :
    ∃ i, decodeEvent (eventKey a n p d) rem = .ok i ∧ isIllegalEvent i = false := by
  cases a with
  | true => exact ⟨.evArbl n p d, decodeEvent_of_encode rfl rfl, rfl⟩
  | false =>
    cases p with
    | error => exact ⟨.evIdle n false d, decodeEvent_of_encode rfl rfl, rfl⟩
    | ready => exact ⟨.evIdle n true d, decodeEvent_of_encode rfl rfl, rfl⟩
    | headerSent =>
      match n, d with
      | true, d => exact ⟨.evNackHeader d, decodeEvent_of_encode rfl rfl, rfl⟩
      | false, .write => exact ⟨.evHdrW, decodeEvent_of_encode rfl rfl, rfl⟩
      | false, .read => exact ⟨.evHdrR, decodeEvent_of_encode rfl rfl, rfl⟩
    | dataTransmission =>
      match n, d with
      | true, .write => exact ⟨.evNackData, decodeEvent_of_encode rfl rfl, rfl⟩
      | false, .write => exact ⟨.evTx, decodeEvent_of_encode rfl rfl, rfl⟩
      | n, .read =>
        obtain h1 | h2 := (hrx rfl rfl).eq_or_lt
        · exact ⟨.evRxLast n, decodeEvent_of_encode rfl (decide_eq_true h1.symm), rfl⟩
        · exact ⟨.evRxMore n, decodeEvent_of_encode rfl (decide_eq_true h2), rfl⟩
    | dataSent =>
      obtain rfl := hsent rfl
      cases n with
      | true => exact ⟨.evNackSent, decodeEvent_of_encode rfl rfl, rfl⟩
      | false => exact ⟨.evSent, decodeEvent_of_encode rfl rfl, rfl⟩
    | code5 | code6 | code7 => cases hs

/-- In a well-formed context in DATA_SENT the direction is WRITE (R22). -/
theorem direction_of_wf_dataSent {cap : Nat} {c : Context} (hw : c.wf cap = true) (hs : c.step = .dataSent) :
    c.direction = .write := by
  cases hd : c.direction with
  | write => rfl
  | read =>
    have hrx := wf_read hw hd (by rw [hs]; rfl)
    simp [Context.rxWf, hs] at hrx

/-- In a well-formed context the receive key has a byte left to store (R22, R57). -/
theorem rem_pos_of_wf {cap : Nat} {c : Context} (hw : c.wf cap = true) (hs : c.step = .dataTransmission)
    (hd : c.direction = .read) : 1 ≤ c.rem.toNat := by
  obtain ⟨hlt, -⟩ := rxCounter_lt_of_wf hw hs hd
  rw [rem_toNat hlt.le]
  omega

/-- In a well-formed context the sequencer fetches a case that is not EV.ILLEGAL (R71). -/
theorem fetchEvent_of_wf {s : State} (hw : s.ctx.wf s.cfg.cap = true) :
    ∃ i, fetchEvent s = .ok i ∧ isIllegalEvent i = false :=
  decodeEvent_total _ _ (wf_step hw) (direction_of_wf_dataSent hw) (rem_pos_of_wf hw)

/-- Settles O34: the case fetched is the one, and a case that is not fetched is refused. -/
theorem wellFormedEventSelectsOneCase : Obligations.WellFormedEventSelectsOneCase := by
  unfold Obligations.WellFormedEventSelectsOneCase
  intro s hp
  obtain ⟨i, hi, hl⟩ := fetchEvent_of_wf hp.2
  obtain ⟨hf, -⟩ := encode_of_decodeEvent hi
  refine ⟨i, hf, hl, ?_, ?_, fun j hfj hlj hne => ?_⟩
  · simp only [agentTurn, seqTurn, hp.1, if_true, hi, runDecoded]
  · obtain ⟨-, hn⟩ | ⟨hn, -⟩ := exec_event_cases hp hf hl
    · exact hn
    · exact absurd hi hn
  · obtain ⟨hj, -⟩ | ⟨-, hj⟩ := exec_event_cases hp hfj hlj
    · cases hi.symm.trans hj
      exact absurd rfl hne
    · exact hj

end Sys2Proof.Machine
end

section
/-! SUPPORT. Each case of the sequencer as a whole next state, or as the port misuse that stops it (R81 to R89, R127,
R128, R131). A case is shown to go on, and its inversion lemma then says where it ends. -/

namespace Sys2Proof.Machine

open Sys2Proof

/-! ## When a port operation goes on and when it is a misuse -/

theorem emit_writeData_misuse {s : State} (v : Byte) (h : ¬ canSend s.port) :
    emit (.writeData v) s = .fault (.portMisuse .writeDataNotTransmitting) := by
  unfold canSend at h
  simp only [emit, applyOp, writeDataRegister, if_neg h, andThen_fault]

theorem emit_readData_misuse {s : State} (hm : s.port.mst = true) (ht : s.port.txMode = false)
    (hi : s.port.inflight ≠ .none) : emit .readData s = .fault (.portMisuse .readDataWhileBusy) := by
  simp [emit, applyOp, readDataRegister, hm, ht, hi]

/-- The transmit sub-path stops with its WRITE_DATA (R83, R85, R127). -/
theorem sendNext_misuse {s : State} (hc : s.ctx.txCounter.toNat < s.cfg.cap) (h : ¬ canSend s.port) :
    sendNext s = .fault (.portMisuse .writeDataNotTransmitting) := by
  rw [sendNext, atIndex_of_lt hc, emit_writeData_misuse _ h, andThen_fault]

/-- A store stops with its READ_DATA (R86, R87, R128). -/
theorem storeReceived_misuse {s : State} (hc : s.ctx.rxCounter.toNat < s.cfg.cap) (hm : s.port.mst = true)
    (ht : s.port.txMode = false) (hi : s.port.inflight ≠ .none) :
    storeReceived s = .fault (.portMisuse .readDataWhileBusy) := by
  rw [storeReceived, atIndex_of_lt hc, emit_readData_misuse hm ht hi, andThen_fault]

theorem stopUnlessHeld_of_not_held {s : State} (h : s.ctx.noStopFlag = false) : stopUnlessHeld s = emit .stop s := by
  simp [stopUnlessHeld, h]

theorem stopUnlessHeld_of_held {s : State} (h : s.ctx.noStopFlag = true) : stopUnlessHeld s = .next s := by
  simp [stopUnlessHeld, h]

/-- STOP, held or not, goes on (R18, R124). -/
theorem stopUnlessHeld_goes_on (s : State) : ∃ t, stopUnlessHeld s = .next t := by
  cases h : s.ctx.noStopFlag with
  | false => exact ⟨_, (stopUnlessHeld_of_not_held h).trans (emit_stop s)⟩
  | true => exact ⟨_, stopUnlessHeld_of_held h⟩

/-! ## Bus errors and the idle event -/

/-- Settles O24: the body of EV.ARBL is the bus error. -/
theorem arbitrationLossForcesStopAndError : Obligations.ArbitrationLossForcesStopAndError := by
  unfold Obligations.ArbitrationLossForcesStopAndError
  intro s nack stp dir hp hk
  exact (seqCase_of_selected hp hk rfl).trans (raise_acknowledged s)

/-- Settles O25: the body of each of the three rows of EV.NACK is the bus error. -/
theorem missingAcknowledgeForcesStopAndError : Obligations.MissingAcknowledgeForcesStopAndError := by
  unfold Obligations.MissingAcknowledgeForcesStopAndError
  rintro s i stp dir hp hk (⟨rfl, rfl⟩ | ⟨rfl, rfl, rfl⟩ | ⟨rfl, rfl, rfl⟩) <;>
    exact (seqCase_of_selected hp hk rfl).trans (raise_acknowledged s)

/-- Settles O32: EV.IDLE has nothing after the CLR_EVENT. -/
theorem idleEventIsOnlyAcknowledged : Obligations.IdleEventIsOnlyAcknowledged := by
  unfold Obligations.IdleEventIsOnlyAcknowledged
  intro s nack ready dir hp hk
  have h : execEvIdle nack ready dir s = .next (acknowledged s) := seqCase_of_selected hp hk rfl
  obtain ⟨-, -, ht⟩ := evIdle_next h
  exact h.trans (congrArg _ ht)

/-! ## Sending a byte -/

/-- EV.HDR_W and EV.TX alike: the transmit sub-path from DATA_TRANSMISSION (R83, R85). -/
def sendFrom (s : State) : Result :=
  sendNext { acknowledged s with ctx := { s.ctx with step := .dataTransmission } }

theorem exec_evHdrW {s : State} (hp : eventPending s) (hk : keyIs false false .headerSent .write s) :
    exec .evHdrW s = sendFrom s := seqCase_of_selected hp hk rfl

theorem exec_evTx {s : State} (hp : eventPending s) (hk : keyIs false false .dataTransmission .write s) :
    exec .evTx s = sendFrom s := by
  have ⟨_, _, hs, _⟩ := hk
  have he : exec .evTx s = sendNext (acknowledged s) := seqCase_of_selected hp hk rfl
  rw [he, sendFrom, ← hs]
  rfl

/-- The transmit sub-path that finds the port ready, as a whole next state. -/
theorem sendFrom_of_canSend {s : State} (hc : s.ctx.txCounter.toNat < s.cfg.cap) (hp : canSend s.port) :
    sendFrom s = .next (afterEvent s (sentCtx .dataTransmission s.ctx)
      { s.port with
        evFlag := false, arbLost := false, dataReg := nextByte s.ctx, inflight := .txb (nextByte s.ctx) }
      [.writeData (nextByte s.ctx)] []) := by
  obtain ⟨hm, ht, hi⟩ := hp
  have h : sendFrom s = .next _ := sendNext_eq hc hm ht hi
  obtain ⟨-, heq⟩ := sendNext_acknowledged .dataTransmission rfl h
  exact h.trans (congrArg _ heq)

theorem sendFrom_misuse {s : State} (hc : s.ctx.txCounter.toNat < s.cfg.cap) (hp : ¬ canSend s.port) :
    sendFrom s = .fault (.portMisuse .writeDataNotTransmitting) := sendNext_misuse hc hp

/-- While a WRITE transfer sends, its counter is below the capacity (R41). -/
theorem txCounter_lt_cap {cap : Nat} {c : Context} (hw : c.wf cap = true) (hd : c.direction = .write)
    (hs : c.step = .headerSent ∨ c.step = .dataTransmission) : c.txCounter.toNat < cap := by
  obtain ⟨hlt, hle⟩ := txCounter_lt_of_wf hw hd hs
  exact hlt.trans_le hle

/-- In the address phase of a WRITE the counter is 0 (R22). -/
theorem txCounter_eq_zero_of_wf {cap : Nat} {c : Context} (hw : c.wf cap = true) (hd : c.direction = .write)
    (hs : c.step = .headerSent) : c.txCounter = 0 := by
  have htx := wf_write hw hd (by rw [hs]; rfl)
  simp only [Context.txWf, hs, Bool.and_eq_true, decide_eq_true_eq] at htx
  obtain ⟨-, h0⟩ := htx
  exact BitVec.eq_of_toNat_eq h0

/-- A counter incremented as a natural (R57). -/
theorem ofNat_toNat_add_one (c : Byte) : BitVec.ofNat 8 (c.toNat + 1) = c + 1 := by
  simp [BitVec.ofNat_add]

/-- Settles O26: the counter of the address phase is 0, so the byte sent is the first. -/
theorem writeHeaderSendsTheFirstByte : Obligations.WriteHeaderSendsTheFirstByte := by
  unfold Obligations.WriteHeaderSendsTheFirstByte
  intro s hp hk
  have ⟨_, _, hs, hd⟩ := hk
  have hc := txCounter_lt_cap hp.2 hd (.inl hs)
  have h0 := txCounter_eq_zero_of_wf hp.2 hd hs
  rw [exec_evHdrW hp hk]
  refine ⟨fun hm ht hi => ?_, sendFrom_misuse hc⟩
  rw [sendFrom_of_canSend hc ⟨hm, ht, hi⟩]
  simp [sentCtx, nextByte, h0, eq_comm (a := 1#8)]

/-- Settles O28: the counter is below the length, so the equality test of the bytes is that of the naturals. -/
theorem transmitSendsTheNextByte : Obligations.TransmitSendsTheNextByte := by
  unfold Obligations.TransmitSendsTheNextByte
  intro s hp hk
  have ⟨_, _, hs, hd⟩ := hk
  have hc := txCounter_lt_cap hp.2 hd (.inr hs)
  obtain ⟨hlt, -⟩ := txCounter_lt_of_wf hp.2 hd (.inr hs)
  rw [exec_evTx hp hk]
  refine ⟨fun hm ht hi => ?_, sendFrom_misuse hc⟩
  rw [sendFrom_of_canSend hc ⟨hm, ht, hi⟩]
  simp only [sentCtx, nextByte, add_one_eq_iff hlt, ofNat_toNat_add_one]

/-! ## Starting a reception -/

theorem exec_evHdrR {s : State} (hp : eventPending s) (hk : keyIs false false .headerSent .read s) :
    exec .evHdrR s = andThen (emit (.setTx false) (acknowledged s)) fun t1 =>
      andThen (emit (.setAck (t1.ctx.rxLength = 1)) t1) fun t2 =>
      andThen (emit .readData t2) fun t3 =>
      .next { t3 with ctx := { t3.ctx with step := .dataTransmission } } := seqCase_of_selected hp hk rfl

theorem evHdrR_goes_on {s : State} (hp : eventPending s) (hk : keyIs false false .headerSent .read s)
    (hr : s.port.mst = false ∨ s.port.inflight = .none) : ∃ t, exec .evHdrR s = .next t := by
  rw [exec_evHdrR hp hk, emit_setTx, andThen_next, emit_setAck, andThen_next]
  exact ⟨_, andThen_eq_next.2 ⟨_, emit_readData (hr.imp_right .inr), rfl⟩⟩

/-- Settles O27: the read starts the reception, after the mode and the acknowledge are set. -/
theorem readHeaderStartsTheFirstReception : Obligations.ReadHeaderStartsTheFirstReception := by
  unfold Obligations.ReadHeaderStartsTheFirstReception
  intro s hp hk
  refine ⟨fun hr => ?_, fun hm hi => ?_⟩
  · obtain ⟨t, h⟩ := evHdrR_goes_on hp hk hr
    obtain ⟨-, -, -, rfl⟩ := evHdrR_next h
    exact h
  · rw [exec_evHdrR hp hk, emit_setTx, andThen_next, emit_setAck, andThen_next]
    refine congrArg (andThen · _) (emit_readData_misuse ?_ ?_ ?_)
    exacts [hm, rfl, hi]

/-! ## Storing a received byte -/

/-- While a READ transfer receives, its counter is below the capacity (R41). -/
theorem rxCounter_lt_cap {cap : Nat} {c : Context} (hw : c.wf cap = true) (hs : c.step = .dataTransmission)
    (hd : c.direction = .read) : c.rxCounter.toNat < cap := by
  obtain ⟨hlt, hle⟩ := rxCounter_lt_of_wf hw hs hd
  exact hlt.trans_le hle

/-- `rem` is `k` exactly when the counter is `k` below the length (R57). -/
theorem rem_eq_iff {c : Context} (h : c.rxCounter.toNat ≤ c.rxLength.toNat) (k : Nat) :
    c.rem.toNat = k ↔ c.rxCounter.toNat + k = c.rxLength.toNat := by
  rw [rem_toNat h]; omega

section
variable {s : State} {n : Bool} (hp : eventPending s) (hk : keyIs false n .dataTransmission .read s)
include hp hk

theorem exec_evRxMore (hrem : 2 ≤ s.ctx.rem.toNat) : exec (.evRxMore n) s =
    andThen (emit (.setAck (s.ctx.rem.toNat = 2)) (acknowledged s)) storeReceived :=
  seqCase_of_selected hp hk (decide_eq_true hrem)

theorem evRxMore_goes_on (hrem : 2 ≤ s.ctx.rem.toNat) (hr : canRead s.port) :
    ∃ t, exec (.evRxMore n) s = .next t := by
  have ⟨_, _, hs, hd⟩ := hk
  rw [exec_evRxMore hp hk hrem, emit_setAck, andThen_next]
  exact ⟨_, storeReceived_eq (rxCounter_lt_cap hp.2 hs hd) hr⟩

theorem evRxMore_misuse (hrem : 2 ≤ s.ctx.rem.toNat) (hm : s.port.mst = true) (ht : s.port.txMode = false)
    (hi : s.port.inflight ≠ .none) : exec (.evRxMore n) s = .fault (.portMisuse .readDataWhileBusy) := by
  have ⟨_, _, hs, hd⟩ := hk
  rw [exec_evRxMore hp hk hrem, emit_setAck, andThen_next]
  exact storeReceived_misuse (rxCounter_lt_cap hp.2 hs hd) hm ht hi

theorem exec_evRxLast (hrem : s.ctx.rem.toNat = 1) : exec (.evRxLast n) s =
    andThen (stopUnlessHeld (acknowledged s)) fun t1 =>
    andThen (storeReceived t1) fun t2 =>
    .next { t2 with ctx := { t2.ctx with step := .ready } } :=
  seqCase_of_selected hp hk (decide_eq_true hrem)

/-- With STOP made the read finds the bus released; with the bus held it must be no misuse (R87, R170). -/
theorem evRxLast_goes_on (hrem : s.ctx.rem.toNat = 1) (hr : s.ctx.noStopFlag = false ∨ canRead s.port) :
    ∃ t, exec (.evRxLast n) s = .next t := by
  have ⟨_, _, hs, hd⟩ := hk
  have hc := rxCounter_lt_cap hp.2 hs hd
  rw [exec_evRxLast hp hk hrem]
  cases hn : s.ctx.noStopFlag with
  | false =>
    rw [stopUnlessHeld_of_not_held (s := acknowledged s) hn, emit_stop, andThen_next]
    exact ⟨_, andThen_eq_next.2 ⟨_, storeReceived_eq hc (.inl rfl), rfl⟩⟩
  | true =>
    rw [stopUnlessHeld_of_held (s := acknowledged s) hn, andThen_next]
    exact ⟨_, andThen_eq_next.2 ⟨_, storeReceived_eq hc (hr.resolve_left (by simp [hn])), rfl⟩⟩

theorem evRxLast_misuse (hrem : s.ctx.rem.toNat = 1) (hn : s.ctx.noStopFlag = true) (hm : s.port.mst = true)
    (ht : s.port.txMode = false) (hi : s.port.inflight ≠ .none) :
    exec (.evRxLast n) s = .fault (.portMisuse .readDataWhileBusy) := by
  have ⟨_, _, hs, hd⟩ := hk
  rw [exec_evRxLast hp hk hrem, stopUnlessHeld_of_held (s := acknowledged s) hn, andThen_next,
    storeReceived_misuse (s := acknowledged s) (rxCounter_lt_cap hp.2 hs hd) hm ht hi, andThen_fault]

end

/-- Settles O29: EV.RX_MORE sets the acknowledge, then stores; the event's `nack` is not read. -/
theorem receiveStoresAndDecidesOneByteEarly : Obligations.ReceiveStoresAndDecidesOneByteEarly := by
  unfold Obligations.ReceiveStoresAndDecidesOneByteEarly
  intro s nack hp hk hle
  have hlt : s.ctx.rxCounter.toNat ≤ s.ctx.rxLength.toNat := by omega
  have hrem : 2 ≤ s.ctx.rem.toNat := by rw [rem_toNat hlt]; omega
  refine ⟨fun hr => ?_, evRxMore_misuse hp hk hrem⟩
  obtain ⟨t, h⟩ := evRxMore_goes_on hp hk hrem hr
  obtain ⟨-, -, -, -, rfl⟩ := evRxMore_next h
  obtain ⟨-, -, hs, -⟩ := hk
  rw [h]
  simp only [storedCtx, readInflight, rem_eq_iff hlt, ofNat_toNat_add_one, ← hs]

/-- Settles O30: the bytes left are 1, so the counter ends at the length. -/
theorem lastReceiveStopsStoresAndIsReady : Obligations.LastReceiveStopsStoresAndIsReady := by
  unfold Obligations.LastReceiveStopsStoresAndIsReady
  intro s nack hp hk hle
  have hlt : s.ctx.rxCounter.toNat < s.ctx.rxLength.toNat := by omega
  have hrem : s.ctx.rem.toNat = 1 := (rem_eq_iff hlt.le 1).2 hle
  have hend : s.ctx.rxCounter + 1 = s.ctx.rxLength := (add_one_eq_iff hlt).2 hle
  refine ⟨fun hn => ?_, fun hn hr => ?_, evRxLast_misuse hp hk hrem⟩
  · obtain ⟨t, h⟩ := evRxLast_goes_on hp hk hrem (.inl hn)
    obtain ⟨-, -, -, ⟨-, rfl⟩ | ⟨hn', -, -⟩⟩ := evRxLast_next h
    · rw [h, ← hend]; rfl
    · simp [hn] at hn'
  · obtain ⟨t, h⟩ := evRxLast_goes_on hp hk hrem (.inr hr)
    obtain ⟨-, -, -, ⟨hn', -⟩ | ⟨-, -, rfl⟩⟩ := evRxLast_next h
    · simp [hn] at hn'
    · rw [h, ← hend]; rfl

/-! ## The last byte of a WRITE -/

theorem evSent_goes_on {s : State} (hp : eventPending s) (hk : keyIs false false .dataSent .write s) :
    ∃ t, exec .evSent s = .next t := by
  obtain ⟨u, hu⟩ := stopUnlessHeld_goes_on
    (logPort (.setTx false) { acknowledged s with port := { (acknowledged s).port with txMode := false } })
  exact ⟨_, (seqCase_of_selected hp hk rfl).trans
    (andThen_eq_next.2 ⟨_, emit_setTx .., andThen_eq_next.2 ⟨u, hu, rfl⟩⟩)⟩

/-- Settles O31, by the two outcomes of EV.SENT. -/
theorem sentStopsUnlessHeldAndIsReady : Obligations.SentStopsUnlessHeldAndIsReady := by
  unfold Obligations.SentStopsUnlessHeldAndIsReady
  intro s hp hk
  obtain ⟨t, h⟩ := evSent_goes_on hp hk
  obtain ⟨-, -, ⟨hn, rfl⟩ | ⟨hn, rfl⟩⟩ := evSent_next h
  · exact ⟨fun _ => h, fun hn' => by simp [hn] at hn'⟩
  · exact ⟨fun hn' => by simp [hn] at hn', fun _ => h⟩

/-! ## The acknowledge control -/

/-- Settles O40: EV.HDR_R tests the length and EV.RX_MORE the bytes left, `rem`. -/
theorem acknowledgeIsNackExactlyForTheLastByte : Obligations.AcknowledgeIsNackExactlyForTheLastByte := by
  unfold Obligations.AcknowledgeIsNackExactlyForTheLastByte
  refine fun s t nack => ⟨fun h => ?_, fun h => ?_⟩
  · obtain ⟨-, -, -, rfl⟩ := evHdrR_next h
    exact decide_eq_true_iff.trans (BitVec.toNat_inj.symm.trans eq_comm)
  · obtain ⟨hp, ⟨-, -, hs, hd⟩, -, -, rfl⟩ := evRxMore_next h
    obtain ⟨hlt, -⟩ := rxCounter_lt_of_wf hp.2 hs hd
    exact decide_eq_true_iff.trans (rem_eq_iff hlt.le 2)

end Sys2Proof.Machine
end

section
/-! SUPPORT. Which instruction a step runs (R80, R100, R106, R129, R130), when the sequencer has no step or faults
(R80, R92), and along which arrows `step` moves (R91). -/

namespace Sys2Proof.Machine

open Sys2Proof

/-! ## Which instruction a step runs -/

theorem step_of_turn {s : State} {a : Agent} {rest : List Input} (h : s.inputs = .turn a :: rest) :
    step s = agentTurn a { s with inputs := rest } := by
  simp only [step, runInputs, h]

theorem step_of_portOp {s : State} {sym : BitVec 12} {rest : List Input} (h : s.inputs = .portOp sym :: rest) :
    step s = runDecoded (decodePort sym) { s with inputs := rest } := by
  simp only [step, runInputs, h]

theorem step_of_wire {s : State} {sym : BitVec 16} {rest : List Input} (h : s.inputs = .wire sym :: rest) :
    step s = runDecoded (decodeWire sym) { s with inputs := rest } := by
  simp only [step, runInputs, h]

/-- The foreground program's command is issued when the host is idle (R6, R106). -/
theorem step_of_call_idle {s : State} {bytes : List Byte} {rest : List Input} (h : s.inputs = .call bytes :: rest)
    (hp : s.host.phase = .idle) : step s = runDecoded (decodePacket bytes) { s with inputs := rest } := by
  simp only [step, runInputs, h, hp, if_true]

/-- It waits while the host spins (R106). -/
theorem step_of_call_spin {s : State} {bytes : List Byte} {rest : List Input} (h : s.inputs = .call bytes :: rest)
    (hp : s.host.phase = .spin) : step s = freeStep s := by
  simp only [step, runInputs, h, hp, reduceCtorEq, if_false]

/-- With an event pending the sequencer runs the case it fetches (R80). -/
theorem seqTurn_of_fetch {s : State} {i : Instr} (he : s.port.evFlag = true) (hf : fetchEvent s = .ok i) :
    agentTurn .seq s = exec i s := by
  simp only [agentTurn, seqTurn, he, if_true, hf, runDecoded]

theorem busTurn_of_txb {s : State} {v : Byte} (h : s.port.inflight = .txb v) :
    agentTurn .bus s = exec (.wireT v (nextDraw s).nack) s := by
  simp only [agentTurn, busTurn, h]

theorem busTurn_of_rxb {s : State} (h : s.port.inflight = .rxb) :
    agentTurn .bus s = exec (.wireR (nextDraw s).byte s.port.ackCtl) s := by
  simp only [agentTurn, busTurn, h]

/-- No agent takes an input away: they come from outside (log entry 6). -/
theorem agentTurn_inputs {a : Agent} {s t : State} (h : agentTurn a s = .next t) : t.inputs = s.inputs := by
  cases a with
  | host =>
    obtain ⟨-, hm⟩ := hostTurn_move h
    cases hm <;> rfl
  | seq =>
    obtain ⟨-, hm⟩ := seqTurn_move h
    cases hm <;> rfl
  | bus =>
    obtain ⟨_, hb⟩ := busTurn_next h
    exact hb.inputs

/-- While the host spins the free order moves an agent that has a step, the host if no other (R100). -/
theorem freeStep_of_spin {s : State} (hp : s.host.phase = .spin) :
    ∃ a, agentEnabled s a = true ∧ freeStep s = agentTurn a { s with freeIndex := s.freeIndex + 1 } := by
  obtain h | ⟨hnone, -⟩ := freeStep_cases s
  · exact h
  · simpa [agentEnabled, hp] using hnone .host

/-- Settles O9: by the head of the inputs; a waiting command stays first because no agent takes it away. -/
theorem stepRunsTheDecodedInstruction : Obligations.StepRunsTheDecodedInstruction := by
  unfold Obligations.StepRunsTheDecodedInstruction
  intro s rest i
  refine ⟨fun _ h hd => ?_, fun _ h hp hd => ?_, fun bytes h hp => ?_, fun _ h hd => ?_, fun _ h hd => ?_,
    fun h he hd => ?_, fun _ h hi => ?_, fun h hi => ?_, fun h => step_of_turn h⟩
  · rw [step_of_packet h, hd, runDecoded]
  · rw [step_of_call_idle h hp, hd, runDecoded]
  · obtain ⟨a, ha, hf⟩ := freeStep_of_spin hp
    rw [step_of_call_spin h hp]
    exact ⟨a, ha, hf, fun t ht => (agentTurn_inputs (hf.symm.trans ht)).trans h⟩
  · rw [step_of_portOp h, hd, runDecoded]
  · rw [step_of_wire h, hd, runDecoded]
  · rw [step_of_turn h]
    exact seqTurn_of_fetch he hd
  · rw [step_of_turn h]
    exact busTurn_of_txb hi
  · rw [step_of_turn h]
    exact busTurn_of_rxb hi

/-! ## No event, and ill-formed contexts -/

theorem exec_event_not_pending {i : Instr} {s : State} (hf : formatOf i = .ev) (hl : isIllegalEvent i = false)
    (he : s.port.evFlag = false) : exec i s = .refused (.notEnabled .seq) := by
  obtain ⟨_, _, _, _, _, _, -, h, -⟩ := exec_eq_seqCase hf hl s
  exact h.trans (seqCase_not_pending he)

theorem exec_event_illFormed {i : Instr} {s : State} (hf : formatOf i = .ev) (he : s.port.evFlag = true)
    (hw : s.ctx.wf s.cfg.cap = false) : exec i s = .fault .illFormedContext := by
  cases hl : isIllegalEvent i with
  | false =>
    obtain ⟨_, _, _, _, _, _, -, h, -⟩ := exec_eq_seqCase hf hl s
    exact h.trans (seqCase_illFormed he hw)
  | true =>
    cases i with
    | evIllegalSentRead | evIllegalCode5 | evIllegalCode67 => rfl
    | _ => cases hl

theorem seqTurn_illFormed {s : State} (he : s.port.evFlag = true) (hw : s.ctx.wf s.cfg.cap = false) :
    agentTurn .seq s = .fault .illFormedContext := by
  cases hd : fetchEvent s with
  | ok i => rw [seqTurn_of_fetch he hd, exec_event_illFormed (encode_of_decodeEvent hd).1 he hw]
  | error e =>
    obtain rfl := decodeEvent_error hd
    simp only [agentTurn, seqTurn, he, if_true, hd, runDecoded]

/-- Settles O33: both checks of the sequencer's step come before its case. -/
theorem sequencerNeedsAnEventAndAWellFormedContext : Obligations.SequencerNeedsAnEventAndAWellFormedContext := by
  unfold Obligations.SequencerNeedsAnEventAndAWellFormedContext
  intro s
  refine ⟨fun he => ⟨?_, fun i hf hl => exec_event_not_pending hf hl he⟩,
    fun he hw => ⟨seqTurn_illFormed he hw, fun i hf => exec_event_illFormed hf he hw⟩⟩
  simp [agentTurn, seqTurn, he]

/-! ## The arrows of the transition table -/

/-- The transmit sub-path ends in DATA_SENT exactly when the counter reaches the length (R83, R85). -/
theorem sentCtx_step_cases {c : Context} (hlt : c.txCounter.toNat < c.txLength.toNat) :
    c.txCounter.toNat + 1 < c.txLength.toNat ∧ (sentCtx .dataTransmission c).step = .dataTransmission ∨
      c.txCounter.toNat + 1 = c.txLength.toNat ∧ (sentCtx .dataTransmission c).step = .dataSent := by
  simp only [sentCtx_step, add_one_eq_iff hlt]
  split
  · exact .inr ⟨‹_›, rfl⟩
  · exact .inl ⟨by omega, rfl⟩

/-- A command is accepted in READY or ERROR alone (R110 check 7). -/
theorem launchReady.step_cases {rs : Bool} {s : State} (h : launchReady rs s) :
    s.ctx.step = .error ∨ s.ctx.step = .ready := by
  obtain ⟨-, -, hs, -⟩ := h
  exact (not_inTransfer_iff _).1 hs

theorem exec_event_arrow {i : Instr} {s t : State} (hf : formatOf i = .ev) (h : exec i s = .next t) :
    stepArrow i s.ctx t.ctx.step := by
  cases i with
  | evArbl n p d => obtain ⟨-, -, rfl⟩ := evArbl_next h; rfl
  | evNackHeader d => obtain ⟨-, ⟨-, -, hs, -⟩, rfl⟩ := evNackHeader_next h; exact ⟨hs, rfl⟩
  | evNackData => obtain ⟨-, ⟨-, -, hs, hd⟩, rfl⟩ := evNackData_next h; exact ⟨hs, hd, rfl⟩
  | evNackSent => obtain ⟨-, ⟨-, -, hs, -⟩, rfl⟩ := evNackSent_next h; exact ⟨hs, rfl⟩
  | evHdrW =>
    obtain ⟨hp, ⟨-, -, hs, hd⟩, -, rfl⟩ := evHdrW_next h
    obtain ⟨hlt, -⟩ := txCounter_lt_of_wf hp.2 hd (.inl hs)
    have hcases := sentCtx_step_cases hlt
    rw [txCounter_eq_zero_of_wf hp.2 hd hs] at hcases
    exact ⟨hs, hd, hcases.imp_right (.imp_left Eq.symm)⟩
  | evHdrR => obtain ⟨-, ⟨-, -, hs, hd⟩, -, rfl⟩ := evHdrR_next h; exact ⟨hs, hd, rfl⟩
  | evTx =>
    obtain ⟨hp, ⟨-, -, hs, hd⟩, -, rfl⟩ := evTx_next h
    obtain ⟨hlt, -⟩ := txCounter_lt_of_wf hp.2 hd (.inr hs)
    exact ⟨hs, hd, sentCtx_step_cases hlt⟩
  | evRxMore n =>
    obtain ⟨hp, ⟨-, -, hs, hd⟩, hrem, -, rfl⟩ := evRxMore_next h
    obtain ⟨hlt, -⟩ := rxCounter_lt_of_wf hp.2 hs hd
    rw [rem_toNat hlt.le] at hrem
    exact ⟨hs, hd, by omega, rfl⟩
  | evRxLast n =>
    obtain ⟨hp, ⟨-, -, hs, hd⟩, hrem, hend⟩ := evRxLast_next h
    obtain ⟨hlt, -⟩ := rxCounter_lt_of_wf hp.2 hs hd
    refine ⟨hs, hd, (rem_eq_iff hlt.le 1).1 hrem, ?_⟩
    obtain ⟨-, rfl⟩ | ⟨-, -, rfl⟩ := hend <;> rfl
  | evSent =>
    obtain ⟨-, ⟨-, -, hs, hd⟩, ⟨-, rfl⟩ | ⟨-, rfl⟩⟩ := evSent_next h <;> exact ⟨hs, hd, rfl⟩
  | evIdle n r d =>
    obtain ⟨-, ⟨-, -, hs, -⟩, rfl⟩ := evIdle_next h
    exact ⟨by rw [hs]; cases r <;> simp, rfl⟩
  | _ => nomatch hf, h

theorem exec_command_arrow {i : Instr} {s t : State} (hf : formatOf i = .c) (h : exec i s = .next t) :
    stepArrow i s.ctx t.ctx.step := by
  cases i with
  | init => obtain ⟨-, rfl⟩ := execInit_next h; rfl
  | write => obtain ⟨-, -, hr, rfl⟩ := execWrite_next h; exact ⟨hr.step_cases, rfl⟩
  | read => obtain ⟨-, -, hr, rfl⟩ := execRead_next h; exact ⟨hr.step_cases, rfl⟩
  | memread => obtain ⟨-, -, hr, rfl⟩ := execMemread_next h; exact ⟨hr.step_cases, rfl⟩
  | memwrite => obtain ⟨-, -, hr, rfl⟩ := execMemwrite_next h; exact ⟨hr.step_cases, rfl⟩
  | _ => nomatch hf, h

/-- An operation driven directly has the arrow that stays where it is (R91). -/
theorem stepArrow_direct {i : Instr} (hf : formatOf i = .p ∨ formatOf i = .w) (c : Context) :
    stepArrow i c c.step := by
  cases i with
  | clrEvent | start | restart | stop | setTx | setAck | writeData | readData => rfl
  | wireS | wireSr | wireP | wireT | wireR => rfl
  | _ => simp [formatOf] at hf

theorem exec_arrow {i : Instr} {s t : State} (h : exec i s = .next t) : stepArrow i s.ctx t.ctx.step := by
  cases hf : formatOf i with
  | c => exact exec_command_arrow hf h
  | ev => exact exec_event_arrow hf h
  | p => rw [(exec_direct_frame (.inl hf) h).1]; exact stepArrow_direct (.inl hf) _
  | w => rw [(exec_direct_frame (.inr hf) h).1]; exact stepArrow_direct (.inr hf) _

/-- In its spin, with the transfer ended, the host completes the command (R100). -/
theorem hostTurn_of_terminal {s : State} (hp : s.host.phase = .spin) (hs : inTransfer s.ctx.step = false) :
    agentTurn .host s = hostComplete s := by
  simp [agentTurn, hostTurn, hp, hs]

theorem hostComplete_of_memread_second {s : State} (hop : s.host.cmd.op = .memread) (hsub : s.host.sub = .second) :
    hostComplete s = completeMemreadSecond s := by
  simp only [hostComplete, hop, hsub]

/-- The completion of MEMREAD's second transfer moves no step (R104). -/
theorem completeMemreadSecond_step {s t : State} (h : completeMemreadSecond s = .next t) :
    t.ctx.step = s.ctx.step := by
  obtain ⟨_, rfl⟩ := completeRead_next h
  rfl

/-- Settles O35: by the inversion of each case and command; of the host's moves only the opening of MEMREAD's second
transfer writes `step`. -/
theorem stepMovesOnlyAlongTheTable : Obligations.StepMovesOnlyAlongTheTable := by
  unfold Obligations.StepMovesOnlyAlongTheTable
  refine ⟨fun i s t => exec_arrow, fun s t h => ?_, fun s t h => ?_, fun s t h => ?_⟩
  · obtain ⟨i, hf, hi⟩ := seqTurn_next h
    exact ⟨i, hf, exec_arrow hi⟩
  · obtain ⟨_, hb⟩ := busTurn_next h
    rw [hb.ctx]
  · obtain ⟨hp, hm⟩ := hostTurn_move h
    cases hm with
    | poll | respond => exact .inl rfl
    | secondTransfer hop hs hm =>
      cases hsub : s.host.sub with
      | first => exact .inr ⟨hp, hop, rfl, rfl, hs, rfl⟩
      | second =>
        rw [hostTurn_of_terminal hp (by rw [hs]; rfl), hostComplete_of_memread_second hop hsub] at h
        exact .inl (completeMemreadSecond_step h)

end Sys2Proof.Machine
end

section
/-! SUPPORT. No step of a machine driven through its command layer is a fault (R92, R131): a command goes on or is
refused whatever the state, and under the command invariant so does each agent's turn. -/

namespace Sys2Proof.Machine

open Sys2Proof

/-- An outcome that is a next state or a refusal. -/
def NotFault (r : Result) : Prop := ∀ f, r ≠ .fault f

theorem NotFault.next (s : State) : NotFault (.next s) := nofun

theorem NotFault.refused (e : Refusal) : NotFault (.refused e) := nofun

theorem NotFault.of_goes_on {r : Result} (h : ∃ t, r = .next t) : NotFault r := by
  obtain ⟨t, rfl⟩ := h
  exact .next t

/-! ## Commands -/

theorem NotFault.issue {cmd : Command} {addr : Byte} {ok rs rw : Bool} {setup : State → State} {s : State}
    {c : Context} (hs : setup s = { s with ctx := c }) (hr : c.restartFlag = rs) :
    NotFault (issue cmd addr ok rs rw setup s) := by
  obtain ⟨r, -, h⟩ | ⟨-, -, -, h⟩ := issue_cases (cmd := cmd) (addr := addr) (ok := ok) (rw := rw) hs hr
  · rw [h]; exact .refused r
  · rw [h]; exact .next _

theorem exec_command_notFault {i : Instr} (hf : formatOf i = .c) (s : State) : NotFault (exec i s) := by
  cases i with
  | init =>
    simp only [exec, execInit, respond_eq]
    split
    · exact .next _
    · exact .refused _
  | write ns rs addr data => exact .issue (setupWrite_eq ns rs data s) rfl
  | read rs addr len => exact .issue (setupRead_eq rs len s) rfl
  | memread addr maddr len => exact .issue (setupWrite_eq true false [maddr] s) rfl
  | memwrite addr maddr data => exact .issue (setupWrite_eq false false (maddr :: data) s) rfl
  | writeThenRead | reservedOp67 | reservedZero7 | reservedZero6 | reservedZero5 => exact .refused _
  | reservedInitNs | reservedInitRs | reservedReadNs | reservedMemreadNs | reservedMemreadRs | reservedMemwriteNs
  | reservedMemwriteRs => exact .refused _
  | _ => cases hf

/-- A packet is rejected for its length alone (R110 check 1). -/
theorem decodePacket_error {bytes : List Byte} {e : Reject} (h : decodePacket bytes = .error e) : e = .malformed := by
  cases bytes with
  | nil => cases h; rfl
  | cons b0 ops =>
    rw [decodePacket_cons] at h
    split at h
    · obtain ⟨i, hi⟩ := decodeCommand_total ‹_›
      cases hi.symm.trans h
    · cases h; rfl

theorem runDecoded_packet_notFault (bytes : List Byte) (s : State) : NotFault (runDecoded (decodePacket bytes) s) := by
  cases hd : decodePacket bytes with
  | ok i => exact exec_command_notFault (decodePacket_format hd) s
  | error e =>
    obtain rfl := decodePacket_error hd
    exact .refused _

/-! ## The host -/

theorem completeRead_notFault {s : State} (h : lengthOk s.cfg.cap s.host.cmd.length.toNat = true) :
    NotFault (completeRead s) := by
  obtain ⟨-, hle⟩ := lengthOk_iff.1 h
  rw [completeRead, if_pos hle]
  split
  · exact .next _
  · exact .next _

/-- The success of MEMREAD's first transfer leaves the bus owned and quiet, as RESTART asks (R104, R123). -/
theorem completeMemreadFirst_notFault {s : State} (hs : inTransfer s.ctx.step = false)
    (hi : s.port.inflight = .none) (hm : s.ctx.step = .ready → s.port.mst = true) :
    NotFault (completeMemreadFirst s) := by
  obtain he | hr := (not_inTransfer_iff _).1 hs
  · rw [completeMemreadFirst, if_pos he]; exact .next _
  · rw [completeMemreadFirst_ready hr (hm hr) hi]; exact .next _

theorem hostComplete_notFault {s : State} (h : CommandInv s) (hp : s.host.phase = .spin)
    (hs : inTransfer s.ctx.step = false) : NotFault (hostComplete s) := by
  unfold hostComplete
  cases hop : s.host.cmd.op with
  | write | memwrite => exact .next _
  | read => exact completeRead_notFault (h.readLength hp (.inl hop))
  | memread =>
    cases hsub : s.host.sub with
    | first =>
      obtain ⟨-, -, hm⟩ := h.memreadFirst hp hop hsub
      exact completeMemreadFirst_notFault hs (h.quiet hs).2 hm
    | second => exact completeRead_notFault (s := { s with ctx := _ }) (h.readLength hp (.inr hop))

theorem hostTurn_notFault {s : State} (h : CommandInv s) : NotFault (agentTurn .host s) := by
  cases hp : s.host.phase with
  | idle => simp only [agentTurn, hostTurn, hp, if_true]; exact .refused _
  | spin =>
    cases hs : inTransfer s.ctx.step with
    | true =>
      simp only [agentTurn, hostTurn, hp, hs, if_true, reduceCtorEq, if_false, hostPoll_unbounded h.unbounded]
      exact .next s
    | false =>
      rw [hostTurn_of_terminal hp hs]
      exact hostComplete_notFault h hp hs

/-! ## The bus and the sequencer -/

theorem busTurn_notFault (s : State) : NotFault (agentTurn .bus s) := by
  by_cases hi : s.port.inflight = .none
  · simp only [agentTurn, busTurn, hi]; exact .refused _
  · exact .of_goes_on (busTurn_goes_on hi)

/-- A state whose key is the key of a case's code has the case's four parts (R69). -/
theorem keyIs_of_encode {s : State} {a n : Bool} {p : Step} {d : Direction} {count count' : Byte}
    (h : Code.event (eventKey a n p d) count = .event s.key count') : keyIs a n p d s := by
  obtain ⟨hkey, -⟩ := Code.event.inj h
  exact key_eq_iff.1 hkey.symm

/-- The case fetched in a well-formed context goes on if nothing is in flight and a WRITE that sends has the bus in
transmit mode: no port operation in it is misused (R122 to R128). -/
theorem exec_fetched_goes_on {s : State} {i : Instr} (hp : eventPending s) (hf : fetchEvent s = .ok i)
    (hl : isIllegalEvent i = false) (hidle : s.port.inflight = .none)
    (hsend : s.ctx.direction = .write → canSend s.port) : ∃ t, exec i s = .next t := by
  obtain ⟨hfmt, hcond, count, henc⟩ := encode_of_decodeEvent hf
  have hread : canRead s.port := .inr (.inr hidle)
  cases i with
  | evArbl | evNackHeader | evNackData | evNackSent =>
    exact ⟨_, (seqCase_of_selected hp (keyIs_of_encode henc) rfl).trans (raise_acknowledged s)⟩
  | evIdle => exact ⟨_, seqCase_of_selected hp (keyIs_of_encode henc) rfl⟩
  | evHdrW =>
    have hk := keyIs_of_encode henc
    have ⟨_, _, hs, hd⟩ := hk
    exact ⟨_, (exec_evHdrW hp hk).trans
      (sendFrom_of_canSend (txCounter_lt_cap hp.2 hd (.inl hs)) (hsend hd))⟩
  | evTx =>
    have hk := keyIs_of_encode henc
    have ⟨_, _, hs, hd⟩ := hk
    exact ⟨_, (exec_evTx hp hk).trans
      (sendFrom_of_canSend (txCounter_lt_cap hp.2 hd (.inr hs)) (hsend hd))⟩
  | evHdrR => exact evHdrR_goes_on hp (keyIs_of_encode henc) (.inr hidle)
  | evRxMore => exact evRxMore_goes_on hp (keyIs_of_encode henc) (of_decide_eq_true hcond) hread
  | evRxLast => exact evRxLast_goes_on hp (keyIs_of_encode henc) (of_decide_eq_true hcond) (.inr hread)
  | evSent => exact evSent_goes_on hp (keyIs_of_encode henc)
  | evIllegalSentRead | evIllegalCode5 | evIllegalCode67 => cases hl
  | _ => cases hfmt

/-- Through the command layer an event is taken in a well-formed context, with the port ready for its case (R92,
R131). -/
theorem seqTurn_goes_on {s : State} (h : CommandInv s) (he : s.port.evFlag = true) :
    ∃ t, agentTurn .seq s = .next t := by
  have hT := h.transferring_of_port (.inl he)
  have hidle := h.oneEvent he
  obtain ⟨i, hi, hl⟩ := fetchEvent_of_wf h.wellFormed
  rw [seqTurn_of_fetch he hi]
  exact exec_fetched_goes_on ⟨he, h.wellFormed⟩ hi hl hidle fun hd => ⟨hT.owned, hT.mode.2 (.inr hd), hidle⟩

theorem agentTurn_notFault {s : State} (h : CommandInv s) (a : Agent) : NotFault (agentTurn a s) := by
  cases a with
  | host => exact hostTurn_notFault h
  | bus => exact busTurn_notFault s
  | seq =>
    cases he : s.port.evFlag with
    | true => exact .of_goes_on (seqTurn_goes_on h he)
    | false =>
      simp only [agentTurn, seqTurn, he, Bool.false_eq_true, if_false]
      exact .refused _

/-! ## The step -/

theorem freeStep_notFault {s : State} (h : CommandInv s) : NotFault (freeStep s) := by
  obtain ⟨a, -, hf⟩ | ⟨-, hf⟩ := freeStep_cases s
  · rw [hf]
    exact agentTurn_notFault (h.fetched (s.freeIndex + 1) (List.Subset.refl _)) a
  · rw [hf]; exact .refused _

/-- Settles O53, by the head of the inputs: under the invariant none is an operation driven directly. -/
theorem commandLayerNeverFaults : Obligations.CommandLayerNeverFaults := by
  unfold Obligations.CommandLayerNeverFaults
  intro s f h
  suffices NotFault (step s) from this f
  cases hin : s.inputs with
  | nil => rw [step_of_inputs_nil hin]; exact freeStep_notFault h
  | cons x rest =>
    have hx : commandInput x = true := List.all_eq_true.1 h.commands x (by simp [hin])
    cases x with
    | call bytes =>
      cases hp : s.host.phase with
      | idle => rw [step_of_call_idle hin hp]; exact runDecoded_packet_notFault _ _
      | spin => rw [step_of_call_spin hin hp]; exact freeStep_notFault h
    | packet bytes => rw [step_of_packet hin]; exact runDecoded_packet_notFault _ _
    | turn a =>
      rw [step_of_turn hin]
      exact agentTurn_notFault (h.fetched s.freeIndex (by simp [hin])) a
    | portOp | wire => cases hx

end Sys2Proof.Machine
end

section
/-! SUPPORT. A byte round, and a whole WRITE on a bus that acknowledges every byte (R93, R102, R133). What holds before
a round is named by the bytes still to send, and each round takes the first of them. -/

namespace Sys2Proof.Machine

open Sys2Proof

/-! ## One byte on the bus -/

/-- The state after the bus has completed a byte: the wire symbol, the draws left, and in the port the data register
and the event with its bits (R129, R130). -/
def afterByte (w : WireSym) (data : Byte) (nack arbl : Bool) (draws : List BusDraw) (s : State) : State :=
  logWire w { s with
    draws := draws
    port := { s.port with dataReg := data, rxNack := nack, arbLost := arbl, inflight := .none, evFlag := true } }

section
variable (w : WireSym) (data : Byte) (nack arbl : Bool) (draws : List BusDraw) (s : State)

@[simp] theorem afterByte_ctx : (afterByte w data nack arbl draws s).ctx = s.ctx := rfl
@[simp] theorem afterByte_cfg : (afterByte w data nack arbl draws s).cfg = s.cfg := rfl
@[simp] theorem afterByte_host : (afterByte w data nack arbl draws s).host = s.host := rfl
@[simp] theorem afterByte_draws : (afterByte w data nack arbl draws s).draws = draws := rfl
@[simp] theorem afterByte_wire : (afterByte w data nack arbl draws s).trace.wire = s.trace.wire ++ [w] := rfl
@[simp] theorem afterByte_port : (afterByte w data nack arbl draws s).port =
    { s.port with dataReg := data, rxNack := nack, arbLost := arbl, inflight := .none, evFlag := true } := rfl

end

theorem nextDraw_of_cons {s : State} {d : BusDraw} {ds : List BusDraw} (h : s.draws = d :: ds) : nextDraw s = d := by
  simp only [nextDraw, h]

theorem afterDraw_of_cons {s : State} {d : BusDraw} {ds : List BusDraw} (h : s.draws = d :: ds) :
    afterDraw s = { s with draws := ds } := by
  simp only [afterDraw, h]

theorem busTurn_transmits {s : State} {v : Byte} {d : BusDraw} {ds : List BusDraw} (hi : s.port.inflight = .txb v)
    (hd : s.draws = d :: ds) :
    agentTurn .bus s = .next (afterByte (.t v d.nack) s.port.dataReg d.nack d.arbl ds s) := by
  rw [busTurn_of_txb hi, nextDraw_of_cons hd]
  refine (if_pos hi).trans ?_
  rw [nextDraw_of_cons hd, afterDraw_of_cons hd]
  rfl

theorem busTurn_receives {s : State} {d : BusDraw} {ds : List BusDraw} (hi : s.port.inflight = .rxb)
    (hd : s.draws = d :: ds) :
    agentTurn .bus s = .next (afterByte (.r d.byte s.port.ackCtl) d.byte s.port.ackCtl d.arbl ds s) := by
  rw [busTurn_of_rxb hi, nextDraw_of_cons hd]
  refine (if_pos ⟨hi, rfl⟩).trans ?_
  rw [nextDraw_of_cons hd, afterDraw_of_cons hd]
  rfl

theorem busThenSeq_of_bus {s t : State} (h : agentTurn .bus s = .next t) : busThenSeq s = agentTurn .seq t := by
  rw [busThenSeq, h, andThen_next]

theorem byteRounds_succ_of_round {s t : State} (n : Nat) (h : busThenSeq s = .next t) :
    byteRounds (n + 1) s = byteRounds n t := by
  rw [byteRounds, h, andThen_next]

/-- With an event pending the sequencer runs the case whose code has the state's key (R69, R80). -/
theorem seqTurn_of_key {s : State} {i : Instr} {a n : Bool} {p : Step} {d : Direction} {count : Byte}
    (he : s.port.evFlag = true) (hk : keyIs a n p d s) (henc : encode i = .event (eventKey a n p d) count)
    (hcond : caseCond i s.ctx.rem = true) : agentTurn .seq s = exec i s :=
  seqTurn_of_fetch he (decodeEvent_of_encode (by rw [key_eq_iff.2 hk, henc]) hcond)

/-- A round in which the sequencer runs a case that goes on. -/
theorem round_of_case {s u : State} {i : Instr} {a n : Bool} {p : Step} {d : Direction} {count : Byte}
    (hbus : agentTurn .bus s = .next u) (hp : eventPending u) (hk : keyIs a n p d u)
    (henc : encode i = .event (eventKey a n p d) count) (hcond : caseCond i u.ctx.rem = true)
    (hgo : eventPending u → keyIs a n p d u → ∃ t, exec i u = .next t) :
    ∃ t, exec i u = .next t ∧ busThenSeq s = .next t := by
  obtain ⟨t, ht⟩ := hgo hp hk
  exact ⟨t, ht, ((busThenSeq_of_bus hbus).trans (seqTurn_of_key hp.1 hk henc hcond)).trans ht⟩

/-! ## A WRITE under way -/

/-- A WRITE transfer with the byte `v` in flight and the bytes `rest` still to be sent, on a bus that acknowledges
them all. -/
structure Sending (rest : List Byte) (v : Byte) (later : List BusDraw) (s : State) : Prop where
  wellFormed : s.ctx.wf s.cfg.cap = true
  transfer : inTransfer s.ctx.step = true
  direction : s.ctx.direction = .write
  remaining : s.ctx.txCounter.toNat + rest.length = s.ctx.txLength.toNat
  data : ∀ (j : Nat) (hj : j < rest.length), s.ctx.txBuffer.read (s.ctx.txCounter.toNat + j) = rest[j]
  owned : s.port.mst = true
  transmit : s.port.txMode = true
  byte : s.port.inflight = .txb v
  draws : s.draws = List.replicate (rest.length + 1) BusDraw.ack ++ later

/-- The end of a WRITE transfer: READY, every byte sent, the bus kept exactly when `ns` is set. -/
structure WriteEnded (ns : Bool) (host : HostState) (later : List BusDraw) (wire : List WireSym) (t : State) :
    Prop where
  step : t.ctx.step = .ready
  counter : t.ctx.txCounter = t.ctx.txLength
  owned : t.port.mst = ns
  draws : t.draws = later
  host : t.host = host
  wire : t.trace.wire = wire

/-- In a WRITE transfer the step follows from the counter: DATA_SENT when it has reached the length (R22). -/
theorem step_of_wf_write {cap : Nat} {c : Context} (hw : c.wf cap = true) (hd : c.direction = .write)
    (ht : inTransfer c.step = true) :
    c.txCounter.toNat < c.txLength.toNat ∧ (c.step = .headerSent ∨ c.step = .dataTransmission) ∨
      c.txCounter.toNat = c.txLength.toNat ∧ c.step = .dataSent := by
  cases hs : c.step with
  | headerSent => exact .inl ⟨(txCounter_lt_of_wf hw hd (.inl hs)).1, .inl rfl⟩
  | dataTransmission => exact .inl ⟨(txCounter_lt_of_wf hw hd (.inr hs)).1, .inr rfl⟩
  | dataSent =>
    have htx := wf_write hw hd ht
    simp only [Context.txWf, hs, Bool.and_eq_true, decide_eq_true_eq] at htx
    exact .inr ⟨htx.2, rfl⟩
  | error | ready =>
    rw [hs] at ht
    exact absurd ht (by decide)
  | code5 | code6 | code7 =>
    have hstep := wf_step hw
    rw [hs] at hstep
    cases hstep

/-- The bus completes the byte in flight, which is acknowledged. -/
theorem Sending.busTurn {rest : List Byte} {v : Byte} {later : List BusDraw} {s : State}
    (h : Sending rest v later s) : agentTurn .bus s = .next (afterByte (.t v false) s.port.dataReg false false
      (List.replicate rest.length BusDraw.ack ++ later) s) :=
  busTurn_transmits h.byte h.draws

/-- An acknowledged byte of a WRITE with more to send: the sequencer sends the next (R83, R85). -/
theorem seqTurn_sends {s : State} (hp : eventPending s) (ha : s.port.arbLost = false) (hn : s.port.rxNack = false)
    (hd : s.ctx.direction = .write) (hs : s.ctx.step = .headerSent ∨ s.ctx.step = .dataTransmission) :
    agentTurn .seq s = sendFrom s := by
  obtain hs | hs := hs
  · have hk : keyIs false false .headerSent .write s := ⟨ha, hn, hs, hd⟩
    rw [seqTurn_of_key (i := .evHdrW) hp.1 hk rfl rfl, exec_evHdrW hp hk]
  · have hk : keyIs false false .dataTransmission .write s := ⟨ha, hn, hs, hd⟩
    rw [seqTurn_of_key (i := .evTx) hp.1 hk rfl rfl, exec_evTx hp hk]

/-- A round with more to send puts the next byte in flight. -/
theorem Sending.round {b v : Byte} {rest : List Byte} {later : List BusDraw} {s : State}
    (h : Sending (b :: rest) v later s) : ∃ t, busThenSeq s = .next t ∧ Sending rest b later t ∧
      t.ctx.noStopFlag = s.ctx.noStopFlag ∧ t.host = s.host ∧ t.trace.wire = s.trace.wire ++ [.t v false] := by
  have hrem := h.remaining
  simp only [List.length_cons] at hrem
  obtain ⟨hlt, hs⟩ : s.ctx.txCounter.toNat < s.ctx.txLength.toNat ∧
      (s.ctx.step = .headerSent ∨ s.ctx.step = .dataTransmission) := by
    obtain h | ⟨heq, -⟩ := step_of_wf_write h.wellFormed h.direction h.transfer
    · exact h
    · omega
  have hb : nextByte s.ctx = b := h.data 0 (Nat.zero_lt_succ _)
  have hadd : (s.ctx.txCounter + 1).toNat = s.ctx.txCounter.toNat + 1 := add_one_toNat hlt
  refine ⟨_, ((busThenSeq_of_bus h.busTurn).trans
    (seqTurn_sends ⟨rfl, h.wellFormed⟩ rfl rfl h.direction hs)).trans
    (sendFrom_of_canSend (txCounter_lt_cap h.wellFormed h.direction hs) ⟨h.owned, h.transmit, rfl⟩),
    ?_, rfl, rfl, List.append_nil _⟩
  exact
    { wellFormed := sentCtx_wf h.wellFormed h.direction hs
      transfer := by rw [afterEvent_ctx, sentCtx_step]; split <;> rfl
      direction := h.direction
      remaining := by
        simp only [afterEvent_ctx, afterByte_ctx, sentCtx_txCounter, sentCtx_txLength, hadd]
        omega
      data := fun j hj => by
        have hnext := h.data (j + 1) (Nat.succ_lt_succ hj)
        simp only [afterEvent_ctx, afterByte_ctx, sentCtx_txCounter, hadd]
        rw [Nat.add_assoc, Nat.add_comm 1 j]
        exact hnext
      owned := h.owned
      transmit := h.transmit
      byte := congrArg Inflight.txb hb
      draws := rfl }

/-- The round of the last byte ends the transfer (R88). -/
theorem Sending.last_round {v : Byte} {later : List BusDraw} {s : State} (h : Sending [] v later s) :
    ∃ t, busThenSeq s = .next t ∧ WriteEnded s.ctx.noStopFlag s.host later
      (s.trace.wire ++ .t v false :: if s.ctx.noStopFlag then [] else [.p]) t := by
  obtain ⟨heq, hs⟩ : s.ctx.txCounter.toNat = s.ctx.txLength.toNat ∧ s.ctx.step = .dataSent := by
    obtain ⟨hlt, -⟩ | h := step_of_wf_write h.wellFormed h.direction h.transfer
    · exact absurd h.remaining hlt.ne
    · exact h
  have hc : s.ctx.txCounter = s.ctx.txLength := BitVec.eq_of_toNat_eq heq
  obtain ⟨t, ht, hround⟩ := round_of_case (i := .evSent) h.busTurn ⟨rfl, h.wellFormed⟩
    ⟨rfl, rfl, hs, h.direction⟩ rfl rfl evSent_goes_on
  refine ⟨t, hround, ?_⟩
  obtain ⟨-, -, ⟨hn, rfl⟩ | ⟨hn, rfl⟩⟩ := evSent_next ht
  · simp only [afterByte_ctx] at hn
    exact ⟨rfl, hc, hn.symm, rfl, rfl, by simp [afterEvent, stopWire, h.owned, hn]⟩
  · simp only [afterByte_ctx] at hn
    exact ⟨rfl, hc, h.owned.trans hn.symm, rfl, rfl, by simp [afterEvent, hn]⟩

/-- A WRITE that is acknowledged to the end: one round for the byte in flight and one for each byte to come. -/
theorem Sending.rounds {rest : List Byte} {v : Byte} {later : List BusDraw} {s : State}
    (h : Sending rest v later s) : ∃ t, byteRounds (rest.length + 1) s = .next t ∧
      WriteEnded s.ctx.noStopFlag s.host later (s.trace.wire ++ .t v false ::
        rest.map (fun b => .t b false) ++ if s.ctx.noStopFlag then [] else [.p]) t := by
  induction rest generalizing v s with
  | nil =>
    obtain ⟨t, ht, hend⟩ := h.last_round
    exact ⟨t, byteRounds_succ_of_round 0 ht, by simpa using hend⟩
  | cons b rest ih =>
    obtain ⟨u, hu, hsend, hn, hh, hw⟩ := h.round
    obtain ⟨t, ht, hend⟩ := ih hsend
    refine ⟨t, (byteRounds_succ_of_round _ hu).trans ht, ?_⟩
    rw [hn, hh, hw] at hend
    simpa using hend

/-- A WRITE accepted: the set-up and the trigger (R102). -/
theorem exec_write_of_ready {s : State} {ns rs : Bool} {addr : Byte} {data : List Byte} (hr : launchReady rs s)
    (ha : addr.toNat < 128) (hl : lengthOk s.cfg.cap data.length = true) :
    exec (.write ns rs addr data) s =
      .next (afterIssue s (writeCtx ns rs data s.ctx) (writeCommand ns rs addr data) rs (addr <<< 1)) := by
  rw [← header_write ha]
  exact issue_eq (setupWrite_eq ns rs data s) rfl hr ha hl

/-- The issue of a WRITE leaves the address byte in flight and all the data to send. -/
theorem sending_afterIssue {s : State} {rs : Bool} {data : List Byte} {later : List BusDraw} (hcap : capLegal s.cfg)
    (hbuf : s.ctx.txBuffer.wf) (hl : lengthOk s.cfg.cap data.length = true)
    (hd : s.draws = List.replicate (data.length + 1) BusDraw.ack ++ later) (ns : Bool) (cmd : Command) (hdr : Byte) :
    Sending data hdr later (afterIssue s (writeCtx ns rs data s.ctx) cmd rs hdr) where
  wellFormed := writeCtx_wf hcap hl ns rs s.ctx
  transfer := rfl
  direction := rfl
  remaining := by
    obtain ⟨-, hle⟩ := lengthOk_iff.1 hl
    have hlen := lenByte_toNat (data := data) (by have := hcap.2; omega)
    simp [writeCtx, hlen]
  data j hj := by
    simpa [writeCtx] using Memory.read_copyIn_zero_of_lt hbuf hj
  owned := rfl
  transmit := rfl
  byte := rfl
  draws := hd

/-- The completion of a WRITE (R102). -/
theorem hostTurn_completes_write {s : State} (hp : s.host.phase = .spin) (hop : s.host.cmd.op = .write)
    (hs : s.ctx.step = .ready) : agentTurn .host s = respond [0x01#8] s := by
  rw [hostTurn_of_terminal hp (by rw [hs]; rfl)]
  simp only [hostComplete, hop, completeWrite, hs]
  rfl

/-- Settles O56: the rounds of `Sending.rounds`, from the state that the issue leaves. -/
theorem acknowledgedWriteCompletes : Obligations.AcknowledgedWriteCompletes := by
  unfold Obligations.AcknowledgedWriteCompletes
  intro s ns rs addr data later hcap hbuf hr ha hmin hmax hd
  have hl := lengthOk_iff.2 ⟨hmin, hmax⟩
  obtain ⟨t, ht, hend⟩ := (sending_afterIssue (rs := rs) hcap hbuf hl hd ns (writeCommand ns rs addr data)
    (addr <<< 1)).rounds
  have hhost : t.host.phase = .spin ∧ t.host.cmd.op = .write := by rw [hend.host]; exact ⟨rfl, rfl⟩
  refine ⟨_, t, _, exec_write_of_ready hr ha hl, ht,
    (hostTurn_completes_write hhost.1 hhost.2 hend.step).trans (respond_eq _ _), rfl, rfl, hend.step, hend.counter,
    hend.owned, hend.draws, hend.wire.trans ?_⟩
  cases ns <;> simp [afterIssue, writeCtx]

end Sys2Proof.Machine
end

section
/-! SUPPORT. A READ on a bus that answers (R90, R93, R137): the address byte's round, then one round for each byte of
data, the last of which is answered with NACK. -/

namespace Sys2Proof.Machine

open Sys2Proof

/-- A READ transfer in its data phase: a reception is under way, the bytes `got` have been stored and the bytes `rest`
are still to come. -/
structure Receiving (got rest : List Byte) (later : List BusDraw) (s : State) : Prop where
  wellFormed : s.ctx.wf s.cfg.cap = true
  step : s.ctx.step = .dataTransmission
  direction : s.ctx.direction = .read
  stops : s.ctx.noStopFlag = false
  remaining : s.ctx.rxCounter.toNat + rest.length = s.ctx.rxLength.toNat
  form : s.ctx.rxBuffer.wf
  stored : s.ctx.rxBuffer.copyOut s.ctx.rxCounter.toNat = got
  owned : s.port.mst = true
  receive : s.port.txMode = false
  ack : s.port.ackCtl = decide (rest.length = 1)
  byte : s.port.inflight = .rxb
  draws : s.draws = rest.map BusDraw.rx ++ later

/-- The end of a READ transfer of `n` bytes: READY, the bus released, the bytes in the buffer. -/
structure ReadEnded (n : Nat) (bytes : List Byte) (host : HostState) (later : List BusDraw) (wire : List WireSym)
    (t : State) : Prop where
  step : t.ctx.step = .ready
  released : t.port.mst = false
  quiet : t.port.inflight = .none
  fits : n ≤ t.cfg.cap
  bytes : t.ctx.rxBuffer.copyOut n = bytes
  draws : t.draws = later
  host : t.host = host
  wire : t.trace.wire = wire

/-- A byte stored behind those copied out so far is copied out after them (R43). -/
theorem Memory.copyOut_write {m : Memory} (hm : m.wf) (n : Nat) (v : Byte) :
    (m.write n v).copyOut (n + 1) = m.copyOut n ++ [v] := by
  simp only [Memory.copyOut, List.range_succ, List.map_append, List.map_cons, List.map_nil, Memory.read_write n v _ hm,
    if_true, List.append_cancel_right_eq]
  exact List.map_congr_left fun j hj => Memory.read_write_of_ne m v (List.mem_range.1 hj).ne

/-- The bus completes the byte the slave sends, answered as the acknowledge control says (R130). -/
theorem Receiving.busTurn {got rest : List Byte} {b : Byte} {later : List BusDraw} {s : State}
    (h : Receiving got (b :: rest) later s) : agentTurn .bus s = .next
      (afterByte (.r b s.port.ackCtl) b s.port.ackCtl false (rest.map BusDraw.rx ++ later) s) :=
  busTurn_receives h.byte h.draws

/-- A round with more to come stores the byte and starts the next reception; the byte is acknowledged. -/
theorem Receiving.round {got rest : List Byte} {b c : Byte} {later : List BusDraw} {s : State}
    (h : Receiving got (b :: c :: rest) later s) : ∃ t, busThenSeq s = .next t ∧
      Receiving (got ++ [b]) (c :: rest) later t ∧ t.ctx.rxLength = s.ctx.rxLength ∧ t.host = s.host ∧
      t.trace.wire = s.trace.wire ++ [.r b false] := by
  obtain ⟨hlt, -⟩ := rxCounter_lt_of_wf h.wellFormed h.step h.direction
  have hrem : s.ctx.rem.toNat = rest.length + 2 := (rem_eq_iff hlt.le _).2 h.remaining
  have hadd : (s.ctx.rxCounter + 1).toNat = s.ctx.rxCounter.toNat + 1 := add_one_toNat hlt
  have hack : s.port.ackCtl = false := by simp [h.ack]
  have hmore : 2 ≤ s.ctx.rem.toNat := by omega
  obtain ⟨t, ht, hround⟩ := round_of_case (i := .evRxMore s.port.ackCtl) h.busTurn ⟨rfl, h.wellFormed⟩
    ⟨rfl, rfl, h.step, h.direction⟩ rfl (decide_eq_true hmore)
    fun hp hk => evRxMore_goes_on hp hk hmore (.inr (.inr rfl))
  refine ⟨t, hround, ?_⟩
  obtain ⟨-, -, -, -, rfl⟩ := evRxMore_next ht
  refine ⟨?_, rfl, rfl, by simp [afterEvent, hack]⟩
  exact
    { wellFormed := storedCtx_wf _ h.wellFormed h.direction h.step hmore
      step := rfl
      direction := h.direction
      stops := h.stops
      remaining := by
        have := h.remaining
        simp only [afterEvent_ctx, afterByte_ctx, storedCtx, hadd, List.length_cons] at this ⊢
        omega
      form := Memory.write_wf _ _ h.form
      stored := by
        simp only [afterEvent_ctx, afterByte_ctx, afterByte_port, storedCtx, hadd, Memory.copyOut_write h.form,
          h.stored]
      owned := h.owned
      receive := h.receive
      ack := by simp [hrem]
      byte := if_pos ⟨h.owned, h.receive⟩
      draws := rfl }

/-- The round of the last byte, answered with NACK, ends the transfer with P (R87, R137). -/
theorem Receiving.last_round {got : List Byte} {b : Byte} {later : List BusDraw} {s : State}
    (h : Receiving got [b] later s) : ∃ t, busThenSeq s = .next t ∧
      ReadEnded s.ctx.rxLength.toNat (got ++ [b]) s.host later (s.trace.wire ++ [.r b true, .p]) t := by
  obtain ⟨hlt, hcap⟩ := rxCounter_lt_of_wf h.wellFormed h.step h.direction
  have hrem : s.ctx.rem.toNat = 1 := (rem_eq_iff hlt.le 1).2 h.remaining
  have hack : s.port.ackCtl = true := h.ack
  obtain ⟨t, ht, hround⟩ := round_of_case (i := .evRxLast s.port.ackCtl) h.busTurn ⟨rfl, h.wellFormed⟩
    ⟨rfl, rfl, h.step, h.direction⟩ rfl (decide_eq_true hrem)
    fun hp hk => evRxLast_goes_on hp hk hrem (.inl h.stops)
  refine ⟨t, hround, ?_⟩
  obtain ⟨-, -, -, ⟨-, rfl⟩ | ⟨hn, -⟩⟩ := evRxLast_next ht
  · exact
      { step := rfl
        released := rfl
        quiet := if_pos h.owned
        fits := hcap
        bytes := by
          rw [← h.remaining, ← h.stored]
          exact Memory.copyOut_write h.form _ _
        draws := rfl
        host := rfl
        wire := by simp [afterEvent, stopWire, h.owned, hack] }
  · simp [h.stops] at hn

/-- A READ in its data phase runs to its end: one round for each byte (R93). -/
theorem Receiving.rounds {got front : List Byte} {last : Byte} {later : List BusDraw} {s : State}
    (h : Receiving got (front ++ [last]) later s) : ∃ t, byteRounds (front.length + 1) s = .next t ∧
      ReadEnded s.ctx.rxLength.toNat (got ++ (front ++ [last])) s.host later
        (s.trace.wire ++ front.map (fun b => .r b false) ++ [.r last true, .p]) t := by
  induction front generalizing got s with
  | nil =>
    obtain ⟨t, ht, hend⟩ := h.last_round
    exact ⟨t, byteRounds_succ_of_round 0 ht, by simpa using hend⟩
  | cons b front ih =>
    obtain ⟨c, rest, hc⟩ : ∃ c rest, front ++ [last] = c :: rest := List.exists_cons_of_ne_nil (by simp)
    rw [List.cons_append, hc] at h
    obtain ⟨u, hu, hrecv, hlen, hh, hw⟩ := h.round
    rw [← hc] at hrecv
    obtain ⟨t, ht, hend⟩ := ih hrecv
    refine ⟨t, (byteRounds_succ_of_round _ hu).trans ht, ?_⟩
    rw [hlen, hh, hw] at hend
    simpa using hend

/-- A READ accepted: the set-up and the trigger (R103). -/
theorem exec_read_of_ready {s : State} {rs : Bool} {addr len : Byte} (hr : launchReady rs s) (ha : addr.toNat < 128)
    (hl : lengthOk s.cfg.cap len.toNat = true) : exec (.read rs addr len) s =
      .next (afterIssue s (readCtx rs len s.ctx) (readCommand rs addr len) rs (addr <<< 1 ||| 1)) := by
  rw [← header_read ha]
  exact issue_eq (setupRead_eq rs len s) rfl hr ha hl

/-- The round of the address byte, acknowledged, starts the data phase (R84). -/
theorem readHeader_round {s : State} {rs : Bool} {len : Byte} {bytes : List Byte} {later : List BusDraw}
    (hbuf : s.ctx.rxBuffer.wf) (hl : lengthOk s.cfg.cap len.toNat = true) (hlen : bytes.length = len.toNat)
    (hd : s.draws = BusDraw.ack :: bytes.map BusDraw.rx ++ later) (cmd : Command) (hdr : Byte) :
    ∃ t, busThenSeq (afterIssue s (readCtx rs len s.ctx) cmd rs hdr) = .next t ∧ Receiving [] bytes later t ∧
      t.ctx.rxLength = len ∧ t.host = { s.host with cmd := cmd, sub := .first, phase := .spin, spins := 0 } ∧
      t.trace.wire = s.trace.wire ++ [openingSym rs, .t hdr false] := by
  have hw := readCtx_wf hl rs s.ctx
  obtain ⟨t, ht, hround⟩ := round_of_case (i := .evHdrR)
    (busTurn_transmits (s := afterIssue s (readCtx rs len s.ctx) cmd rs hdr) rfl hd) ⟨rfl, hw⟩
    ⟨rfl, rfl, rfl, rfl⟩ rfl rfl fun hp hk => evHdrR_goes_on hp hk (.inr rfl)
  refine ⟨t, hround, ?_⟩
  obtain ⟨-, -, -, rfl⟩ := evHdrR_next ht
  refine ⟨?_, rfl, rfl, by simp [afterEvent, afterIssue, BusDraw.ack]⟩
  exact
    { wellFormed := startReception_wf hw rfl rfl
      step := rfl
      direction := rfl
      stops := rfl
      remaining := by simpa [readCtx] using hlen
      form := hbuf
      stored := rfl
      owned := rfl
      receive := rfl
      ack := by simp [readCtx, hlen, ← BitVec.toNat_inj]
      byte := rfl
      draws := rfl }

/-- The completion of a READ that ended in READY (R43, R103). -/
theorem hostTurn_completes_read {s : State} (hp : s.host.phase = .spin) (hop : s.host.cmd.op = .read)
    (hs : s.ctx.step = .ready) (hl : s.host.cmd.length.toNat ≤ s.cfg.cap) : agentTurn .host s =
      respond (0x01#8 :: s.ctx.rxBuffer.copyOut s.host.cmd.length.toNat) s := by
  rw [hostTurn_of_terminal hp (by rw [hs]; rfl)]
  simp only [hostComplete, hop, completeRead, hs, hl, if_true]
  rfl

/-- Settles O57: the address byte's round, the rounds of `Receiving.rounds`, and the copy-out. -/
theorem acknowledgedReadReturnsTheBytes : Obligations.AcknowledgedReadReturnsTheBytes := by
  unfold Obligations.AcknowledgedReadReturnsTheBytes
  intro s rs addr front last later hcap hbuf hr ha hmax hd
  have hlen : (BitVec.ofNat 8 (front.length + 1)).toNat = front.length + 1 := by
    have := hcap.2
    rw [BitVec.toNat_ofNat]; omega
  have hl : lengthOk s.cfg.cap (BitVec.ofNat 8 (front.length + 1)).toNat = true := by
    rw [hlen]; exact lengthOk_iff.2 ⟨Nat.succ_pos _, hmax⟩
  generalize BitVec.ofNat 8 (front.length + 1) = len at hlen hl ⊢
  obtain ⟨u, hu, hrecv, hulen, huhost, huwire⟩ := readHeader_round (rs := rs) hbuf hl
    (bytes := front ++ [last]) (by simp [hlen]) hd (readCommand rs addr len) (addr <<< 1 ||| 1)
  obtain ⟨t, ht, hend⟩ := hrecv.rounds
  obtain ⟨hstep, hmst, hquiet, hfits, hbytes, hdraws, hhost, hwire⟩ := hend
  rw [huhost] at hhost
  rw [hulen] at hfits hbytes
  have hcmd : t.host.cmd.length = len := by rw [hhost]; rfl
  have hdone := hostTurn_completes_read (by rw [hhost]) (by rw [hhost]; rfl) hstep (by rwa [hcmd])
  rw [hcmd, hbytes] at hdone
  refine ⟨_, t, _, exec_read_of_ready hr ha hl, (byteRounds_succ_of_round _ hu).trans ht, hdone.trans (respond_eq _ _),
    rfl, rfl, hstep, hmst, hquiet, hdraws, hwire.trans ?_⟩
  simp [huwire]

end Sys2Proof.Machine
end

section
/-! SUPPORT. The host commands (R100 to R110): the order of the acceptance checks, what each accepted command leaves,
what the host's turn does in its spin, and that MEMREAD's first transfer keeps the bus. -/

namespace Sys2Proof.Machine

open Sys2Proof

/-! ## The acceptance checks (R110) -/

theorem Inflight.isNone_iff (i : Inflight) : i.isNone = true ↔ i = .none := by
  cases i <;> simp [Inflight.isNone]

/-- Each of the model's checks is the corresponding entry of R110's table, and both take the first that fails. -/
theorem acceptance_eq_firstFailing (addr : Byte) (n : Nat) (rs : Bool) (s : State) :
    acceptance addr (lengthOk s.cfg.cap n) rs s = firstFailing (acceptanceTable addr 1 s.cfg.cap n rs s) := by
  have hlen : (!lengthOk s.cfg.cap n) = decide (n < 1 ∨ s.cfg.cap < n) := by
    rw [← Bool.coe_iff_coe, Bool.not_eq_true', ← Bool.not_eq_true, lengthOk_iff, decide_eq_true_eq]
    omega
  have hport : (!s.port.inflight.isNone || s.port.evFlag) =
      decide (s.port.inflight ≠ .none ∨ s.port.evFlag = true) := by
    rw [← Bool.coe_iff_coe]; simp [← Inflight.isNone_iff]
  have hstep : inTransfer s.ctx.step = decide (s.ctx.step ≠ .error ∧ s.ctx.step ≠ .ready) := by
    rw [← Bool.coe_iff_coe]; simp [inTransfer_iff]
  simp only [acceptance, firstFailing, acceptanceTable, addr_bit7, hlen, hport, hstep, decide_eq_true_eq,
    Bool.not_eq_true']

/-- The issue of a command answers the checks: it is refused with the first reason, and goes on when there is none. -/
theorem issue_answers_checks {cmd : Command} {addr : Byte} {ok rs rw : Bool} {setup : State → State} {s : State}
    {c : Context} {answer : Option Refusal} (hs : setup s = { s with ctx := c }) (hr : c.restartFlag = rs)
    (hc : acceptance addr ok rs s = answer) :
    (∀ r, answer = some r → issue cmd addr ok rs rw setup s = .refused r) ∧
    (answer = none → ∃ t, issue cmd addr ok rs rw setup s = .next t) := by
  subst hc
  refine ⟨fun r h => by simp only [issue, h], fun h => ?_⟩
  obtain ⟨ha, hk, hl⟩ := acceptance_eq_none.1 h
  exact ⟨_, issue_eq hs hr hl ha hk⟩

/-- Settles O14: each of the four commands is an `issue`, and its checks are R110's table. -/
theorem acceptanceChecksInOrder : Obligations.AcceptanceChecksInOrder := by
  unfold Obligations.AcceptanceChecksInOrder
  rintro s ns rs addr maddr len data i checks (⟨rfl, rfl⟩ | ⟨rfl, rfl⟩ | ⟨rfl, rfl⟩ | ⟨rfl, rfl⟩)
  · exact issue_answers_checks (setupWrite_eq ns rs data s) rfl (acceptance_eq_firstFailing ..)
  · exact issue_answers_checks (setupRead_eq rs len s) rfl (acceptance_eq_firstFailing ..)
  · exact issue_answers_checks (setupWrite_eq true false [maddr] s) rfl (acceptance_eq_firstFailing ..)
  · exact issue_answers_checks (setupWrite_eq false false (maddr :: data) s) rfl (acceptance_eq_firstFailing ..)

/-! ## Accepted commands (R101 to R105) -/

/-- Settles O15, by the issue of an accepted WRITE. -/
theorem writeIssueStartsTheTransfer : Obligations.WriteIssueStartsTheTransfer := by
  unfold Obligations.WriteIssueStartsTheTransfer
  intro s ns rs addr data hr ha hmin hmax
  exact exec_write_of_ready hr ha (lengthOk_iff.2 ⟨hmin, hmax⟩)

/-- Settles O16, by the issue of an accepted READ. -/
theorem readIssueStartsTheTransfer : Obligations.ReadIssueStartsTheTransfer := by
  unfold Obligations.ReadIssueStartsTheTransfer
  intro s rs addr len hr ha hmin hmax
  exact exec_read_of_ready hr ha (lengthOk_iff.2 ⟨hmin, hmax⟩)

/-- A MEMREAD accepted: the set-up and the trigger of its first transfer (R104). -/
theorem exec_memread_of_ready {s : State} {addr maddr len : Byte} (hr : launchReady false s) (ha : addr.toNat < 128)
    (hl : lengthOk s.cfg.cap len.toNat = true) : exec (.memread addr maddr len) s = .next
      (afterIssue s (writeCtx true false [maddr] s.ctx) (memreadCommand addr maddr len) false (addr <<< 1)) := by
  rw [← header_write ha]
  exact issue_eq (setupWrite_eq true false [maddr] s) rfl hr ha hl

/-- A MEMWRITE accepted: the set-up and the trigger of its one transfer (R105). -/
theorem exec_memwrite_of_ready {s : State} {addr maddr : Byte} {data : List Byte} (hr : launchReady false s)
    (ha : addr.toNat < 128) (hl : lengthOk s.cfg.cap (data.length + 1) = true) :
    exec (.memwrite addr maddr data) s = .next (afterIssue s (writeCtx false false (maddr :: data) s.ctx)
      (memwriteCommand addr maddr data) false (addr <<< 1)) := by
  rw [← header_write ha]
  exact issue_eq (setupWrite_eq false false (maddr :: data) s) rfl hr ha hl

/-- Settles O17: copying in the one byte of the memory address is the write at index 0. -/
theorem memreadIssueWritesTheOffset : Obligations.MemreadIssueWritesTheOffset := by
  unfold Obligations.MemreadIssueWritesTheOffset
  intro s addr maddr len hr ha hmin hmax
  exact exec_memread_of_ready hr ha (lengthOk_iff.2 ⟨hmin, hmax⟩)

/-- Settles O18: both commands set up the same WRITE transfer and open it alike. -/
theorem memwriteIssueIsOneWrite : Obligations.MemwriteIssueIsOneWrite := by
  unfold Obligations.MemwriteIssueIsOneWrite
  intro s addr maddr data hr ha hmax
  have hl : lengthOk s.cfg.cap (data.length + 1) = true := lengthOk_iff.2 ⟨Nat.succ_pos _, hmax⟩
  have hmem := exec_memwrite_of_ready (maddr := maddr) hr ha hl
  have hwrite := exec_write_of_ready (ns := false) (data := maddr :: data) hr ha hl
  exact ⟨hmem, _, hwrite, hmem⟩

/-- Settles O12, by the host's phase, the one thing that INIT asks about. -/
theorem initResetsTheContextOnly : Obligations.InitResetsTheContextOnly := by
  unfold Obligations.InitResetsTheContextOnly
  exact fun s => ⟨fun hp => if_pos hp, fun hp => if_neg hp⟩

/-! ## The host's turn in its spin (R100, R106) -/

/-- In its spin, with the transfer under way, the host polls (R100). -/
theorem hostTurn_of_inTransfer {s : State} (hp : s.host.phase = .spin) (hs : inTransfer s.ctx.step = true) :
    agentTurn .host s = hostPoll s := by
  simp [agentTurn, hostTurn, hp, hs]

/-- In its spin, with the transfer ended in READY, the host completes. -/
theorem hostTurn_of_ready {s : State} (hp : s.host.phase = .spin) (hs : s.ctx.step = .ready) :
    agentTurn .host s = hostComplete s :=
  hostTurn_of_terminal hp ((not_inTransfer_iff _).2 (.inr hs))

/-- In its spin, with the transfer ended in ERROR, the host completes. -/
theorem hostTurn_of_error {s : State} (hp : s.host.phase = .spin) (hs : s.ctx.step = .error) :
    agentTurn .host s = hostComplete s :=
  hostTurn_of_terminal hp ((not_inTransfer_iff _).2 (.inl hs))

/-- Settles O20, by the poll without a `SPIN_LIMIT`. -/
theorem pollChangesNothing : Obligations.PollChangesNothing := by
  unfold Obligations.PollChangesNothing
  intro s hp he hr hl
  rw [hostTurn_of_inTransfer hp ((inTransfer_iff _).2 ⟨he, hr⟩), hostPoll_unbounded hl]

theorem hostComplete_of_write {s : State} (hop : s.host.cmd.op = .write ∨ s.host.cmd.op = .memwrite) :
    hostComplete s = respond [statusByte s.ctx.step] s := by
  obtain hop | hop := hop <;> simp only [hostComplete, hop, completeWrite]

theorem hostComplete_of_read {s : State} (hop : s.host.cmd.op = .read) : hostComplete s = completeRead s := by
  simp only [hostComplete, hop]

theorem hostComplete_of_memread_first {s : State} (hop : s.host.cmd.op = .memread) (hsub : s.host.sub = .first) :
    hostComplete s = completeMemreadFirst s := by
  simp only [hostComplete, hop, hsub]

/-- A read that has succeeded answers 0x01 and the received bytes (R43, R65, R103). -/
theorem completeRead_of_ready {s : State} (hs : s.ctx.step = .ready) (hl : s.host.cmd.length.toNat ≤ s.cfg.cap) :
    completeRead s = respond (0x01#8 :: s.ctx.rxBuffer.copyOut s.host.cmd.length.toNat) s := by
  rw [completeRead, if_pos hs, if_pos hl]; rfl

/-- A read that has failed answers 0x00 alone (R65, R103). -/
theorem completeRead_of_error {s : State} (hs : s.ctx.step = .error) : completeRead s = respond [0x00#8] s := by
  rw [completeRead, if_neg (by simp [hs])]; rfl

/-- Settles O21: the response is the status byte of the terminal step. -/
theorem writeCompletionAnswersTheStatus : Obligations.WriteCompletionAnswersTheStatus := by
  unfold Obligations.WriteCompletionAnswersTheStatus
  intro s hp hop
  constructor
  · intro hs
    rw [hostTurn_of_ready hp hs, hostComplete_of_write hop, hs]; rfl
  · intro hs
    rw [hostTurn_of_error hp hs, hostComplete_of_write hop, hs]; rfl

/-- Settles O22, by the two outcomes of a read. -/
theorem readCompletionCopiesOut : Obligations.ReadCompletionCopiesOut := by
  unfold Obligations.ReadCompletionCopiesOut
  intro s hp hop hl
  constructor
  · intro hs
    rw [hostTurn_of_ready hp hs, hostComplete_of_read hop, completeRead_of_ready hs hl]; rfl
  · intro hs
    rw [hostTurn_of_error hp hs, hostComplete_of_read hop, completeRead_of_error hs]; rfl

/-! ## MEMREAD (R104) -/

/-- RESTART while the bus is not owned, or a byte is in flight, is the misuse of R123 (R131). -/
theorem emit_restart_misuse {s : State} (h : s.port.mst = false ∨ s.port.inflight ≠ .none) :
    emit .restart s = .fault (.portMisuse .restartWhileNotOwned) := by
  have hno : ¬ (s.port.mst = true ∧ s.port.inflight = .none) := by
    rintro ⟨hm, hi⟩
    simp [hm, hi] at h
  simp only [emit, applyOp, restartCondition, if_neg hno, andThen_fault]

/-- So is a trigger that opens with RESTART there (R109). -/
theorem trigger_restart_misuse (address : BitVec 7) (rw : Bool) {s : State} (hr : s.ctx.restartFlag = true)
    (h : s.port.mst = false ∨ s.port.inflight ≠ .none) :
    trigger address rw s = .fault (.portMisuse .restartWhileNotOwned) := by
  simp only [trigger, emit_setTx, andThen_next, logPort_ctx, hr, if_true]
  rw [emit_restart_misuse (by exact h), andThen_fault]

/-- A first transfer of MEMREAD that has failed ends the command with 0x00 (R65, R104). -/
theorem completeMemreadFirst_error {s : State} (hs : s.ctx.step = .error) :
    completeMemreadFirst s = respond [0x00#8] s := if_pos hs

/-- MEMREAD's second transfer cannot be opened unless the first has left the bus owned and quiet (R123, R131). -/
theorem completeMemreadFirst_misuse {s : State} (hs : s.ctx.step = .ready)
    (h : s.port.mst = false ∨ s.port.inflight ≠ .none) :
    completeMemreadFirst s = .fault (.portMisuse .restartWhileNotOwned) := by
  rw [completeMemreadFirst, if_neg (by simp [hs]), trigger_restart_misuse _ _ (by rfl) (by exact h), andThen_fault]

/-- Settles O23, by the outcomes of MEMREAD's first transfer, then those of its second. -/
theorem memreadCompletionsFollowBothTransfers : Obligations.MemreadCompletionsFollowBothTransfers := by
  unfold Obligations.MemreadCompletionsFollowBothTransfers
  constructor
  · intro s hp hop hsub
    refine ⟨fun hs => ?_, fun hs hm hi => ?_, fun hs h => ?_⟩
    · rw [hostTurn_of_error hp hs, hostComplete_of_memread_first hop hsub, completeMemreadFirst_error hs]; rfl
    · rw [hostTurn_of_ready hp hs, hostComplete_of_memread_first hop hsub, completeMemreadFirst_ready hs hm hi]
      simp only [hm]
      rfl
    · rw [hostTurn_of_ready hp hs, hostComplete_of_memread_first hop hsub, completeMemreadFirst_misuse hs h]
  · intro s hp hop hsub hl
    constructor
    · intro hs
      rw [hostTurn_of_ready hp hs, hostComplete_of_memread_second hop hsub]
      exact completeRead_of_ready hs hl
    · intro hs
      rw [hostTurn_of_error hp hs, hostComplete_of_memread_second hop hsub]
      exact completeRead_of_error hs

/-- What a step leaves of the bus when it makes no STOP: the bus owned, the wire trace as it was, and no STOP among
the port operations it appends. -/
def BusHeld (s t : State) : Prop :=
  t.port.mst = true ∧ t.trace.wire = s.trace.wire ∧ .stop ∉ t.trace.port.drop s.trace.port.length

theorem busHeld_afterEvent {s : State} {c : Context} {p : Port} {ops : List PortOp} (hm : p.mst = true)
    (hops : .stop ∉ ops) : BusHeld s (afterEvent s c p ops []) := by
  simp [BusHeld, afterEvent, hm, hops]

/-- In an armed WRITE transfer with the bus owned, a sequencer step that ends in no ERROR keeps the bus (R18, R104). -/
theorem SeqMove.busHeld {s t : State} (h : SeqMove s t) (hm : s.port.mst = true) (hd : s.ctx.direction = .write)
    (hn : s.ctx.noStopFlag = true) (he : t.ctx.step ≠ .error) : BusHeld s t := by
  cases h with
  | busError => exact absurd rfl he
  | send | sentHeld | idle => exact busHeld_afterEvent hm (by simp)
  | startReception _ hr | storeMore _ hr _ | storeLastStop _ hr _ _ | storeLastHeld _ hr _ _ => simp [hd] at hr
  | sentStop _ _ hf => simp [hn] at hf

/-- Settles O55: MEMREAD's first transfer is an armed WRITE with the bus owned. -/
theorem memreadHoldsTheBusBetweenTransfers : Obligations.MemreadHoldsTheBusBetweenTransfers := by
  unfold Obligations.MemreadHoldsTheBusBetweenTransfers
  intro s t h hp hop hsub hs ht he
  obtain ⟨hd, hn, -⟩ := h.memreadFirst hp hop hsub
  obtain ⟨-, hm⟩ := seqTurn_move ht
  exact hm.busHeld (h.transferring hs).owned hd hn he

end Sys2Proof.Machine
end

section
/-! SUPPORT. The port operations, the conditions on the wire and the bus's completions, each as its whole next state or
as what stops it (R120 to R133). A port operation is its condition with its symbol logged, so each condition of R122 to
R124 is proved once and serves both the operation and the wire symbol. -/

namespace Sys2Proof.Machine

open Sys2Proof

/-! ## A port operation from its effect (R120) -/

theorem emit_of_next {op : PortOp} {s t : State} (h : applyOp op s = .next t) : emit op s = .next (logPort op t) := by
  rw [emit, h, andThen_next]

theorem emit_of_fault {op : PortOp} {s : State} {e : Fault} (h : applyOp op s = .fault e) : emit op s = .fault e := by
  rw [emit, h, andThen_fault]

/-- Every instruction of format P is `emit` of the operation whose symbol encodes it (R72, R120). -/
theorem exec_eq_emit {i : Instr} (hf : formatOf i = .p) :
    ∃ op : PortOp, encode i = .port op.symbol ∧ ∀ s, exec i s = emit op s := by
  cases i with
  | clrEvent => exact ⟨.clrEvent, rfl, fun _ => rfl⟩
  | start => exact ⟨.start, rfl, fun _ => rfl⟩
  | restart => exact ⟨.restart, rfl, fun _ => rfl⟩
  | stop => exact ⟨.stop, rfl, fun _ => rfl⟩
  | setTx b => exact ⟨.setTx b, rfl, fun _ => rfl⟩
  | setAck a => exact ⟨.setAck a, rfl, fun _ => rfl⟩
  | writeData v => exact ⟨.writeData v, rfl, fun _ => rfl⟩
  | readData => exact ⟨.readData, rfl, fun _ => rfl⟩
  | _ => nomatch hf

/-! ## The conditions on the wire (R122 to R124) -/

section
variable {s : State}

theorem startCondition_of_free (hm : s.port.mst = false) (hi : s.port.inflight = .none) :
    startCondition s = .next (logWire .s { s with port := { s.port with mst := true } }) := if_pos ⟨hm, hi⟩

theorem startCondition_misuse (h : s.port.mst = true ∨ s.port.inflight ≠ .none) :
    startCondition s = .fault (.portMisuse .startWhileOwned) :=
  if_neg fun ⟨hm, hi⟩ => h.elim (by simp [hm]) (absurd hi)

theorem restartCondition_of_owned (hm : s.port.mst = true) (hi : s.port.inflight = .none) :
    restartCondition s = .next (logWire .sr s) := if_pos ⟨hm, hi⟩

theorem restartCondition_misuse (h : s.port.mst = false ∨ s.port.inflight ≠ .none) :
    restartCondition s = .fault (.portMisuse .restartWhileNotOwned) :=
  if_neg fun ⟨hm, hi⟩ => h.elim (by simp [hm]) (absurd hi)

theorem stopCondition_of_owned (hm : s.port.mst = true) :
    stopCondition s = .next (logWire .p { s with port := { s.port with mst := false, inflight := .none } }) := if_pos hm

theorem stopCondition_of_free (hm : s.port.mst = false) : stopCondition s = .next s := if_neg (by simp [hm])

/-! ## The data register (R127, R128) -/

/-- What fails when WRITE_DATA may not start a byte (R127, R131). -/
theorem not_canSend (h : s.port.mst = false ∨ s.port.txMode = false ∨ s.port.inflight ≠ .none) :
    ¬ canSend s.port := by
  rintro ⟨hm, ht, hi⟩
  simp [hm, ht, hi] at h

/-- READ_DATA with the bus owned in receive mode and nothing in flight starts a reception (R128). -/
theorem emit_readData_starts (hm : s.port.mst = true) (ht : s.port.txMode = false) (hi : s.port.inflight = .none) :
    emit .readData s = .next (logPort .readData { s with port := { s.port with inflight := .rxb } }) := by
  rw [emit_readData (.inr (.inr hi)), if_pos ⟨hm, ht⟩]

/-- A bare READ_DATA has no effect on the bus (R128). -/
theorem emit_readData_bare (h : s.port.mst = false ∨ s.port.txMode = true) :
    emit .readData s = .next (logPort .readData s) := by
  rw [emit_readData (h.imp_right .inl), if_neg fun ⟨hm, ht⟩ => by simp [hm, ht] at h]

/-! ## The bus's completions (R129, R130) -/

theorem completeTransmit_of_txb {v : Byte} (nack : Bool) (hi : s.port.inflight = .txb v) :
    completeTransmit v nack s = .next { afterDraw s with
      port := { s.port with rxNack := nack, arbLost := (nextDraw s).arbl, inflight := .none, evFlag := true }
      trace := { s.trace with wire := s.trace.wire ++ [.t v nack] } } := by
  rw [completeTransmit, if_pos hi, logWire, afterDraw_trace]

theorem completeReceive_of_rxb {v : Byte} {a : Bool} (hi : s.port.inflight = .rxb) (ha : s.port.ackCtl = a) :
    completeReceive v a s = .next { afterDraw s with
      port := { s.port with
        dataReg := v, rxNack := a, arbLost := (nextDraw s).arbl, inflight := .none, evFlag := true }
      trace := { s.trace with wire := s.trace.wire ++ [.r v a] } } := by
  rw [completeReceive, if_pos ⟨hi, ha⟩, logWire, afterDraw_trace]

end

/-! ## The obligations -/

/-- Settles O45: the instruction is one `emit`, whose outcomes and frame are said once. -/
theorem portOperationsTouchOnlyThePort : Obligations.PortOperationsTouchOnlyThePort := by
  unfold Obligations.PortOperationsTouchOnlyThePort
  intro i s hf
  obtain ⟨op, henc, hexec⟩ := exec_eq_emit hf
  rw [hexec]
  obtain ⟨t, ht⟩ | hmisuse := emit_cases op s
  · exact .inl ⟨t, op, ht, henc, emit_frame ht⟩
  · exact .inr hmisuse

/-- Settles O41, by the effects of the three operations. -/
theorem flagAndControlOperationsAreTotal : Obligations.FlagAndControlOperationsAreTotal := by
  unfold Obligations.FlagAndControlOperationsAreTotal
  exact fun s b => ⟨emit_clrEvent s, emit_setTx b s, emit_setAck b s⟩

/-- Settles O42: each operation is its condition with its symbol logged. -/
theorem startTakesAndRestartKeepsTheBus : Obligations.StartTakesAndRestartKeepsTheBus := by
  unfold Obligations.StartTakesAndRestartKeepsTheBus
  exact fun s =>
    ⟨fun hm hi => emit_of_next (op := .start) (startCondition_of_free hm hi),
      fun h => emit_of_fault (op := .start) (startCondition_misuse h),
      fun hm hi => emit_of_next (op := .restart) (restartCondition_of_owned hm hi), emit_restart_misuse⟩

/-- Settles O43: STOP is its condition with its symbol logged, whether the bus is owned or not. -/
theorem stopReleasesTheBus : Obligations.StopReleasesTheBus := by
  unfold Obligations.StopReleasesTheBus
  exact fun s =>
    ⟨fun hm => emit_of_next (op := .stop) (stopCondition_of_owned hm),
      fun hm => emit_of_next (op := .stop) (stopCondition_of_free hm)⟩

/-- Settles O44, by what WRITE_DATA and READ_DATA do where they may start a byte and where they may not. -/
theorem dataRegisterAccessesStartBytes : Obligations.DataRegisterAccessesStartBytes := by
  unfold Obligations.DataRegisterAccessesStartBytes
  exact fun s v =>
    ⟨emit_writeData, fun h => emit_writeData_misuse v (not_canSend h), emit_readData_starts, emit_readData_bare,
      emit_readData_misuse⟩

/-- Settles O46: the bus completes exactly the byte in flight. -/
theorem busCompletesATransmittedByte : Obligations.BusCompletesATransmittedByte := by
  unfold Obligations.BusCompletesATransmittedByte
  exact fun s v nack => ⟨completeTransmit_of_txb nack, fun hi => if_neg hi⟩

/-- Settles O47: the bus completes a reception exactly with the acknowledge that `ackCtl` holds. -/
theorem busCompletesAReceivedByte : Obligations.BusCompletesAReceivedByte := by
  unfold Obligations.BusCompletesAReceivedByte
  exact fun s v a => ⟨completeReceive_of_rxb, fun h => if_neg fun ⟨hi, ha⟩ => h.elim (absurd hi) (absurd ha)⟩

/-- Settles O48, by the conditions that START, RESTART and STOP put on the wire. -/
theorem wireConditionsFollowTheirRules : Obligations.WireConditionsFollowTheirRules := by
  unfold Obligations.WireConditionsFollowTheirRules
  exact fun s =>
    ⟨startCondition_of_free, startCondition_misuse, restartCondition_of_owned, restartCondition_misuse,
      stopCondition_of_owned, stopCondition_of_free⟩

end Sys2Proof.Machine
end

section
/-! SUPPORT. What a sequencer step writes: of the context its step, its counter and one entry of the receive buffer,
and of the rest only the port and the traces (R153, R21); how ERROR is entered (R149). -/

namespace Sys2Proof.Machine

open Sys2Proof

/-! ## Entry to ERROR -/

/-- The transmit sub-path never ends in ERROR (R83, R85). -/
theorem sentCtx_step_ne_error (c : Context) : (sentCtx .dataTransmission c).step ≠ .error := by
  rw [sentCtx_step]
  split <;> simp

/-- The one move that enters ERROR from another step is the bus error (R149). -/
theorem SeqMove.eq_of_enters_error {s t : State} (h : SeqMove s t) (hs : s.ctx.step ≠ .error)
    (ht : t.ctx.step = .error) :
    t = afterEvent s { s.ctx with step := .error } (stoppedPort s.port) [.stop] (stopWire s.port) := by
  cases h with
  | busError => rfl
  | send => exact absurd ht (sentCtx_step_ne_error s.ctx)
  | idle => exact absurd ht hs
  | startReception | storeMore | storeLastStop | storeLastHeld | sentStop | sentHeld => nomatch ht

/-- Settles O37: of the moves of the sequencer only the bus error enters ERROR. -/
theorem entryToErrorChangesNothingElse : Obligations.EntryToErrorChangesNothingElse := by
  unfold Obligations.EntryToErrorChangesNothingElse
  intro s t h hs ht
  obtain ⟨-, hm⟩ := seqTurn_move h
  exact hm.eq_of_enters_error hs ht

/-! ## What a case writes -/

/-- The context after the case `i` has left step `p` in it, where the byte stored, if one is, is `v` (R153). -/
def eventCtx (i : Instr) (p : Step) (v : Byte) (c : Context) : Context :=
  { c with
    step := p
    txCounter := if sendsByte i then c.txCounter + 1 else c.txCounter
    rxCounter := if storesByte i then c.rxCounter + 1 else c.rxCounter
    rxBuffer := if storesByte i then c.rxBuffer.write c.rxCounter.toNat v else c.rxBuffer }

/-- A case that goes on writes of the context what `eventCtx` says; the byte stored is that of the data register. -/
theorem exec_event_ctx {i : Instr} {s t : State} (hf : formatOf i = .ev) (h : exec i s = .next t) :
    t.ctx = eventCtx i t.ctx.step s.port.dataReg s.ctx := by
  cases i with
  | evArbl n p d => obtain ⟨-, -, rfl⟩ := evArbl_next h; rfl
  | evNackHeader d => obtain ⟨-, -, rfl⟩ := evNackHeader_next h; rfl
  | evNackData => obtain ⟨-, -, rfl⟩ := evNackData_next h; rfl
  | evNackSent => obtain ⟨-, -, rfl⟩ := evNackSent_next h; rfl
  | evHdrW => obtain ⟨-, -, -, rfl⟩ := evHdrW_next h; rfl
  | evHdrR => obtain ⟨-, -, -, rfl⟩ := evHdrR_next h; rfl
  | evTx => obtain ⟨-, -, -, rfl⟩ := evTx_next h; rfl
  | evRxMore n => obtain ⟨-, -, -, -, rfl⟩ := evRxMore_next h; rfl
  | evRxLast n => obtain ⟨-, -, -, ⟨-, rfl⟩ | ⟨-, -, rfl⟩⟩ := evRxLast_next h <;> rfl
  | evSent => obtain ⟨-, -, ⟨-, rfl⟩ | ⟨-, rfl⟩⟩ := evSent_next h <;> rfl
  | evIdle n r d => obtain ⟨-, -, rfl⟩ := evIdle_next h; rfl
  | _ => nomatch hf, h

/-- The receive buffer reads as before, but at the index where a case stores (R86, R87). -/
theorem eventCtx_rxBuffer_read (i : Instr) (p : Step) (v : Byte) (c : Context) {j : Nat}
    (hj : storesByte i = true → j ≠ c.rxCounter.toNat) :
    (eventCtx i p v c).rxBuffer.read j = c.rxBuffer.read j := by
  simp only [eventCtx]
  split
  · next hi => exact Memory.read_write_of_ne _ _ (hj hi)
  · rfl

theorem eventCtx_rxBuffer_of_not_stores {i : Instr} (p : Step) (v : Byte) (c : Context) (hi : storesByte i = false) :
    (eventCtx i p v c).rxBuffer = c.rxBuffer := by
  simp [eventCtx, hi]

/-- Every move takes the event and, of the port, never writes `rxNack`; beyond the context and the port it writes
the traces alone (R80, R121). -/
theorem SeqMove.frame {s t : State} (h : SeqMove s t) :
    t.host = s.host ∧ t.cfg = s.cfg ∧ t.inputs = s.inputs ∧ t.draws = s.draws ∧ t.freeIndex = s.freeIndex ∧
      t.port.evFlag = false ∧ t.port.arbLost = false ∧ t.port.rxNack = s.port.rxNack := by
  cases h <;> exact ⟨rfl, rfl, rfl, rfl, rfl, rfl, rfl, rfl⟩

/-- Settles O38: `eventCtx` is what a case writes of the context, and the frame of the moves is the rest. -/
theorem sequencerWritesOnlyItsOwn : Obligations.SequencerWritesOnlyItsOwn := by
  unfold Obligations.SequencerWritesOnlyItsOwn
  intro i s t hf h
  obtain ⟨-, hm⟩ := exec_event_move hf h
  have hctx := exec_event_ctx hf h
  rw [hctx]
  exact ⟨rfl, rfl, rfl, fun _ => eventCtx_rxBuffer_read i _ _ s.ctx,
    eventCtx_rxBuffer_of_not_stores _ _ s.ctx, hm.frame⟩

end Sys2Proof.Machine
end

section
/-! SUPPORT. Reset, INIT and the absence of deadlock (R160, R161, R176): a quiescent machine has no step, the state
after reset is one and meets the invariants, and under the command invariant a spinning host is never stuck. -/

namespace Sys2Proof.Machine

open Sys2Proof

/-! ## Agents without a step (R80, R100, R129, R130) -/

theorem agentTurn_of_not_enabled {s : State} {a : Agent} (h : agentEnabled s a = false) :
    agentTurn a s = .refused (.notEnabled a) := by
  cases a with
  | host =>
    cases hp : s.host.phase with
    | idle => exact if_pos hp
    | spin => simp [agentEnabled, hp] at h
  | seq => exact if_neg (by simpa [agentEnabled] using h)
  | bus =>
    have hi : s.port.inflight = .none := (Inflight.isNone_iff _).1 (by simpa [agentEnabled] using h)
    simp only [agentTurn, busTurn, hi]

/-- In a quiescent system no agent has an enabled step (R176). -/
theorem quiescent.not_enabled {s : State} (h : quiescent s) (a : Agent) : agentEnabled s a = false := by
  obtain ⟨hp, he, hi⟩ := h
  cases a with
  | host => simp [agentEnabled, hp]
  | seq => exact he
  | bus => simp [agentEnabled, hi, Inflight.isNone]

/-! ## Reset and INIT (R160, R161) -/

theorem reset_quiescent : quiescent State.reset := ⟨rfl, rfl, rfl⟩

/-- Settles O1: the registers hold the values of R35, and a quiescent machine has no step. -/
theorem resetIsIdleAndUninitialised : Obligations.ResetIsIdleAndUninitialised := by
  unfold Obligations.ResetIsIdleAndUninitialised
  refine ⟨rfl, rfl, rfl, rfl, rfl, rfl, rfl, rfl, rfl, rfl, rfl, rfl, fun a => ?_⟩
  have ha := reset_quiescent.not_enabled a
  exact ⟨ha, agentTurn_of_not_enabled ha⟩

/-- Settles O13: INIT leaves the host idle, so a second one is accepted, and writes what the first has written. -/
theorem initTwiceIsInitOnce : Obligations.InitTwiceIsInitOnce := by
  unfold Obligations.InitTwiceIsInitOnce
  intro s t h
  obtain ⟨-, rfl⟩ := execInit_next h
  exact ⟨(initResetsTheContextOnly _).1 rfl, rfl, rfl, rfl, rfl, rfl⟩

theorem reset_buffersCanonical : BuffersCanonical State.reset where
  txForm := ⟨.nil, nofun⟩
  rxForm := ⟨.nil, nofun⟩
  txWithin := nofun
  rxWithin := nofun

theorem reset_not_inTransfer : inTransfer State.reset.ctx.step = false := rfl

/-- What the invariant asks of a transfer or of a command under way asks nothing at reset: its step is ERROR and its
host IDLE. -/
theorem reset_commandInv : CommandInv State.reset where
  cap := ⟨by decide, by decide⟩
  unbounded := rfl
  buffers := reset_buffersCanonical
  commands := rfl
  fresh _ := ⟨rfl, reset_not_inTransfer, rfl⟩
  wellFormed := wf_of_not_inTransfer reset_not_inTransfer
  counters := ⟨le_rfl, le_rfl⟩
  oneEvent := nofun
  quiet _ := ⟨rfl, rfl⟩
  active := nofun
  mode := nofun
  readStops := nofun
  memreadFirst := nofun
  subOne _ := rfl
  readLength := nofun

/-- Settles O50, on the values the model names for the context (log entries 1 and 2). -/
theorem resetMeetsTheInvariants : Obligations.ResetMeetsTheInvariants := by
  unfold Obligations.ResetMeetsTheInvariants
  exact ⟨reset_buffersCanonical, reset_commandInv⟩

/-! ## No deadlock (R134, R176) -/

theorem goes_on_of_not_stopped {r : Result} (hf : NotFault r) (hr : NotRefused r) : ∃ t, r = .next t := by
  cases r with
  | next t => exact ⟨t, rfl⟩
  | fault e => exact absurd rfl (hf e)
  | refused e => exact absurd rfl (hr e)

theorem NotRefused.trigger (address : BitVec 7) (rw : Bool) (s : State) : NotRefused (trigger address rw s) :=
  .andThen (.emit _ _) fun _ => .andThen (.emit _ _) fun _ => .emit _ _

theorem NotRefused.completeRead (s : State) : NotRefused (completeRead s) := by
  unfold Machine.completeRead
  split
  · split
    · exact .next _
    · nofun
  · exact .next _

theorem NotRefused.completeMemreadFirst (s : State) : NotRefused (completeMemreadFirst s) := by
  unfold Machine.completeMemreadFirst
  split
  · exact .next _
  · exact .andThen (.trigger _ _ _) fun _ => .next _

/-- A completion meets none of the checks of R110, and so no refusal (R100, R110). -/
theorem NotRefused.hostComplete (s : State) : NotRefused (hostComplete s) := by
  unfold Machine.hostComplete
  cases s.host.cmd.op with
  | write | memwrite => exact .next _
  | read => exact .completeRead s
  | memread =>
    cases s.host.sub with
    | first => exact .completeMemreadFirst s
    | second => exact .completeRead _

/-- Settles O54: in a transfer the invariant leaves one event or one byte, and the agent it enables goes on; outside
one the port is quiescent and the completion goes on. -/
theorem spinningHostIsNeverStuck : Obligations.SpinningHostIsNeverStuck := by
  unfold Obligations.SpinningHostIsNeverStuck
  refine fun s h hp => ⟨fun hs => ?_, fun hs => ?_⟩
  · obtain ⟨he, hi⟩ | ⟨he, hi⟩ := (h.transferring hs).oneByte
    · exact .inl ⟨he, hi, seqTurn_goes_on h he⟩
    · exact .inr ⟨he, hi, busTurn_goes_on hi⟩
  · obtain ⟨he, hi⟩ := h.quiet hs
    refine ⟨he, hi, ?_⟩
    rw [hostTurn_of_terminal hp hs]
    exact goes_on_of_not_stopped (hostComplete_notFault h hp hs) (.hostComplete s)

end Sys2Proof.Machine
end
